-- ==== Sys2Proof/Word.lean ====
section
/-! DEFINITION. The word types of HUFFCORE (spec/00_scope.md R6, R10) and the type of a code. -/

namespace Sys2Proof

/-- One symbol of the text or one character of `data` or `map`: 8 bits (R6: `SYM_W`, `CHAR_W`). -/
abbrev Byte := BitVec 8

/-- A command word, a response word, a count or a CSR: 32 bits (R6: `CMD_W`, `RSP_W`, `CNT_W`). -/
abbrev Word := BitVec 32

/-- A word address of the read space: 16 bits (20_memory.md R60). -/
abbrev Addr := BitVec 16

/-- An index into the arena: 9 bits (R6: `IDX_W`). -/
abbrev NodeIdx := BitVec 9

/-- A code is a finite list of bits, the bit nearest the root first (R10); `false` is 0, `true` is 1. -/
abbrev Code := List Bool

end Sys2Proof
end

