-- ==== Sys2Proof/Syntax.lean ====
section
/-! DEFINITION. The twelve commands of HUFFCORE: one constructor per row of the opcode map (30_encoding.md R82). -/

namespace Sys2Proof

/-- A decoded command. The operand kinds of 30_encoding.md R81 are the argument types: a symbol or a character is `arg[7:0]`,
an address is `arg[15:0]`. -/
inductive Instr where
  /-- NOP (40_control.md R100). -/
  | nop
  /-- CLR (40_control.md R101). -/
  | clr
  /-- FREQ `sym` (41_tree_builder.md R110). -/
  | freq (sym : Byte)
  /-- BUILD (41_tree_builder.md R112). -/
  | build
  /-- ASSIGN (42_code_table_generator.md R130). -/
  | assign
  /-- SERMAP (42_code_table_generator.md R135). -/
  | sermap
  /-- PACK `sym` (44_bit_packer.md R170). -/
  | pack (sym : Byte)
  /-- LDMAP `ch` (45_bit_stream_decoder.md R182). -/
  | ldmap (ch : Byte)
  /-- ENDMAP (45_bit_stream_decoder.md R186). -/
  | endmap
  /-- BIT `ch` (45_bit_stream_decoder.md R189). -/
  | bit (ch : Byte)
  /-- ENDDATA (45_bit_stream_decoder.md R193). -/
  | enddata
  /-- RDREG `addr` (40_control.md R102). -/
  | rdreg (addr : Addr)
deriving DecidableEq, Repr

end Sys2Proof
end

