-- ==== Sys2Proof/WellFormed.lean ====
section
/-! DEFINITION. What makes a command word well formed (30_encoding.md R80 to R83). A term of `Instr` carries its operand at the
width R81 gives it, so every term is well formed; the checks are on the 32-bit word the host presents. -/

namespace Sys2Proof

/-- The operand kinds of 30_encoding.md R81. -/
inductive OperandKind where
  /-- no operand: `arg` must be 0x0000 -/
  | none
  /-- a symbol or a character in `arg[7:0]`: `arg[15:8]` must be 0 -/
  | byte
  /-- a read-space address in `arg[15:0]`: no constraint -/
  | addr
deriving DecidableEq, Repr

/-- The `op` column of 30_encoding.md R82 with each opcode's operand kind; `none` for a value not in the table. -/
def operandKindOf (op : Byte) : Option OperandKind :=
  match op.toNat with
  | 0x00 | 0x01 | 0x11 | 0x12 | 0x13 | 0x21 | 0x23 => some .none
  | 0x10 | 0x14 | 0x20 | 0x22 => some .byte
  | 0x30 => some .addr
  | _ => Option.none

/-- Check 1 (R83): the `op` field is in the table of R82. -/
def opKnown (w : Word) : Bool := (operandKindOf (w.extractLsb' 24 8)).isSome

/-- Check 2 (R80): `rsv`, bits 23:16, is 0. -/
def rsvZero (w : Word) : Bool := w.extractLsb' 16 8 == 0

/-- Check 3 (R81): the operand bits that must be 0 are 0. -/
def operandOk (w : Word) : Bool :=
  match operandKindOf (w.extractLsb' 24 8) with
  | some .none => w.extractLsb' 0 16 == 0
  | some .byte => w.extractLsb' 8 8 == 0
  | some .addr => true
  | Option.none => true

/-- A command word that is one of the twelve commands (R83: every other word is illegal). -/
def wellFormedWord (w : Word) : Bool := opKnown w && rsvZero w && operandOk w

end Sys2Proof
end

