-- ==== Sys2Proof/Decode.lean ====
section
/-! DEFINITION. The decoder of command words, total and rejecting by name (30_encoding.md R80 to R83), the encoder written from
the same table, and the opcode map of R82 as rows of match and mask. -/

namespace Sys2Proof

/-- The three ways a word is illegal that R83 lists: "an `op` value not in the table, `rsv != 0`, or a "must be 0" operand bit
that is 1". All three raise the same error; the name is the decoder's own. -/
inductive IllegalWord where
  /-- an `op` value not in the table of R82 -/
  | unknownOp
  /-- `rsv`, bits 23:16, is not 0 -/
  | reservedNonZero
  /-- a "must be 0" bit of the operand is 1 -/
  | operandNonZero
deriving DecidableEq, Repr

/-- `op`, bits 31:24 (R80). -/
def opField (w : Word) : Byte := w.extractLsb' 24 8

/-- `rsv`, bits 23:16 (R80). -/
def rsvField (w : Word) : Byte := w.extractLsb' 16 8

/-- `arg`, bits 15:0 (R80). -/
def argField (w : Word) : Addr := w.extractLsb' 0 16

/-- A command without operand: `arg` must be 0x0000 (R81). -/
def noOperand (arg : Addr) (i : Instr) : Except IllegalWord Instr :=
  if arg = 0 then .ok i else .error .operandNonZero

/-- A symbol or character operand: `arg[7:0]`, and `arg[15:8]` must be 0 (R81). -/
def byteOperand (arg : Addr) (f : Byte → Instr) : Except IllegalWord Instr :=
  if arg.extractLsb' 8 8 = 0 then .ok (f (arg.extractLsb' 0 8)) else .error .operandNonZero

/-- The operand part of decoding, by the `op` column of R82. -/
def decodeOperand (op : Byte) (arg : Addr) : Except IllegalWord Instr :=
  match op.toNat with
  | 0x00 => noOperand arg .nop
  | 0x01 => noOperand arg .clr
  | 0x10 => byteOperand arg .freq
  | 0x11 => noOperand arg .build
  | 0x12 => noOperand arg .assign
  | 0x13 => noOperand arg .sermap
  | 0x14 => byteOperand arg .pack
  | 0x20 => byteOperand arg .ldmap
  | 0x21 => noOperand arg .endmap
  | 0x22 => byteOperand arg .bit
  | 0x23 => noOperand arg .enddata
  | 0x30 => .ok (.rdreg arg)
  | _ => .error .unknownOp

/-- The decoder: a command, or the name of what is wrong with the word (R83). -/
def decodeWord (w : Word) : Except IllegalWord Instr :=
  if rsvField w = 0 then decodeOperand (opField w) (argField w) else .error .reservedNonZero

/-- The decoder without the reason. -/
def decode (w : Word) : Option Instr :=
  match decodeWord w with
  | .ok i => some i
  | .error _ => none

/-- A word from its three fields (R80), `rsv` 0. -/
def cmd32 (op : Byte) (arg : Addr) : Word := op ++ 0#8 ++ arg

/-- The encoder, from the `op` and operand columns of R82. -/
def encode : Instr → Word
  | .nop => cmd32 0x00 0
  | .clr => cmd32 0x01 0
  | .freq sym => cmd32 0x10 (0#8 ++ sym)
  | .build => cmd32 0x11 0
  | .assign => cmd32 0x12 0
  | .sermap => cmd32 0x13 0
  | .pack sym => cmd32 0x14 (0#8 ++ sym)
  | .ldmap ch => cmd32 0x20 (0#8 ++ ch)
  | .endmap => cmd32 0x21 0
  | .bit ch => cmd32 0x22 (0#8 ++ ch)
  | .enddata => cmd32 0x23 0
  | .rdreg addr => cmd32 0x30 addr

/-- A row of the opcode map: a word `w` selects the row when `(w & mask) = pattern` (R82). -/
structure OpcodeRow where
  mnemonic : String
  pattern : Word
  mask : Word
deriving DecidableEq, Repr

/-- R82's selection rule. -/
def OpcodeRow.selects (r : OpcodeRow) (w : Word) : Bool := (w &&& r.mask) == r.pattern

/-- The opcode map of R82, row by row, with the `match` and `mask` columns as printed. -/
def opcodeMap : List OpcodeRow :=
  [⟨"NOP", 0x00000000, 0xFFFFFFFF⟩, ⟨"CLR", 0x01000000, 0xFFFFFFFF⟩,
   ⟨"FREQ", 0x10000000, 0xFFFFFF00⟩, ⟨"BUILD", 0x11000000, 0xFFFFFFFF⟩,
   ⟨"ASSIGN", 0x12000000, 0xFFFFFFFF⟩, ⟨"SERMAP", 0x13000000, 0xFFFFFFFF⟩,
   ⟨"PACK", 0x14000000, 0xFFFFFF00⟩, ⟨"LDMAP", 0x20000000, 0xFFFFFF00⟩,
   ⟨"ENDMAP", 0x21000000, 0xFFFFFFFF⟩, ⟨"BIT", 0x22000000, 0xFFFFFF00⟩,
   ⟨"ENDDATA", 0x23000000, 0xFFFFFFFF⟩, ⟨"RDREG", 0x30000000, 0xFFFF0000⟩]

/-- The mnemonic of a command (R82). -/
def Instr.mnemonic : Instr → String
  | .nop => "NOP"
  | .clr => "CLR"
  | .freq _ => "FREQ"
  | .build => "BUILD"
  | .assign => "ASSIGN"
  | .sermap => "SERMAP"
  | .pack _ => "PACK"
  | .ldmap _ => "LDMAP"
  | .endmap => "ENDMAP"
  | .bit _ => "BIT"
  | .enddata => "ENDDATA"
  | .rdreg _ => "RDREG"

/-- The instruction the decoder reads from a table word of `nbits` bits. A command is one 32-bit word moved whole (R66, R80), so
there is no byte order to apply (log entry 10) and the bits above `nbits` are 0. -/
def decodeTableWord (nbits w : Nat) : Option Instr :=
  if nbits ≤ 32 then decode (BitVec.ofNat 32 (w % 2 ^ nbits)) else none

end Sys2Proof
end

