-- ==== Sys2Proof/Config.lean ====
section
/-! DEFINITION. The implementation parameters of spec/00_scope.md R6 at their HUFFCORE values. The spec leaves no value free
(93_implementation_defined.md part 1: "The model needs no oracle and no `any value`"), so there is no opaque constant here.
Fixed and not parameters of the model: DESIGN CHOICE, log entry 11. -/

namespace Sys2Proof.Config

/-- `NSYM`, the size of the alphabet, `2^SYM_W` (R6). -/
def nsym : Nat := 256

/-- `TOTAL_MAX`, the largest input length, `2^CNT_W - 1` (R6). -/
def totalMax : Word := 0xFFFFFFFF

/-- `NODE_MAX`, the node slots of the arena, `2*NSYM - 1` (R6). -/
def nodeMax : Nat := 511

/-- `CODE_LEN_MAX`, the longest code the LUT and the decode buffer hold, `NSYM - 1` (R6). -/
def codeLenMax : Nat := 255

end Sys2Proof.Config
end

