-- ==== Sys2Proof/Machine/State.lean ====
section
/-! DEFINITION. The architectural state of HUFFCORE as plain data, the record of 10_state.md R40, its reset values (R39), and the
reasons a step may stop. -/

namespace Sys2Proof.Machine

/-- `PHASE` (10_state.md R22). The reserved values 7 to 15 are never held and the type does not have them
(93_implementation_defined.md part 2). -/
inductive Phase where
  | idle | count | built | mapload | ready | done | failed
deriving DecidableEq, Repr

/-- `DSTATE` (10_state.md R23): a function of `PHASE` between commands; `emit` is never held there (R190). -/
inductive DState where
  | accumulating | emit | done | failed
deriving DecidableEq, Repr

/-- `PSTATE`, the state of the map parser (10_state.md R24). -/
inductive PState where
  | start | sym | esc | colon | code0 | code
deriving DecidableEq, Repr

/-- The error kinds of 60_exceptions.md R210; no error is `none` of `Option ErrCode`. -/
inductive ErrCode where
  /-- `E_MAPFMT`, HUF's MapFormatError (LDMAP, ENDMAP) -/
  | mapfmt
  /-- `E_CODETBL`, HUF's InvalidCodeTable (ENDMAP) -/
  | codetbl
  /-- `E_BITSEQ`, HUF's InvalidBitSequence (BIT, ENDDATA) -/
  | bitseq
  /-- `E_ILLCMD` (any word that matches no row of the opcode map) -/
  | illcmd
  /-- `E_SEQ` (any command but NOP, CLR, RDREG) -/
  | seq
  /-- `E_CAPACITY` (FREQ, LDMAP) -/
  | capacity
  /-- `E_NOSYM` (PACK) -/
  | nosym
deriving DecidableEq, Repr

/-- A valid slot of the arena (10_state.md R27): "leaf (symbol, weight)" or "internal (weight, left child, right child)". The
fields R27 fixes at 0 (the symbol of an internal node, the children of a leaf) are not stored. -/
inductive Node where
  | leaf (sym : Byte) (weight : Word)
  | internal (weight : Word) (left right : NodeIdx)
deriving DecidableEq, Repr

/-- A valid entry of the LUT (10_state.md R29; 43_code_lut.md R150). -/
structure Entry where
  sym : Byte
  code : Code
deriving DecidableEq, Repr

/-- What the host does to the core from outside: it presents a command word on the command port, or pulses `rst`
(30_encoding.md R98; 70_reset_and_hazards.md R240). -/
inductive HostEvent where
  | cmd (w : Word)
  | rst
deriving DecidableEq, Repr

/-- The whole state, the record of 10_state.md R40, and `input`, the model's own field (DESIGN CHOICE, log entry 1).
The arena and the LUT as lists: log entry 8. The unbounded output lists: log entry 6. -/
structure State where
  /-- `PHASE` (R22) -/
  phase : Phase
  /-- `PSTATE` (R24) -/
  pstate : PState
  /-- `ERR` (R25) -/
  err : Option ErrCode
  /-- `ERRINFO` (R25) -/
  errinfo : Word
  /-- `COLLIDE` (R25) -/
  collide : Word
  /-- `TOTAL` (R26) -/
  total : Word
  /-- the arena: the valid slots `NODE[0 .. NNODES-1]` (R27, R40) -/
  nodes : List Node
  /-- `ROOT` (R27): `none` is valid 0, index 0 -/
  root : Option NodeIdx
  /-- the LUT: the valid entries `LUT[0 .. NENT-1]` (R29, R40) -/
  lut : List Entry
  /-- `CURSYM` (R30) -/
  cursym : Byte
  /-- `CURCODE` (R30) -/
  curcode : Code
  /-- `MAPPOS` (R30) -/
  mappos : Word
  /-- `BUF` (R33) -/
  buf : Code
  /-- `MAPOUT` (R34), oldest character first -/
  mapOut : List Byte
  /-- `DATAOUT` (R34), oldest character first -/
  dataOut : List Byte
  /-- `TEXTOUT` (R34), oldest symbol first -/
  textOut : List Byte
  /-- `RSP` (R34), oldest word first -/
  rsp : List Word
  /-- what the host has presented and the core has not yet accepted, next first (log entry 1) -/
  input : List HostEvent
deriving DecidableEq, Repr

/-- The machine right after reset: every value is 10_state.md R39's; `input` is empty (log entry 1). -/
def State.reset : State where
  phase := .idle
  pstate := .start
  err := none
  errinfo := 0
  collide := 0
  total := 0
  nodes := []
  root := none
  lut := []
  cursym := 0
  curcode := []
  mappos := 0
  buf := []
  mapOut := []
  dataOut := []
  textOut := []
  rsp := []
  input := []

/-- Reasons the machine stops with a fault: none. HUFFCORE's errors are states (60_exceptions.md R216) and "every command word in
every reachable state has exactly one outcome" (93_implementation_defined.md part 1), so the type has no constructor and nobody
raises one (DEDUCED, log entry 2; safe: nothing is claimed of a stop). -/
inductive Fault
deriving DecidableEq, Repr

/-- Reasons an instruction has no meaning. -/
inductive Refusal where
  /-- Raised by an arm of `exec` that has no meaning yet; safe (nothing can be proved of such an instruction). No arm raises it. -/
  | notModelled (mnemonic : String)
deriving DecidableEq, Repr

end Sys2Proof.Machine
end

