-- ==== Sys2Proof/Machine/Operands.lean ====
section
/-! DEFINITION. Characters, bits and codes: the operand values of the commands and their spelling on the streams
(00_scope.md R10; 30_encoding.md R90 to R92). -/

namespace Sys2Proof.Machine

/-- `'0'` (R10; the five ASCII codes: PRESUMED by the spec, log entry 12). -/
def chZero : Byte := 0x30

/-- `'1'` (R10). -/
def chOne : Byte := 0x31

/-- `','`, the delimiter of `map` (R10, R91). -/
def chComma : Byte := 0x2C

/-- `':'`, the separator of `map` (R10, R91). -/
def chColon : Byte := 0x3A

/-- `'\'`, the escape character of `map` (R10, R91). -/
def chBackslash : Byte := 0x5C

/-- `bit(ch)`: 0 for `'0'`, 1 for `'1'`, nothing for any other character (45_bit_stream_decoder.md R183, R189). -/
def bitOf (ch : Byte) : Option Bool :=
  if ch = chZero then some false else if ch = chOne then some true else none

/-- `chr(b)` (R10). -/
def chr (b : Bool) : Byte := if b then chOne else chZero

/-- `str(c)` (R10). -/
def str (c : Code) : List Byte := c.map chr

/-- The characters that need an escape: `','`, `':'`, `'\'` (30_encoding.md R91, R92). -/
def isSpecial (s : Byte) : Bool := s == chComma || s == chColon || s == chBackslash

/-- `esc(s)` (30_encoding.md R92). -/
def esc (s : Byte) : List Byte := if isSpecial s then [chBackslash, s] else [s]

/-- `a` is a prefix of `b` (R10); a code is a prefix of itself. -/
def isPrefix (a b : Code) : Bool := a.isPrefixOf b

/-- Two codes collide: one is a prefix of the other, equality included (43_code_lut.md R154). -/
def clash (a b : Code) : Bool := isPrefix a b || isPrefix b a

/-- The number whose bit `n` is bit `n` of the list, least significant first (20_memory.md R64). -/
def bitsToNat : List Bool → Nat
  | [] => 0
  | b :: bs => b.toNat + 2 * bitsToNat bs

end Sys2Proof.Machine
end

