-- ==== Sys2Proof/Machine/Flags.lean ====
section
/-! DEFINITION. The status bits. HUFFCORE has no condition codes and no arithmetic flags (10_state.md R36): what a command leaves
behind as status is `PHASE`, and DSTATE, the pins and STATUS are functions of it (R22, R23, R32, R36, R40). -/

namespace Sys2Proof.Machine

/-- The value of `PHASE` (10_state.md R22). -/
def Phase.bits : Phase → BitVec 4
  | .idle => 0
  | .count => 1
  | .built => 2
  | .mapload => 3
  | .ready => 4
  | .done => 5
  | .failed => 6

/-- `DSTATE` as a function of `PHASE` (10_state.md R23); EMIT is not held between commands (45_bit_stream_decoder.md R190;
log entry 9). -/
def Phase.dstate : Phase → DState
  | .done => .done
  | .failed => .failed
  | .idle | .count | .built | .mapload | .ready => .accumulating

/-- The value of `DSTATE` (10_state.md R23). -/
def DState.bits : DState → BitVec 2
  | .accumulating => 0
  | .emit => 1
  | .done => 2
  | .failed => 3

/-- The value of `PSTATE` (10_state.md R24). -/
def PState.bits : PState → BitVec 3
  | .start => 0
  | .sym => 1
  | .esc => 2
  | .colon => 3
  | .code0 => 4
  | .code => 5

/-- The error codes of 60_exceptions.md R210. -/
def ErrCode.bits : ErrCode → BitVec 4
  | .mapfmt => 1
  | .codetbl => 2
  | .bitseq => 3
  | .illcmd => 8
  | .seq => 9
  | .capacity => 10
  | .nosym => 11

/-- The value of `ERR`: 0 when no error was raised (10_state.md R25). -/
def errCode : Option ErrCode → BitVec 4
  | none => 0
  | some e => e.bits

/-- The pin and status bit `done` (10_state.md R36; DEDUCED, log entry 5). -/
def State.donePin (s : State) : Bool := s.phase == .done

/-- The pin and status bit `fail` (10_state.md R36). -/
def State.failPin (s : State) : Bool := s.phase == .failed

/-- `DSTATE` of a state (10_state.md R23). -/
def State.dstate (s : State) : DState := s.phase.dstate

/-- One bit as a field. -/
def bit1 (b : Bool) : BitVec 1 := BitVec.ofBool b

/-- `STATUS` (10_state.md R32): bits 31:18 zero, 17 fail, 16 done, 15:11 zero, 10:8 PSTATE, 7:6 zero, 5:4 DSTATE, 3:0 PHASE. -/
def State.statusWord (s : State) : Word :=
  0#14 ++ bit1 s.failPin ++ bit1 s.donePin ++ 0#5 ++ s.pstate.bits ++ 0#2 ++ s.dstate.bits ++ s.phase.bits

end Sys2Proof.Machine
end

