-- ==== Sys2Proof/Machine/Ops.lean ====
section
/-! DEFINITION. The shared operations: the views of the arena and the LUT, the LUT primitives (43_code_lut.md R151 to R154), the
phase table (40_control.md R103), how a command executes (R104), the error entry `raise` (60_exceptions.md R216) and the way back
(CLR and reset, R218). -/

namespace Sys2Proof.Machine

/-! ### The arena (10_state.md R27, R28) -/

/-- `leaf` of a slot (R27). -/
def Node.isLeaf : Node → Bool
  | .leaf _ _ => true
  | .internal _ _ _ => false

/-- `sym` of a slot: 0 in an internal node (R27). -/
def Node.sym : Node → Byte
  | .leaf s _ => s
  | .internal _ _ _ => 0

/-- `weight` of a slot (R27). -/
def Node.weight : Node → Word
  | .leaf _ w => w
  | .internal w _ _ => w

/-- `NDIST`, the number of leaves (R27, R40). -/
def State.ndist (s : State) : Nat := s.nodes.countP Node.isLeaf

/-- `NNODES`, the number of valid slots (R27, R40). -/
def State.nnodes (s : State) : Nat := s.nodes.length

/-- `NENT`, the number of valid LUT entries (10_state.md R29, R40). -/
def State.nent (s : State) : Nat := s.lut.length

/-- `NODE[k].weight`; 0 in an invalid slot (R27). -/
def weightAt (nodes : List Node) (k : Nat) : Word :=
  match nodes[k]? with
  | some n => n.weight
  | none => 0

/-- `NODE[k].sym`; 0 in an internal node and in an invalid slot (R27). -/
def symAt (nodes : List Node) (k : Nat) : Byte :=
  match nodes[k]? with
  | some n => n.sym
  | none => 0

/-- `FREQ[s]`: the weight of the leaf of symbol `s`, 0 when there is none (10_state.md R28). -/
def freqOf (sym : Byte) : List Node → Word
  | [] => 0
  | .leaf t w :: ns => if t = sym then w else freqOf sym ns
  | .internal _ _ _ :: ns => freqOf sym ns

/-! ### The LUT primitives (43_code_lut.md) -/

/-- `lut_write(i, s, c)` (R151) on the table as a list: an index past the end appends. -/
def lutWrite (lut : List Entry) (i : Nat) (e : Entry) : List Entry :=
  if i < lut.length then lut.set i e else lut ++ [e]

/-- `lookup_sym(s)` (R152): the entry `LUT[i]` with that symbol, of the least such index (DESIGN CHOICE, log entry 13). -/
def lookupSym (lut : List Entry) (sym : Byte) : Option Entry := lut.find? (fun e => e.sym == sym)

/-- `lookup_code(c)` (R153): the entry `LUT[i]` with that code, of the least such index (log entry 13). -/
def lookupCode (lut : List Entry) (c : Code) : Option Entry := lut.find? (fun e => e.code == c)

/-- The loops of `prefix_check()` (R154) from index `i` on: the first colliding pair in loop order. -/
def prefixCheckFrom (i : Nat) : List Entry → Option (Nat × Nat)
  | [] => none
  | e :: es =>
    match es.findIdx? (fun f => clash e.code f.code) with
    | some d => some (i, i + 1 + d)
    | none => prefixCheckFrom (i + 1) es

/-- `prefix_check()` (R154): `none` is `ok`, `some (i, j)` is `collide(i, j)`. -/
def prefixCheck (lut : List Entry) : Option (Nat × Nat) := prefixCheckFrom 0 lut

/-! ### Phases (40_control.md R103) -/

/-- The phase table: the command is legal in the phase (R103). -/
def legalIn : Instr → Phase → Bool
  | .nop, _ => true
  | .clr, _ => true
  | .rdreg _, _ => true
  | .freq _, p => p == .idle || p == .count
  | .build, p => p == .idle || p == .count
  | .assign, p => p == .built
  | .sermap, p => p == .ready
  | .pack _, p => p == .ready
  | .ldmap _, p => p == .idle || p == .mapload
  | .endmap, p => p == .idle || p == .mapload
  | .bit _, p => p == .ready
  | .enddata, p => p == .ready

/-! ### Error entry and the ways back (60_exceptions.md) -/

/-- `raise E(cmd)` (60_exceptions.md R216): the first error is kept, the phase becomes FAILED, nothing else changes. -/
def raise (e : ErrCode) (cmd : Word) (s : State) : State :=
  match s.err with
  | none => { s with err := some e, errinfo := cmd, phase := .failed }
  | some _ => { s with phase := .failed }

/-- CLR's effect, the return from FAILED (40_control.md R101; 60_exceptions.md R218): every piece of state takes its reset value
but the output lists, which are left as they are (and what the host has yet to present, which is not the core's). -/
def clearState (s : State) : State :=
  { State.reset with
    mapOut := s.mapOut, dataOut := s.dataOut, textOut := s.textOut, rsp := s.rsp, input := s.input }

/-- A reset between commands (70_reset_and_hazards.md R240): every piece of state takes its reset value; what the host has yet to
present is not the core's. -/
def resetState (s : State) : State := { State.reset with input := s.input }

/-- Steps 2 and 3 of 40_control.md R104 for a decoded command: the phase check, then the command's own rule. `cmd`, the word being
executed, is `encode i`: the word that decodes to `i` (DEDUCED, log entry 4). -/
def command (i : Instr) (own : State → State) (s : State) : Host.Outcome State Fault Refusal :=
  .next (if legalIn i s.phase then own s else raise .seq (encode i) s)

/-- Step 1 of 40_control.md R104 for a word that decodes to nothing: `E_ILLCMD` in every phase (30_encoding.md R83). -/
def illegalWord (w : Word) (s : State) : Host.Outcome State Fault Refusal := .next (raise .illcmd w s)

end Sys2Proof.Machine
end

