-- ==== Sys2Proof/Machine/BitPacker.lean ====
section
/-! DEFINITION. Unit BPE: PACK (44_bit_packer.md R170, R171). -/

namespace Sys2Proof.Machine

/-- PACK's own rule (R170). There is no padding and no flush (R171). -/
def packOwn (sym : Byte) (s : State) : State :=
  match lookupSym s.lut sym with
  | none => raise .nosym (encode (.pack sym)) s
  | some e => { s with dataOut := s.dataOut ++ str e.code }

/-- PACK `sym` (R170). -/
def execPack (sym : Byte) (s : State) : Host.Outcome State Fault Refusal := command (.pack sym) (packOwn sym) s

end Sys2Proof.Machine
end

