-- ==== Sys2Proof/Machine/BitStreamDecoder.lean ====
section
/-! DEFINITION. Unit BSD: LDMAP, ENDMAP, BIT, ENDDATA (45_bit_stream_decoder.md R182 to R193). -/

namespace Sys2Proof.Machine

/-- `commit()` (R184). -/
def commit (s : State) : State :=
  { s with lut := lutWrite s.lut s.nent ⟨s.cursym, s.curcode⟩, cursym := 0, curcode := [] }

/-- `take_symbol(s)` (R183, R185), with the next parser state. -/
def takeSymbol (sym : Byte) (s : State) : Except ErrCode State :=
  match lookupSym s.lut sym with
  | some _ => .error .mapfmt
  | none => .ok { s with cursym := sym, curcode := [], pstate := .colon }

/-- The rows `PS_START`, `PS_SYM` of the parser table (R183). -/
def parseSym (ch : Byte) (s : State) : Except ErrCode State :=
  if ch = chBackslash then .ok { s with pstate := .esc }
  else if isSpecial ch then .error .mapfmt
  else takeSymbol ch s

/-- The row `PS_ESC` (R183). -/
def parseEsc (ch : Byte) (s : State) : Except ErrCode State :=
  if isSpecial ch then takeSymbol ch s else .error .mapfmt

/-- The row `PS_COLON` (R183). -/
def parseColon (ch : Byte) (s : State) : Except ErrCode State :=
  if ch = chColon then .ok { s with pstate := .code0 } else .error .mapfmt

/-- The row `PS_CODE0` (R183). -/
def parseCode0 (ch : Byte) (s : State) : Except ErrCode State :=
  match bitOf ch with
  | some b => .ok { s with curcode := [b], pstate := .code }
  | none => .error .mapfmt

/-- The row `PS_CODE` (R183, R187). -/
def parseCode (ch : Byte) (s : State) : Except ErrCode State :=
  match bitOf ch with
  | some b =>
    if s.curcode.length = Config.codeLenMax then .error .capacity
    else .ok { s with curcode := s.curcode ++ [b] }
  | none => if ch = chComma then .ok { commit s with pstate := .sym } else .error .mapfmt

/-- The parser step (R183): the state after the character, or the error it raises. -/
def parseStep (ch : Byte) (s : State) : Except ErrCode State :=
  match s.pstate with
  | .start => parseSym ch s
  | .sym => parseSym ch s
  | .esc => parseEsc ch s
  | .colon => parseColon ch s
  | .code0 => parseCode0 ch s
  | .code => parseCode ch s

/-- LDMAP's own rule (R182). -/
def ldmapOwn (ch : Byte) (s : State) : State :=
  match parseStep ch s with
  | .error e => raise e (encode (.ldmap ch)) s
  | .ok t => { t with mappos := s.mappos + 1, phase := .mapload }

/-- LDMAP `ch` (R182). -/
def execLdmap (ch : Byte) (s : State) : Host.Outcome State Fault Refusal := command (.ldmap ch) (ldmapOwn ch) s

/-- `COLLIDE` for the pair `(i, j)` (10_state.md R25): bits 24:16 `j`, bits 8:0 `i`. -/
def collideWord (i j : Nat) : Word := 0#7 ++ BitVec.ofNat 9 j ++ 0#7 ++ BitVec.ofNat 9 i

/-- The second half of ENDMAP (R186): `PSTATE <- PS_START`, then the table check. -/
def finishMap (s : State) : State :=
  match prefixCheck s.lut with
  | some (i, j) => raise .codetbl (encode .endmap) { s with pstate := .start, collide := collideWord i j }
  | none => { s with pstate := .start, buf := [], phase := .ready }

/-- ENDMAP's own rule (R186). -/
def endmapOwn (s : State) : State :=
  match s.pstate with
  | .start => finishMap s
  | .code => finishMap (commit s)
  | .sym | .esc | .colon | .code0 => raise .mapfmt (encode .endmap) s

/-- ENDMAP (R186). -/
def execEndmap (s : State) : Host.Outcome State Fault Refusal := command .endmap endmapOwn s

/-- BIT's own rule (R189, R191, R192). DSTATE passes through EMIT inside the command, which nothing can observe (R190). -/
def bitOwn (ch : Byte) (s : State) : State :=
  match bitOf ch with
  | none => raise .bitseq (encode (.bit ch)) s
  | some b =>
    if s.buf.length = Config.codeLenMax then raise .bitseq (encode (.bit ch)) s
    else
      match lookupCode s.lut (s.buf ++ [b]) with
      | some e => { s with textOut := s.textOut ++ [e.sym], buf := [] }
      | none => { s with buf := s.buf ++ [b] }

/-- BIT `ch` (R189). -/
def execBit (ch : Byte) (s : State) : Host.Outcome State Fault Refusal := command (.bit ch) (bitOwn ch) s

/-- ENDDATA's own rule (R193). -/
def enddataOwn (s : State) : State :=
  if s.buf = [] then { s with phase := .done } else raise .bitseq (encode .enddata) s

/-- ENDDATA (R193). -/
def execEnddata (s : State) : Host.Outcome State Fault Refusal := command .enddata enddataOwn s

end Sys2Proof.Machine
end

