-- ==== Sys2Proof/Machine/CodeTable.lean ====
section
/-! DEFINITION. Unit CTG: ASSIGN and SERMAP (42_code_table_generator.md R130 to R135). -/

namespace Sys2Proof.Machine

/-- `walk(k, p)` (R130): the calls of `lut_write` it makes, in order. In an arena that BUILD made, children have lower indices than
their parent (10_state.md R38 item 6), so the first argument, a bound on the depth, is enough at `k + 1`. Past it and at an invalid
slot the model writes nothing (DESIGN CHOICE, log entry 3). -/
def walk : Nat → List Node → Nat → Code → List (Nat × Entry)
  | 0, _, _, _ => []
  | d + 1, nodes, k, p =>
    match nodes[k]? with
    | none => []
    | some (.leaf s _) => [(k, ⟨s, p⟩)]
    | some (.internal _ l r) =>
      walk d nodes l.toNat (p ++ [false]) ++ walk d nodes r.toNat (p ++ [true])

/-- The table after a list of `lut_write` calls (43_code_lut.md R151). -/
def lutWrites (lut : List Entry) (ws : List (Nat × Entry)) : List Entry :=
  ws.foldl (fun t w => lutWrite t w.1 w.2) lut

/-- The table ASSIGN makes for a tree with root slot `k` (R130, R131, R132): `n` entries, empty before the writes. -/
def assignTable (nodes : List Node) (n k : Nat) : List Entry :=
  match nodes[k]? with
  | some (.leaf _ _) => [⟨symAt nodes 0, [false]⟩]
  | _ => lutWrites (List.replicate n ⟨0, []⟩) (walk nodes.length nodes k [])

/-- ASSIGN's own rule (R130, R133). -/
def assignOwn (s : State) : State :=
  match s.root with
  | none => { s with phase := .ready }
  | some k => { s with lut := assignTable s.nodes s.ndist k.toNat, phase := .ready }

/-- ASSIGN (R130). -/
def execAssign (s : State) : Host.Outcome State Fault Refusal := command .assign assignOwn s

/-- One entry of the `map` string: `esc(sym) ++ ":" ++ str(code)` (R135). -/
def serEntry (e : Entry) : List Byte := esc e.sym ++ chColon :: str e.code

/-- The `map` string of a table (R135): the entries joined by `','`. -/
def serialize : List Entry → List Byte
  | [] => []
  | [e] => serEntry e
  | e :: f :: es => serEntry e ++ chComma :: serialize (f :: es)

/-- SERMAP (R135). -/
def execSermap (s : State) : Host.Outcome State Fault Refusal :=
  command .sermap (fun s => { s with mapOut := s.mapOut ++ serialize s.lut }) s

end Sys2Proof.Machine
end

