-- ==== Sys2Proof/Machine/ReadSpace.lean ====
section
/-! DEFINITION. The read space reached by RDREG (20_memory.md R61 to R65) and the CSRs (10_state.md R31, R32). -/

namespace Sys2Proof.Machine

/-- `ID` (10_state.md R31): hardwired, ASCII "HUF1". -/
def csrId : Word := 0x48554631

/-- `PADBITS` (10_state.md R35): hardwired 0. -/
def csrPadbits : Word := 0

/-- `ROOT` (10_state.md R31): bit 31 valid, bits 8:0 index. -/
def rootWord : Option NodeIdx → Word
  | none => 0
  | some k => 1#1 ++ 0#22 ++ k

/-- `CURENT[31]`: `PSTATE` in {PS_COLON, PS_CODE0, PS_CODE} (10_state.md R31). -/
def PState.inEntry : PState → Bool
  | .colon | .code0 | .code => true
  | .start | .sym | .esc => false

/-- `CURENT` (10_state.md R31): bit 31 in an entry, bits 15:8 `len(CURCODE)`, bits 7:0 `CURSYM`. -/
def State.curent (s : State) : Word :=
  bit1 s.pstate.inEntry ++ 0#15 ++ BitVec.ofNat 8 s.curcode.length ++ s.cursym

/-- The CSR at a word address below 0x0010 (10_state.md R31). -/
def readCsr (s : State) (a : Nat) : Word :=
  match a with
  | 0x0 => csrId
  | 0x1 => s.statusWord
  | 0x2 => 0#28 ++ errCode s.err
  | 0x3 => s.errinfo
  | 0x4 => s.total
  | 0x5 => 0#23 ++ BitVec.ofNat 9 s.ndist
  | 0x6 => 0#22 ++ BitVec.ofNat 10 s.nnodes
  | 0x7 => rootWord s.root
  | 0x8 => 0#23 ++ BitVec.ofNat 9 s.nent
  | 0x9 => 0#24 ++ BitVec.ofNat 8 s.buf.length
  | 0xA => csrPadbits
  | 0xB => s.mappos
  | 0xC => s.collide
  | 0xD => s.curent
  | _ => 0

/-- The info word of a slot (20_memory.md R63). -/
def nodeInfo : Node → Word
  | .leaf sym _ => 1#1 ++ 1#1 ++ 0#12 ++ 0#9 ++ 0#1 ++ sym
  | .internal _ left right => 1#1 ++ 0#1 ++ 0#12 ++ right ++ left

/-- The NODE window at word offset `off` (20_memory.md R63): two words a slot, 0 for an invalid slot. -/
def readNode (nodes : List Node) (off : Nat) : Word :=
  match nodes[off / 2]? with
  | none => 0
  | some n => if off % 2 = 0 then n.weight else nodeInfo n

/-- 32 bits of a code from bit `32q` on, code bit `n` at bit `n mod 32` (20_memory.md R64). -/
def codeWord (c : Code) (q : Nat) : Word := BitVec.ofNat 32 (bitsToNat ((c.drop (32 * q)).take 32))

/-- Word `k` of a LUT entry's sixteen (20_memory.md R64). -/
def entryWord (e : Entry) (k : Nat) : Word :=
  if k = 0 then 1#1 ++ 0#15 ++ BitVec.ofNat 8 e.code.length ++ e.sym
  else if k ≤ 8 then codeWord e.code (k - 1)
  else 0

/-- The LUT window at word offset `off` (20_memory.md R64): sixteen words an entry, 0 for an invalid entry. -/
def readLut (lut : List Entry) (off : Nat) : Word :=
  match lut[off / 16]? with
  | none => 0
  | some e => entryWord e (off % 16)

/-- `MemRead(addr, 1)` (20_memory.md R61, R65). Slot 511 does not exist (`NODE_MAX` is 511 slots), so 0x07FE and 0x07FF read 0. -/
def memRead (s : State) (addr : Addr) : Word :=
  let a := addr.toNat
  if a < 0x0010 then readCsr s a
  else if 0x0100 ≤ a ∧ a < 0x0200 then freqOf (BitVec.ofNat 8 (a - 0x0100)) s.nodes
  else if 0x0400 ≤ a ∧ a < 0x07FE then readNode s.nodes (a - 0x0400)
  else if 0x1000 ≤ a ∧ a < 0x2000 then readLut s.lut (a - 0x1000)
  else 0

end Sys2Proof.Machine
end

