-- ==== Sys2Proof/Machine/Control.lean ====
section
/-! DEFINITION. The control commands NOP, CLR, RDREG (40_control.md R100 to R102). -/

namespace Sys2Proof.Machine

/-- NOP (R100): nothing. -/
def execNop (s : State) : Host.Outcome State Fault Refusal := command .nop (fun s => s) s

/-- CLR (R101). -/
def execClr (s : State) : Host.Outcome State Fault Refusal := command .clr clearState s

/-- RDREG `addr` (R102): `RSP <- RSP ++ [ MemRead(addr, 1) ]`. -/
def execRdreg (addr : Addr) (s : State) : Host.Outcome State Fault Refusal :=
  command (.rdreg addr) (fun s => { s with rsp := s.rsp ++ [memRead s addr] }) s

end Sys2Proof.Machine
end

