-- ==== Sys2Proof/Machine/TreeBuilder.lean ====
section
/-! DEFINITION. Unit HTB: FREQ and BUILD (41_tree_builder.md R110 to R115). -/

namespace Sys2Proof.Machine

/-- The arena after counting one occurrence of `sym` (R110): the leaf of `sym` gains one, or a leaf of weight 1 is appended. In the
phases where FREQ is legal every slot is a leaf, so the next free slot is `NODE[NDIST]`. -/
def countSym (sym : Byte) : List Node → List Node
  | [] => [.leaf sym 1]
  | .leaf t w :: ns => if t = sym then .leaf t (w + 1) :: ns else .leaf t w :: countSym sym ns
  | .internal w l r :: ns => .internal w l r :: countSym sym ns

/-- FREQ's own rule (R110). -/
def freqOwn (sym : Byte) (s : State) : State :=
  if s.total = Config.totalMax then raise .capacity (encode (.freq sym)) s
  else { s with nodes := countSym sym s.nodes, total := s.total + 1, phase := .count }

/-- FREQ `sym` (R110). -/
def execFreq (sym : Byte) (s : State) : Host.Outcome State Fault Refusal := command (.freq sym) (freqOwn sym) s

/-- The order of removal (R113; 00_scope.md R11): the pair `(weight, index)`, lexicographic. -/
def keyLt (nodes : List Node) (a b : Nat) : Bool :=
  decide ((weightAt nodes a).toNat < (weightAt nodes b).toNat) ||
    (decide (weightAt nodes a = weightAt nodes b) && decide (a < b))

/-- `min_key(Q)` (00_scope.md R11). -/
def minKey (nodes : List Node) : List Nat → Option Nat
  | [] => none
  | k :: q =>
    match minKey nodes q with
    | none => some k
    | some m => if keyLt nodes k m then some k else some m

/-- One turn of BUILD's loop (R112, R114) on the live set `Q` and the arena; `none` when `|Q| <= 1`. -/
def mergeOnce (q : List Nat) (nodes : List Node) : Option (List Nat × List Node) :=
  match minKey nodes q with
  | none => none
  | some a =>
    match minKey nodes (q.erase a) with
    | none => none
    | some b =>
      some ((q.erase a).erase b ++ [nodes.length],
        nodes ++ [.internal (weightAt nodes a + weightAt nodes b) (BitVec.ofNat 9 a) (BitVec.ofNat 9 b)])

/-- BUILD's loop (R112). Each turn takes one element out of `Q`, so as many turns as `Q` has elements are enough. -/
def buildLoop : Nat → List Nat → List Node → List Nat × List Node
  | 0, q, nodes => (q, nodes)
  | n + 1, q, nodes =>
    match mergeOnce q nodes with
    | none => (q, nodes)
    | some (q', nodes') => buildLoop n q' nodes'

/-- `ROOT` after the loop (R112): the one element left in `Q`, or invalid when there is none. -/
def rootOf : List Nat → Option NodeIdx
  | [k] => some (BitVec.ofNat 9 k)
  | _ => none

/-- BUILD's own rule (R112). -/
def buildOwn (s : State) : State :=
  let r := buildLoop s.ndist (List.range s.ndist) s.nodes
  { s with nodes := r.2, root := rootOf r.1, phase := .built }

/-- BUILD (R112). -/
def execBuild (s : State) : Host.Outcome State Fault Refusal := command .build buildOwn s

end Sys2Proof.Machine
end

