-- ==== Sys2Proof/Machine/Dispatch.lean ====
section
/-! DEFINITION. The meaning of each command, one arm per constructor of Instr. -/

namespace Sys2Proof.Machine

def exec (i : Instr) (s : State) : Host.Outcome State Fault Refusal :=
  match i with
  -- control (40_control.md)
  | .nop => Sys2Proof.Machine.execNop s
  | .clr => Sys2Proof.Machine.execClr s
  -- HTB (41_tree_builder.md)
  | .freq sym => Sys2Proof.Machine.execFreq sym s
  | .build => Sys2Proof.Machine.execBuild s
  -- CTG (42_code_table_generator.md)
  | .assign => Sys2Proof.Machine.execAssign s
  | .sermap => Sys2Proof.Machine.execSermap s
  -- BPE (44_bit_packer.md)
  | .pack sym => Sys2Proof.Machine.execPack sym s
  -- BSD (45_bit_stream_decoder.md)
  | .ldmap ch => Sys2Proof.Machine.execLdmap ch s
  | .endmap => Sys2Proof.Machine.execEndmap s
  | .bit ch => Sys2Proof.Machine.execBit ch s
  | .enddata => Sys2Proof.Machine.execEnddata s
  -- control (40_control.md)
  | .rdreg addr => Sys2Proof.Machine.execRdreg addr s

end Sys2Proof.Machine
end

