-- ==== Sys2Proof/Machine/Step.lean ====
section
/-! DEFINITION. One step: the core takes the next thing the host presents (00_scope.md R8, R9; 40_control.md R104;
70_reset_and_hazards.md R240), or waits. -/

namespace Sys2Proof.Machine

/-- Executing a command word (40_control.md R104): decode, then the command (whose meaning checks the phase first). -/
def execWord (w : Word) (s : State) : Host.Outcome State Fault Refusal :=
  match decode w with
  | some i => exec i s
  | none => illegalWord w s

/-- One step (DESIGN CHOICE, log entries 1 and 7): accept the next command word and execute it, take a reset pulse, or, with nothing
presented, wait without a change (60_exceptions.md R222: "nothing but a command or reset changes its state"). -/
def step (s : State) : Host.Outcome State Fault Refusal :=
  match s.input with
  | [] => .next s
  | .cmd w :: rest => execWord w { s with input := rest }
  | .rst :: rest => .next (resetState { s with input := rest })

/-- `s` with the command word `w` presented next on the command port. -/
def State.withFetchWord (s : State) (nbits w : Nat) : State :=
  { s with input := .cmd (BitVec.ofNat 32 (w % 2 ^ nbits)) :: s.input }

end Sys2Proof.Machine
end

