-- ==== Sys2Proof/Machine/Assembler.lean ====
section
/-! DEFINITION. The assembler syntax of 30_encoding.md R85, one command per line, on lists of characters, and the expansions of
the two pseudo-instructions ENCODE (R95) and DECODE (R96). The machine uses none of it; it is how the spec writes commands.
What R85 leaves open of a line: DESIGN CHOICE, log entry 15. -/

namespace Sys2Proof.Machine

/-- What a line of assembler text is (R85). -/
inductive AsmLine where
  /-- nothing, or a comment only -/
  | blank
  | command (i : Instr)
  /-- not of the syntax of R85 -/
  | malformed
deriving DecidableEq, Repr

/-- White space between the parts of a line. -/
def isBlankChar (c : Char) : Bool := c == ' ' || c == '\t'

/-- The mnemonics without operand (R82, R85). -/
def asmPlain : List (List Char × Instr) :=
  [(['N', 'O', 'P'], .nop), (['C', 'L', 'R'], .clr), (['B', 'U', 'I', 'L', 'D'], .build),
   (['A', 'S', 'S', 'I', 'G', 'N'], .assign), (['S', 'E', 'R', 'M', 'A', 'P'], .sermap),
   (['E', 'N', 'D', 'M', 'A', 'P'], .endmap), (['E', 'N', 'D', 'D', 'A', 'T', 'A'], .enddata)]

/-- The CSR names an `addr` operand may use (R85; 10_state.md R31). -/
def asmCsr : List (List Char × Nat) :=
  [(['I', 'D'], 0x0), (['S', 'T', 'A', 'T', 'U', 'S'], 0x1), (['E', 'R', 'R'], 0x2),
   (['E', 'R', 'R', 'I', 'N', 'F', 'O'], 0x3), (['T', 'O', 'T', 'A', 'L'], 0x4),
   (['N', 'D', 'I', 'S', 'T'], 0x5), (['N', 'N', 'O', 'D', 'E', 'S'], 0x6), (['R', 'O', 'O', 'T'], 0x7),
   (['N', 'E', 'N', 'T'], 0x8), (['B', 'U', 'F', 'L', 'E', 'N'], 0x9),
   (['P', 'A', 'D', 'B', 'I', 'T', 'S'], 0xA), (['M', 'A', 'P', 'P', 'O', 'S'], 0xB),
   (['C', 'O', 'L', 'L', 'I', 'D', 'E'], 0xC), (['C', 'U', 'R', 'E', 'N', 'T'], 0xD)]

/-- The value of a hexadecimal digit. -/
def hexDigit (c : Char) : Option Nat :=
  if '0' ≤ c ∧ c ≤ '9' then some (c.toNat - '0'.toNat)
  else if 'a' ≤ c ∧ c ≤ 'f' then some (c.toNat - 'a'.toNat + 10)
  else if 'A' ≤ c ∧ c ≤ 'F' then some (c.toNat - 'A'.toNat + 10)
  else none

/-- Digits in a base, the number read so far first. -/
def asmDigits (base acc : Nat) : List Char → Option Nat
  | [] => some acc
  | c :: cs =>
    match hexDigit c with
    | some d => if d < base then asmDigits base (acc * base + d) cs else none
    | none => none

/-- A number: decimal, or hexadecimal after `0x`, the two forms R85 shows (`97`, `0x61`). R10 also writes numbers `0b..` in the rules,
and R85 does not say whether an operand may be written so: it may not here, and makes the line malformed (DESIGN CHOICE, log entry
15). -/
def asmNumber : List Char → Option Nat
  | '0' :: 'x' :: c :: cs => asmDigits 16 0 (c :: cs)
  | c :: cs => asmDigits 10 0 (c :: cs)
  | [] => none

/-- The rest of a line after the operand: white space, then nothing or a comment (R85: `;` starts a comment). -/
def endsLine (cs : List Char) : Bool :=
  match cs.dropWhile isBlankChar with
  | [] => true
  | c :: _ => c == ';'

/-- The characters up to white space or a comment, and what follows them. -/
def asmToken (cs : List Char) : List Char × List Char := cs.span (fun c => !isBlankChar c && c != ';')

/-- A number operand below `bound`, alone on the rest of its line. -/
def asmNumberOperand (bound : Nat) (cs : List Char) : Option Nat :=
  match asmNumber (asmToken cs).1 with
  | some n => if n < bound ∧ endsLine (asmToken cs).2 then some n else none
  | none => none

/-- A `sym` or `ch` operand (R85): a number, or one printable ASCII character in single quotes, with `'\''` and `'\\'` for the
quote and the backslash. -/
def asmByte (cs : List Char) : Option Byte :=
  match cs with
  | '\'' :: '\\' :: c :: '\'' :: rest =>
    if (c == '\'' || c == '\\') && endsLine rest then some (BitVec.ofNat 8 c.toNat) else none
  | '\'' :: c :: '\'' :: rest =>
    if ' ' ≤ c ∧ c ≤ '~' ∧ c ≠ '\'' ∧ c ≠ '\\' ∧ endsLine rest then some (BitVec.ofNat 8 c.toNat) else none
  | _ => (asmNumberOperand 256 cs).map (BitVec.ofNat 8)

/-- An `addr` operand (R85): a number or the CSR's name. -/
def asmAddr (cs : List Char) : Option Addr :=
  match asmCsr.lookup (asmToken cs).1 with
  | some a => if endsLine (asmToken cs).2 then some (BitVec.ofNat 16 a) else none
  | none => (asmNumberOperand 65536 cs).map (BitVec.ofNat 16)

/-- The command of a mnemonic and the text after it. -/
def asmCommand (mnemonic operand : List Char) : Option Instr :=
  match asmPlain.lookup mnemonic with
  | some i => if endsLine operand then some i else none
  | none =>
    match mnemonic with
    | ['F', 'R', 'E', 'Q'] => (asmByte operand).map .freq
    | ['P', 'A', 'C', 'K'] => (asmByte operand).map .pack
    | ['L', 'D', 'M', 'A', 'P'] => (asmByte operand).map .ldmap
    | ['B', 'I', 'T'] => (asmByte operand).map .bit
    | ['R', 'D', 'R', 'E', 'G'] => (asmAddr operand).map .rdreg
    | _ => none

/-- One line of assembler text (R85). -/
def assembleLine (line : List Char) : AsmLine :=
  if endsLine line then .blank
  else
    let m := asmToken (line.dropWhile isBlankChar)
    match asmCommand m.1 (m.2.dropWhile isBlankChar) with
    | some i => .command i
    | none => .malformed

/-- The expansion of `ENCODE "t"` (R95). -/
def encodeCommands (text : List Byte) : List Instr :=
  .clr :: text.map .freq ++ [.build, .assign, .sermap] ++ text.map .pack

/-- The expansion of `DECODE "d", "m"` (R96). -/
def decodeCommands (data map : List Byte) : List Instr :=
  .clr :: map.map .ldmap ++ .endmap :: data.map .bit ++ [.enddata]

end Sys2Proof.Machine
end

