-- ==== Sys2Proof/Safety.lean ====
section
/-! DEFINITION. What counts as a safe run: the invariants of 10_state.md R38, item by item, the facts that make them inductive, and
when the output of an operation may be used (70_reset_and_hazards.md R244). Every item is a decidable
proposition, so that a concrete state is shown to meet it by `decide`. -/

namespace Sys2Proof.Machine

/-! ### The parts the items speak of -/

/-- The symbols of the leaves, in arena order. -/
def leafSyms : List Node → List Byte
  | [] => []
  | .leaf s _ :: ns => s :: leafSyms ns
  | .internal _ _ _ :: ns => leafSyms ns

/-- The weights of the leaves as numbers, in arena order. -/
def leafWeights : List Node → List Nat
  | [] => []
  | .leaf _ w :: ns => w.toNat :: leafWeights ns
  | .internal _ _ _ :: ns => leafWeights ns

/-- Slot `k` is a child of the node. -/
def Node.hasChild (n : Node) (k : Nat) : Bool :=
  match n with
  | .leaf _ _ => false
  | .internal _ l r => l.toNat == k || r.toNat == k

/-- R38 item 6 for the node in slot `k`: "`left < k`, `right < k`, `left != right`, `weight = NODE[left].weight +
NODE[right].weight`" (as numbers: the sum does not wrap, 41_tree_builder.md R114). -/
def childrenOk (nodes : List Node) (k : Nat) : Node → Bool
  | .leaf _ _ => true
  | .internal w l r =>
    decide (l.toNat < k) && decide (r.toNat < k) && decide (l ≠ r) &&
      decide (w.toNat = (weightAt nodes l.toNat).toNat + (weightAt nodes r.toNat).toNat)

/-- No two entries' codes collide (43_code_lut.md R154). -/
abbrev PrefixFree (lut : List Entry) : Prop := lut.Pairwise (fun e f => clash e.code f.code = false)

/-- Symbols pairwise different and every code of length 1 to 255 (43_code_lut.md R156). -/
abbrev TableOk (lut : List Entry) : Prop :=
  (lut.map Entry.sym).Nodup ∧ ∀ e ∈ lut, 1 ≤ e.code.length ∧ e.code.length ≤ Config.codeLenMax

/-! ### 10_state.md R38, item by item -/

/-- Item 1. (`NODE[k].valid = (k < NNODES)` holds by the form of State.) -/
abbrev State.countsOk (s : State) : Prop :=
  s.ndist ≤ s.nnodes ∧ s.nnodes ≤ Config.nodeMax ∧ s.ndist ≤ Config.nsym ∧
    ∀ k < s.nnodes, (s.nodes[k]?.map Node.isLeaf) = some (decide (k < s.ndist))

/-- Item 2. -/
abbrev State.leavesDistinct (s : State) : Prop := (leafSyms s.nodes).Nodup

/-- Item 3. -/
abbrev State.weightsOk (s : State) : Prop :=
  (leafWeights s.nodes).sum = s.total.toNat ∧ ∀ w ∈ leafWeights s.nodes, 1 ≤ w

/-- Item 4. -/
abbrev State.earlyPhasesOk (s : State) : Prop :=
  (s.phase = .idle ∨ s.phase = .mapload → s.ndist = 0 ∧ s.nnodes = 0 ∧ s.total = 0) ∧
  (s.phase = .count → s.nnodes = s.ndist ∧ 1 ≤ s.ndist ∧ s.root = none)

/-- Item 5. -/
abbrev State.builtOk (s : State) : Prop :=
  s.phase = .built →
    s.nnodes = (if 1 ≤ s.ndist then 2 * s.ndist - 1 else 0) ∧ s.root.isSome = decide (1 ≤ s.ndist) ∧ s.nent = 0

/-- Item 6: the children of every internal node, and, in a built tree, one parent for every node but the root. -/
abbrev State.treeOk (s : State) : Prop :=
  (∀ k < s.nnodes, (s.nodes[k]?.map (childrenOk s.nodes k)) = some true) ∧
  (s.root.isSome = true → ∀ k < s.nnodes, some (BitVec.ofNat 9 k) ≠ s.root → s.nodes.countP (fun n => n.hasChild k) = 1)

/-- Item 7. -/
abbrev State.tableOk (s : State) : Prop :=
  s.phase = .ready ∨ s.phase = .done → TableOk s.lut ∧ (1 < s.nent → PrefixFree s.lut)

/-- Item 8. (Its last sentence, on FAILED, speaks of two states; the statement about a step carries it.) -/
abbrev State.bufOk (s : State) : Prop :=
  (s.phase = .idle ∨ s.phase = .count ∨ s.phase = .built ∨ s.phase = .mapload ∨ s.phase = .done → s.buf = []) ∧
  (s.phase = .ready → s.buf.length ≤ Config.codeLenMax ∧ ∀ e ∈ s.lut, e.code ≠ s.buf)

/-- Item 9. -/
abbrev State.failedOk (s : State) : Prop :=
  (s.phase = .failed ↔ errCode s.err ≠ 0) ∧ (errCode s.err ≠ 0 ↔ s.failPin = true)

/-- Item 10. -/
abbrev State.parserOk (s : State) : Prop :=
  (s.pstate ≠ .start → s.phase = .mapload ∨ s.phase = .failed) ∧ (s.curcode ≠ [] → s.pstate = .code)

/-- The ten items of 10_state.md R38. -/
structure State.R38 (s : State) : Prop where
  counts : s.countsOk
  leaves : s.leavesDistinct
  weights : s.weightsOk
  early : s.earlyPhasesOk
  built : s.builtOk
  tree : s.treeOk
  table : s.tableOk
  buf : s.bufOk
  failed : s.failedOk
  parser : s.parserOk

/-! ### What makes R38 inductive -/

/-- The slots of the leaves under slot `k`, left to right. -/
def leavesUnder : Nat → List Node → Nat → List Nat
  | 0, _, _ => []
  | d + 1, nodes, k =>
    match nodes[k]? with
    | none => []
    | some (.leaf _ _) => [k]
    | some (.internal _ l r) => leavesUnder d nodes l.toNat ++ leavesUnder d nodes r.toNat

/-- The arena is either leaves alone, with no root, or a built tree whose root is its last slot and has every leaf under it once
(41_tree_builder.md R114 to R116). -/
abbrev State.arenaShape (s : State) : Prop :=
  (s.root = none → s.nnodes = s.ndist) ∧
  (∀ r ∈ s.root.toList, 1 ≤ s.ndist ∧ s.nnodes = 2 * s.ndist - 1 ∧ r.toNat = s.nnodes - 1 ∧
    (leavesUnder s.nnodes s.nodes r.toNat).Perm (List.range s.ndist)) ∧
  (s.phase = .idle ∨ s.phase = .mapload → s.root = none) ∧
  (s.phase = .built ∨ s.phase = .ready ∨ s.phase = .done → s.root = none → s.nnodes = 0)

/-- The table is empty before ASSIGN and LDMAP write it, and never holds a symbol twice or a code of a bad length
(43_code_lut.md R156). -/
abbrev State.lutShape (s : State) : Prop :=
  TableOk s.lut ∧ (s.phase = .idle ∨ s.phase = .count ∨ s.phase = .built → s.lut = [])

/-- The characters of the entry in progress that the parser has read (10_state.md R30; 45_bit_stream_decoder.md R183), at most. -/
def entryChars (p : PState) (sym : Byte) (codeLen : Nat) : Nat :=
  match p with
  | .start | .sym => 0
  | .esc => 1
  | .colon => (esc sym).length
  | .code0 => (esc sym).length + 1
  | .code => (esc sym).length + 1 + codeLen

/-- The characters of the committed entries, a delimiter after each (45_bit_stream_decoder.md R183, R184). -/
def committedChars (lut : List Entry) : Nat := (lut.map (fun e => (serEntry e).length + 1)).sum

/-- The registers of the map parser (10_state.md R30; 43_code_lut.md R151). -/
abbrev State.parserShape (s : State) : Prop :=
  (s.phase = .mapload → s.pstate ≠ .start) ∧
  (s.phase = .idle ∨ s.phase = .count ∨ s.phase = .built → s.mappos = 0) ∧
  (s.pstate = .start → s.mappos = 0 ∨ s.mappos.toNat + 1 = committedChars s.lut) ∧
  (s.pstate.inEntry = true → ∀ e ∈ s.lut, e.sym ≠ s.cursym) ∧
  (s.pstate.inEntry = false → s.cursym = 0) ∧
  (s.pstate = .code → 1 ≤ s.curcode.length ∧ s.curcode.length ≤ Config.codeLenMax) ∧
  (s.pstate ≠ .start → s.mappos.toNat = committedChars s.lut + entryChars s.pstate s.cursym s.curcode.length)

/-- The decode buffer never holds more than `CODE_LEN_MAX` bits (10_state.md R33; 45_bit_stream_decoder.md R191). -/
abbrev State.bufShape (s : State) : Prop := s.buf.length ≤ Config.codeLenMax

/-- COLLIDE after `E_CODETBL` (10_state.md R25): `COLLIDE[8:0] = i` and `COLLIDE[24:16] = j` for the pair that failed the prefix check
of the table (43_code_lut.md R154), other bits 0. -/
abbrev State.collideOk (s : State) : Prop :=
  s.err = some .codetbl →
    s.collide.extractLsb' 25 7 = 0 ∧ s.collide.extractLsb' 9 7 = 0 ∧
    prefixCheck s.lut = some ((s.collide.extractLsb' 0 9).toNat, (s.collide.extractLsb' 16 9).toNat)

/-- The error registers (10_state.md R25): all 0 when no error was raised, COLLIDE the pair after `E_CODETBL` and 0 otherwise. -/
abbrev State.errShape (s : State) : Prop :=
  (s.err = none → s.errinfo = 0) ∧ (s.err ≠ some .codetbl → s.collide = 0) ∧ s.collideOk

/-- The invariant: R38 and what makes it inductive. -/
structure State.Inv (s : State) : Prop where
  r38 : s.R38
  arena : s.arenaShape
  lut : s.lutShape
  parse : s.parserShape
  bits : s.bufShape
  errs : s.errShape

/-! ### The spec's own words about trees, texts and runs, independent of how the machine computes them -/

/-- The `PHASE` column of 40_control.md R103: the phases in which a command is legal. -/
def legalPhases : Instr → List Phase
  | .nop | .rdreg _ | .clr => [.idle, .count, .built, .mapload, .ready, .done, .failed]
  | .freq _ | .build => [.idle, .count]
  | .assign => [.built]
  | .sermap | .pack _ | .bit _ | .enddata => [.ready]
  | .ldmap _ | .endmap => [.idle, .mapload]

/-- The last column of 40_control.md R103: the phase after a successful execution. -/
def phaseAfter : Instr → Phase → Phase
  | .nop, p | .rdreg _, p => p
  | .clr, _ => .idle
  | .freq _, _ => .count
  | .build, _ => .built
  | .assign, _ | .sermap, _ | .pack _, _ | .endmap, _ | .bit _, _ => .ready
  | .ldmap _, _ => .mapload
  | .enddata, _ => .done

/-- The errors a command may raise of its own, after decode and phase check (60_exceptions.md R211). -/
def ownErrors : Instr → List ErrCode
  | .nop | .clr | .rdreg _ | .build | .assign | .sermap => []
  | .freq _ => [.capacity]
  | .pack _ => [.nosym]
  | .ldmap _ => [.mapfmt, .capacity]
  | .endmap => [.mapfmt, .codetbl]
  | .bit _ | .enddata => [.bitseq]

/-- The distinct symbols of a text in order of first occurrence (41_tree_builder.md R111). -/
def firstOccurrences : List Byte → List Byte
  | [] => []
  | c :: cs => c :: (firstOccurrences cs).filter (fun d => d ≠ c)

/-- The live set `Q` of 41_tree_builder.md R112 when slot `k` is the next free one: the slots below `k` that are no node's child. -/
def liveBefore (nodes : List Node) (k : Nat) : List Nat :=
  (List.range k).filter (fun i => !(nodes.take k).any (fun n => n.hasChild i))

/-- `a` is `min_key(Q)` (00_scope.md R11; 41_tree_builder.md R113): lower weight first, then lower index. -/
def LeastOf (nodes : List Node) (q : List Nat) (a : Nat) : Prop :=
  a ∈ q ∧ ∀ b ∈ q, b ≠ a →
    (weightAt nodes a).toNat < (weightAt nodes b).toNat ∨ (weightAt nodes a = weightAt nodes b ∧ a < b)

/-- The slot reached from slot `k` by the branches of a code, 0 left and 1 right (42_code_table_generator.md R131). -/
def follow (nodes : List Node) (k : Nat) : Code → Option Nat
  | [] => some k
  | b :: bs =>
    match nodes[k]? with
    | some (.internal _ l r) => follow nodes (if b then r.toNat else l.toNat) bs
    | _ => none

/-- `(i, j)` is the first colliding pair of a table in the order of the loops of 43_code_lut.md R154: least `i`, then least `j`. -/
def FirstCollision (lut : List Entry) (i j : Nat) : Prop :=
  (i < j ∧ ∃ e f, lut[i]? = some e ∧ lut[j]? = some f ∧ (e.code <+: f.code ∨ f.code <+: e.code)) ∧
  ∀ i' j' e f, i' < j' → lut[i']? = some e → lut[j']? = some f → (e.code <+: f.code ∨ f.code <+: e.code) →
    i < i' ∨ (i = i' ∧ j ≤ j')

/-- `symbol` of the grammar of `map` (30_encoding.md R91): the symbol and its spelling. -/
inductive SymbolText : Byte → List Byte → Prop
  | plain (s : Byte) : s ≠ 0x2C → s ≠ 0x3A → s ≠ 0x5C → SymbolText s [s]
  | special (s : Byte) : s = 0x2C ∨ s = 0x3A ∨ s = 0x5C → SymbolText s [0x5C, s]

/-- `entry` of the grammar of `map` (30_encoding.md R91): `symbol ":" code`, the code of 1 to 255 bits. -/
inductive EntryText : Entry → List Byte → Prop
  | mk (e : Entry) (t : List Byte) : SymbolText e.sym t → 1 ≤ e.code.length → e.code.length ≤ 255 →
      EntryText e (t ++ [0x3A] ++ e.code.map (fun b => if b then 0x31 else 0x30))

/-- `map` of the grammar (30_encoding.md R91): the entries and their spelling, `","` between them. -/
inductive MapText : List Entry → List Byte → Prop
  | empty : MapText [] []
  | single (e : Entry) (t : List Byte) : EntryText e t → MapText [e] t
  | cons (e f : Entry) (es : List Entry) (t m : List Byte) : EntryText e t → MapText (f :: es) m →
      MapText (e :: f :: es) (t ++ [0x2C] ++ m)

/-- The state with a list of commands presented on the command port. -/
def State.presenting (s : State) (is : List Instr) : State := { s with input := is.map (fun i => .cmd (encode i)) }

/-- The run of a list of commands, one step a command. -/
def runCommands (s : State) (is : List Instr) : Host.Outcome State Fault Refusal :=
  Host.Core.run Sys2Proof.core is.length (s.presenting is)

/-! ### Using the output (70_reset_and_hazards.md R244) -/

/-- The host may use what the operation appended to the output lists: no error was raised. -/
abbrev State.outputUsable (s : State) : Prop := s.failPin = false

/-- A decode has ended well: the text appended to TEXTOUT is the decoded text (30_encoding.md R96). -/
abbrev State.decodeDone (s : State) : Prop := s.donePin = true

end Sys2Proof.Machine
end

