-- ==== Sys2Proof/Certificates/Slice0/Obligations.lean ====
section
/-! DEFINITION. The statements for the provers, each from the numbered rules of spec/ (OBLIGATIONS.json names them). -/

open Sys2Proof Sys2Proof.Machine

/-! ### Encoding -/

/-- Encoding a command and decoding the word gives the command back, for every operand (30_encoding.md R80 to R82). -/
def Obligations.DecodeOfEncode : Prop := ∀ i : Instr, decode (encode i) = some i

/-- A word that decodes to a command is that command's own word: no two words mean one command (30_encoding.md R80 to R82). -/
def Obligations.EncodeOfDecode : Prop := ∀ (w : Word) (i : Instr), decode w = some i → encode i = w

/-- 30_encoding.md R82: the decoder is the opcode map, mask and match as printed, and no word matches two rows. -/
def Obligations.DecodeFollowsTheOpcodeMap : Prop :=
  (∀ w : Word, decode w =
    if w = 0x00000000 then some .nop
    else if w = 0x01000000 then some .clr
    else if w &&& 0xFFFFFF00 = 0x10000000 then some (.freq (w.extractLsb' 0 8))
    else if w = 0x11000000 then some .build
    else if w = 0x12000000 then some .assign
    else if w = 0x13000000 then some .sermap
    else if w &&& 0xFFFFFF00 = 0x14000000 then some (.pack (w.extractLsb' 0 8))
    else if w &&& 0xFFFFFF00 = 0x20000000 then some (.ldmap (w.extractLsb' 0 8))
    else if w = 0x21000000 then some .endmap
    else if w &&& 0xFFFFFF00 = 0x22000000 then some (.bit (w.extractLsb' 0 8))
    else if w = 0x23000000 then some .enddata
    else if w &&& 0xFFFF0000 = 0x30000000 then some (.rdreg (w.extractLsb' 0 16))
    else none) ∧
  (∀ (w : Word), ∀ r ∈ opcodeMap, ∀ q ∈ opcodeMap, r.selects w = true → q.selects w = true → r = q)

/-- 30_encoding.md R80, R81, R83: a word decodes exactly when its opcode is known and its "must be 0" bits are 0, and exactly when
it matches a row of the opcode map. -/
def Obligations.DecodeAcceptsExactlyWellFormedWords : Prop :=
  ∀ w : Word, ((decode w).isSome = wellFormedWord w) ∧ ((decode w).isSome = opcodeMap.any (fun r => r.selects w))

/-- Words written out from 30_encoding.md R82 decode to the commands they stand for (95_test_vectors.md V50 to V66). -/
def Obligations.SampleWordsDecode : Prop :=
  decode 0x00000000 = some .nop ∧ decode 0x10000061 = some (.freq 0x61) ∧ decode 0x11000000 = some .build ∧
  decode 0x14000061 = some (.pack 0x61) ∧ decode 0x2000003A = some (.ldmap 0x3A) ∧ decode 0x22000031 = some (.bit 0x31) ∧
  decode 0x3000FFFF = some (.rdreg 0xFFFF) ∧ decode 0x00010000 = none ∧ decode 0x10000161 = none ∧ decode 0x15000000 = none

/-! ### The step -/

/-- 40_control.md R104 with log entry 1: when the word the host presents next decodes to a command, the step is that command's
meaning, on the state from which the word has been taken. -/
def Obligations.StepExecutesTheDecodedCommand : Prop :=
  ∀ (s : State) (w : Word) (rest : List HostEvent) (i : Instr),
    s.input = .cmd w :: rest → decode w = some i → step s = exec i { s with input := rest }

/-- 30_encoding.md R83: a word that matches no row of the opcode map raises E_ILLCMD with ERRINFO the word, in every phase, and
does nothing else. What the host presents stands in the list `input`, the model's choice (log entry 1). -/
def Obligations.IllegalWordRaisesIllcmd : Prop :=
  ∀ (s : State) (w : Word) (rest : List HostEvent),
    s.input = .cmd w :: rest → (∀ r ∈ opcodeMap, w &&& r.mask ≠ r.pattern) →
      (s.err = none → step s = .next { s with input := rest, err := some .illcmd, errinfo := w, phase := .failed }) ∧
      (s.err ≠ none → step s = .next { s with input := rest, phase := .failed })

/-- 10_state.md R39: the state after reset, every register, every table slot as RDREG reads it, the lists and the pins. -/
def Obligations.ResetValues : Prop :=
  State.reset.phase.bits = 0 ∧ State.reset.dstate.bits = 0 ∧ State.reset.pstate.bits = 0 ∧
  errCode State.reset.err = 0 ∧ State.reset.errinfo = 0 ∧ State.reset.collide = 0 ∧ State.reset.total = 0 ∧
  State.reset.ndist = 0 ∧ State.reset.nnodes = 0 ∧ State.reset.root = none ∧ State.reset.nent = 0 ∧
  State.reset.cursym = 0 ∧ State.reset.curcode = [] ∧ State.reset.mappos = 0 ∧ State.reset.buf = [] ∧
  State.reset.mapOut = [] ∧ State.reset.dataOut = [] ∧ State.reset.textOut = [] ∧ State.reset.rsp = [] ∧
  State.reset.donePin = false ∧ State.reset.failPin = false ∧
  memRead State.reset 0x0000 = 0x48554631 ∧ ∀ a : Addr, a ≠ 0x0000 → memRead State.reset a = 0

/-- 70_reset_and_hazards.md R240, R241: a reset pulse puts every piece of state at its reset value, and differs from CLR in the
output lists only. What the host presents stands in the list `input`, the model's choice (log entry 1). -/
def Obligations.ResetPulseIsClrPlusEmptyOutputs : Prop :=
  ∀ (s : State) (rest : List HostEvent), s.input = .rst :: rest →
    step s = .next { State.reset with input := rest } ∧
    ∃ t, exec .clr s = .next t ∧
      { t with mapOut := [], dataOut := [], textOut := [], rsp := [], input := rest } = { State.reset with input := rest }

/-- 60_exceptions.md R222 with log entry 1: nothing but a command or reset changes the state; with nothing presented the core waits. -/
def Obligations.StepWaitsWhenNothingIsPresented : Prop := ∀ s : State, s.input = [] → step s = .next s

/-- 45_bit_stream_decoder.md R181, 93_implementation_defined.md part 1: every state has a next state, whatever is presented. What
the host presents stands in the list `input`, the model's choice (log entry 1). -/
def Obligations.StepAlwaysAnswersNext : Prop := ∀ s : State, ∃ t, step s = .next t

/-! ### Phases (40_control.md R103) -/

/-- 40_control.md R103: a command out of its phases raises E_SEQ, which in FAILED, where ERR is not 0, changes nothing; a command in
its phases ends in the phase the table gives, or, raising an error, in FAILED. -/
def Obligations.PhaseTable : Prop :=
  ∀ (i : Instr) (s : State), s.Inv →
    (s.phase ∉ legalPhases i → s.phase ≠ .failed →
      exec i s = .next { s with err := some .seq, errinfo := encode i, phase := .failed }) ∧
    (s.phase ∉ legalPhases i → s.phase = .failed → exec i s = .next s) ∧
    (s.phase ∈ legalPhases i → ∃ t, exec i s = .next t ∧
      (t.err = s.err ∨ i = .clr → t.phase = phaseAfter i s.phase) ∧ (t.err ≠ s.err → i ≠ .clr → t.phase = .failed))

/-! ### Control commands -/

/-- 40_control.md R100: NOP, the word 0x00000000, changes nothing, in every phase. -/
def Obligations.NopChangesNothing : Prop := decode 0x00000000 = some .nop ∧ ∀ s : State, exec .nop s = .next s

/-- 40_control.md R101: CLR, the word 0x01000000, puts every piece of state at its reset value but the four output lists, in every phase, and in IDLE
changes nothing. -/
def Obligations.ClrResetsAllButTheOutputs : Prop :=
  decode 0x01000000 = some .clr ∧
  (∀ s : State, exec .clr s = .next
    { phase := .idle, pstate := .start, err := none, errinfo := 0, collide := 0, total := 0, nodes := [], root := none,
      lut := [], cursym := 0, curcode := [], mappos := 0, buf := [], mapOut := s.mapOut, dataOut := s.dataOut,
      textOut := s.textOut, rsp := s.rsp, input := s.input }) ∧
  (∀ s : State, s.Inv → s.phase = .idle → exec .clr s = .next s)

/-- 40_control.md R102: RDREG, the word `0x30000000 | addr`, appends the word read to RSP and changes nothing else, in every phase. -/
def Obligations.RdregAppendsTheWordRead : Prop :=
  (∀ addr : Addr, decode (0x30000000 ||| addr.zeroExtend 32) = some (.rdreg addr)) ∧
  ∀ (s : State) (addr : Addr), exec (.rdreg addr) s = .next { s with rsp := s.rsp ++ [memRead s addr] }

/-! ### The read space (20_memory.md R61 to R65; 10_state.md R31, R32) -/

/-- 10_state.md R31: the CSRs, field by field (STATUS is R32's), with the error numbers of 60_exceptions.md R210 and COLLIDE as R25 has
it: the first colliding pair of the table after E_CODETBL, 0 otherwise. -/
def Obligations.CsrWords : Prop :=
  ∀ s : State, s.Inv →
    memRead s 0x0000 = 0x48554631 ∧
    ((s.err = none → memRead s 0x0002 = 0) ∧ (s.err = some .mapfmt → memRead s 0x0002 = 1) ∧
      (s.err = some .codetbl → memRead s 0x0002 = 2) ∧ (s.err = some .bitseq → memRead s 0x0002 = 3) ∧
      (s.err = some .illcmd → memRead s 0x0002 = 8) ∧ (s.err = some .seq → memRead s 0x0002 = 9) ∧
      (s.err = some .capacity → memRead s 0x0002 = 10) ∧ (s.err = some .nosym → memRead s 0x0002 = 11)) ∧
    memRead s 0x0003 = s.errinfo ∧ memRead s 0x0004 = s.total ∧
    (memRead s 0x0005).toNat = s.ndist ∧ (memRead s 0x0006).toNat = s.nnodes ∧
    (s.root = none → memRead s 0x0007 = 0) ∧
    (∀ k, s.root = some k → (memRead s 0x0007).getLsbD 31 = true ∧ (memRead s 0x0007).extractLsb' 9 22 = 0 ∧
      (memRead s 0x0007).extractLsb' 0 9 = k) ∧
    (memRead s 0x0008).toNat = s.nent ∧ (memRead s 0x0009).toNat = s.buf.length ∧ memRead s 0x000A = 0 ∧
    memRead s 0x000B = s.mappos ∧
    (memRead s 0x000C = s.collide ∧ (s.err ≠ some .codetbl → memRead s 0x000C = 0) ∧
      (s.err = some .codetbl →
        FirstCollision s.lut ((memRead s 0x000C).extractLsb' 0 9).toNat ((memRead s 0x000C).extractLsb' 16 9).toNat) ∧
      (memRead s 0x000C).extractLsb' 25 7 = 0 ∧ (memRead s 0x000C).extractLsb' 9 7 = 0) ∧
    ((memRead s 0x000D).getLsbD 31 = decide (s.pstate = .colon ∨ s.pstate = .code0 ∨ s.pstate = .code) ∧
      (memRead s 0x000D).extractLsb' 16 15 = 0 ∧ ((memRead s 0x000D).extractLsb' 8 8).toNat = s.curcode.length ∧
      (memRead s 0x000D).extractLsb' 0 8 = s.cursym) ∧
    memRead s 0x000E = 0 ∧ memRead s 0x000F = 0

/-- 10_state.md R32: the STATUS word, field by field, with the numbers of PHASE (R22) and PSTATE (R24), and DSTATE and the pins as R23
and R36 make them of PHASE. -/
def Obligations.StatusWordFields : Prop :=
  ∀ s : State,
    ((s.phase = .idle → (memRead s 0x0001).extractLsb' 0 4 = 0) ∧ (s.phase = .count → (memRead s 0x0001).extractLsb' 0 4 = 1) ∧
      (s.phase = .built → (memRead s 0x0001).extractLsb' 0 4 = 2) ∧ (s.phase = .mapload → (memRead s 0x0001).extractLsb' 0 4 = 3) ∧
      (s.phase = .ready → (memRead s 0x0001).extractLsb' 0 4 = 4) ∧ (s.phase = .done → (memRead s 0x0001).extractLsb' 0 4 = 5) ∧
      (s.phase = .failed → (memRead s 0x0001).extractLsb' 0 4 = 6)) ∧
    (memRead s 0x0001).extractLsb' 4 2 = (if s.phase = .done then 2 else if s.phase = .failed then 3 else 0) ∧
    (memRead s 0x0001).extractLsb' 6 2 = 0 ∧
    ((s.pstate = .start → (memRead s 0x0001).extractLsb' 8 3 = 0) ∧ (s.pstate = .sym → (memRead s 0x0001).extractLsb' 8 3 = 1) ∧
      (s.pstate = .esc → (memRead s 0x0001).extractLsb' 8 3 = 2) ∧ (s.pstate = .colon → (memRead s 0x0001).extractLsb' 8 3 = 3) ∧
      (s.pstate = .code0 → (memRead s 0x0001).extractLsb' 8 3 = 4) ∧ (s.pstate = .code → (memRead s 0x0001).extractLsb' 8 3 = 5)) ∧
    (memRead s 0x0001).extractLsb' 11 5 = 0 ∧
    (memRead s 0x0001).getLsbD 16 = decide (s.phase = .done) ∧ (memRead s 0x0001).getLsbD 17 = decide (s.phase = .failed) ∧
    (memRead s 0x0001).extractLsb' 18 14 = 0

/-- 20_memory.md R62: the FREQ window reads the count of a symbol, 0 when the symbol has not occurred. -/
def Obligations.FreqWindowReadsTheCounts : Prop :=
  ∀ s : State, s.Inv → ∀ sym : Byte,
    (∀ w, Node.leaf sym w ∈ s.nodes → memRead s (0x0100 + sym.zeroExtend 16) = w) ∧
    ((∀ w, Node.leaf sym w ∉ s.nodes) → memRead s (0x0100 + sym.zeroExtend 16) = 0)

/-- 20_memory.md R63: the two words of every slot of the NODE window, bit field by bit field, and the two words past the last slot. -/
def Obligations.NodeWindowReadsTheArena : Prop :=
  ∀ (s : State) (k : Nat), s.nnodes ≤ 511 → k < 511 →
    let weightWord := memRead s (BitVec.ofNat 16 (0x0400 + 2 * k))
    let info := memRead s (BitVec.ofNat 16 (0x0400 + 2 * k + 1))
    (s.nodes[k]? = none → weightWord = 0 ∧ info = 0) ∧
    (∀ sym w, s.nodes[k]? = some (.leaf sym w) → weightWord = w ∧ info.getLsbD 31 = true ∧ info.getLsbD 30 = true ∧
      info.extractLsb' 8 22 = 0 ∧ info.extractLsb' 0 8 = sym) ∧
    (∀ w l r, s.nodes[k]? = some (.internal w l r) → weightWord = w ∧ info.getLsbD 31 = true ∧ info.getLsbD 30 = false ∧
      info.extractLsb' 18 12 = 0 ∧ info.extractLsb' 9 9 = r ∧ info.extractLsb' 0 9 = l) ∧
    memRead s 0x07FE = 0 ∧ memRead s 0x07FF = 0

/-- 20_memory.md R64: the sixteen words of every entry of the LUT window; code bit `n` is bit `n mod 32` of word `1 + n / 32`. -/
def Obligations.LutWindowReadsTheTable : Prop :=
  ∀ (s : State) (i : Nat), s.Inv → i < 256 →
    let word := fun k : Nat => memRead s (BitVec.ofNat 16 (0x1000 + 16 * i + k))
    (s.lut[i]? = none → ∀ k < 16, word k = 0) ∧
    (∀ e, s.lut[i]? = some e →
      (word 0).getLsbD 31 = true ∧ (word 0).extractLsb' 16 15 = 0 ∧ ((word 0).extractLsb' 8 8).toNat = e.code.length ∧
      (word 0).extractLsb' 0 8 = e.sym ∧
      (∀ n < 256, (word (1 + n / 32)).getLsbD (n % 32) = (e.code[n]?).getD false) ∧
      (∀ k, 9 ≤ k → k < 16 → word k = 0))

/-- 20_memory.md R65: a read of an address the table of R61 does not list returns 0, and no read raises an error, in any phase. -/
def Obligations.UnlistedAddressesReadZero : Prop :=
  (∀ (s : State) (a : Addr), ∃ t, exec (.rdreg a) s = .next t ∧ t.err = s.err ∧ t.errinfo = s.errinfo ∧ t.phase = s.phase) ∧
  ∀ (s : State) (a : Addr),
    ¬ (a.toNat ≤ 0x000F) → ¬ (0x0100 ≤ a.toNat ∧ a.toNat ≤ 0x01FF) → ¬ (0x0400 ≤ a.toNat ∧ a.toNat ≤ 0x07FF) →
    ¬ (0x1000 ≤ a.toNat ∧ a.toNat ≤ 0x1FFF) → memRead s a = 0

/-- The frame of the commands, through RDREG's read of one word: which addresses of the read space a command that raises no error
may change (20_memory.md R61 to R64 with each command's rule; the outputs are not in the read space). -/
def Obligations.ReadSpaceFrames : Prop :=
  ∀ (i : Instr) (s t : State), s.Inv → s.err = none → exec i s = .next t → t.err = none → ∀ a : Addr,
    (i = .nop ∨ i = .sermap ∨ (∃ y, i = .pack y) ∨ (∃ b, i = .rdreg b) → memRead t a = memRead s a) ∧
    ((∃ c, i = .bit c) → a ≠ 0x0009 → memRead t a = memRead s a) ∧
    (i = .enddata → a ≠ 0x0001 → memRead t a = memRead s a) ∧
    (i = .assign → a ≠ 0x0001 → a ≠ 0x0008 → a.toNat < 0x1000 → memRead t a = memRead s a) ∧
    (i = .build → a ≠ 0x0001 → a ≠ 0x0006 → a ≠ 0x0007 → ¬ (0x0400 + 2 * s.ndist ≤ a.toNat ∧ a.toNat < 0x07FE) →
      memRead t a = memRead s a) ∧
    (∀ (y : Byte) (k : Nat) (w : Word), i = .freq y → t.nodes[k]? = some (.leaf y w) →
      a ≠ 0x0001 → a ≠ 0x0004 → a ≠ 0x0005 → a ≠ 0x0006 → a ≠ 0x0100 + y.zeroExtend 16 →
      a.toNat ≠ 0x0400 + 2 * k → a.toNat ≠ 0x0400 + 2 * k + 1 → memRead t a = memRead s a) ∧
    ((∃ c, i = .ldmap c) ∨ i = .endmap → a ≠ 0x0001 → a ≠ 0x0008 → a ≠ 0x000B → a ≠ 0x000D →
      ¬ (0x1000 + 16 * s.nent ≤ a.toNat ∧ a.toNat < 0x1000 + 16 * s.nent + 16) → memRead t a = memRead s a)

/-! ### HTB: FREQ and BUILD -/

/-- 41_tree_builder.md R110: FREQ raises E_CAPACITY at TOTAL_MAX; else it adds one to the symbol's leaf, or appends a leaf of
weight 1, adds one to TOTAL and moves to COUNT, and changes nothing else. -/
def Obligations.FreqCountsOneSymbol : Prop :=
  ∀ (s : State) (sym : Byte), s.Inv → (s.phase = .idle ∨ s.phase = .count) →
    (s.total = 0xFFFFFFFF →
      exec (.freq sym) s = .next { s with err := some .capacity, errinfo := 0x10000000 ||| sym.zeroExtend 32, phase := .failed }) ∧
    (s.total ≠ 0xFFFFFFFF → ∀ i w, i < s.ndist → s.nodes[i]? = some (.leaf sym w) →
      exec (.freq sym) s = .next { s with nodes := s.nodes.set i (.leaf sym (w + 1)), total := s.total + 1, phase := .count }) ∧
    (s.total ≠ 0xFFFFFFFF → (∀ i w, i < s.ndist → s.nodes[i]? ≠ some (.leaf sym w)) →
      exec (.freq sym) s = .next { s with nodes := s.nodes ++ [.leaf sym 1], total := s.total + 1, phase := .count })

/-- 41_tree_builder.md R111 and 10_state.md R26, R28: after CLR and one FREQ per symbol of a text, the leaves are the distinct
symbols in order of first occurrence, each with its number of occurrences, and TOTAL is the text's length. What the host presents
stands in the list `input`, the model's choice (log entry 1). -/
def Obligations.FreqRunCountsTheText : Prop :=
  ∀ (s : State) (text : List Byte), text.length < 2 ^ 32 →
    ∃ t, runCommands s (.clr :: text.map .freq) = .next t ∧ t.err = none ∧
      t.nodes = (firstOccurrences text).map (fun c => .leaf c (BitVec.ofNat 32 (text.count c))) ∧
      t.total = BitVec.ofNat 32 text.length

/-- 41_tree_builder.md R112 to R114: BUILD keeps the leaves, creates each internal node from the least two of the live nodes, the
first removed left and the second right, weight the sum, until at most one is live, which is the root; nothing else changes. -/
def Obligations.BuildMergesTheTwoLeast : Prop :=
  ∀ s : State, s.Inv → (s.phase = .idle ∨ s.phase = .count) →
    ∃ (inner : List Node) (root : Option NodeIdx),
      exec .build s = .next { s with nodes := s.nodes ++ inner, root := root, phase := .built } ∧
      (∀ k n, s.ndist ≤ k → (s.nodes ++ inner)[k]? = some n → ∃ a b,
        n = .internal (weightAt (s.nodes ++ inner) a + weightAt (s.nodes ++ inner) b) (BitVec.ofNat 9 a) (BitVec.ofNat 9 b) ∧
        LeastOf (s.nodes ++ inner) (liveBefore (s.nodes ++ inner) k) a ∧
        LeastOf (s.nodes ++ inner) ((liveBefore (s.nodes ++ inner) k).filter (fun c => c ≠ a)) b) ∧
      ((liveBefore (s.nodes ++ inner) (s.nodes ++ inner).length = [] ∧ root = none) ∨
        ∃ r, liveBefore (s.nodes ++ inner) (s.nodes ++ inner).length = [r] ∧ root = some (BitVec.ofNat 9 r))

/-- 41_tree_builder.md R115: the sizes of the arena and the root after BUILD, for no leaf, one leaf, and two or more. -/
def Obligations.BuildSizes : Prop :=
  ∀ s : State, s.Inv → (s.phase = .idle ∨ s.phase = .count) → ∃ t, exec .build s = .next t ∧ t.err = none ∧
    t.ndist = s.ndist ∧
    (s.ndist = 0 → t.nnodes = 0 ∧ t.root = none) ∧
    (s.ndist = 1 → t.nnodes = 1 ∧ t.root = some 0 ∧ t.nodes = s.nodes) ∧
    (2 ≤ s.ndist → t.nnodes = 2 * s.ndist - 1 ∧ t.root = some (BitVec.ofNat 9 (2 * s.ndist - 2)) ∧ t.nnodes ≤ 511)

/-- 41_tree_builder.md R116: in a built tree the root's weight is TOTAL and every leaf is reached from the root by exactly one
path. -/
def Obligations.RootWeightIsTotal : Prop :=
  ∀ s : State, s.Inv → (s.phase = .idle ∨ s.phase = .count) → 1 ≤ s.ndist →
    ∃ t r, exec .build s = .next t ∧ t.root = some r ∧ weightAt t.nodes r.toNat = t.total ∧
      (∀ k < t.ndist, ∃! c : Code, follow t.nodes r.toNat c = some k) ∧
      (∀ (k : Nat) (w : Word) (left right : NodeIdx), t.nodes[k]? = some (.internal w left right) →
        left.toNat < t.nnodes ∧ right.toNat < t.nnodes ∧ left ≠ right)

/-- 41_tree_builder.md R117: BUILD is a function of the FREQ sequence alone: two runs of the same sequence, from whatever states,
give identical arenas, bit for bit. What the host presents stands in the list `input`, the model's choice (log entry 1). -/
def Obligations.BuildIsDeterminedByTheText : Prop :=
  ∀ (s s' t t' : State) (text : List Byte),
    runCommands s (.clr :: text.map .freq ++ [.build]) = .next t →
    runCommands s' (.clr :: text.map .freq ++ [.build]) = .next t' →
    t.nodes = t'.nodes ∧ t.root = t'.root ∧ t.nnodes = t'.nnodes ∧ t.ndist = t'.ndist ∧ t.total = t'.total

/-- 41_tree_builder.md R120: in BUILT and later phases no command but CLR changes the arena, ROOT or TOTAL. -/
def Obligations.ArenaFrozenOnceBuilt : Prop :=
  ∀ (i : Instr) (s t : State),
    (s.phase = .built ∨ s.phase = .ready ∨ s.phase = .done ∨ s.phase = .failed) → i ≠ .clr → exec i s = .next t →
      t.nodes = s.nodes ∧ t.ndist = s.ndist ∧ t.nnodes = s.nnodes ∧ t.root = s.root ∧ t.total = s.total

/-! ### CTG: ASSIGN and SERMAP -/

/-- 42_code_table_generator.md R130, R131: with two leaves or more, ASSIGN writes one entry per leaf, entry `i` the symbol of leaf
`i` with the branch bits of the path from the root to it, moves to READY and changes nothing else. -/
def Obligations.AssignWritesPathCodes : Prop :=
  ∀ (s : State) (r : NodeIdx), s.Inv → s.phase = .built → s.root = some r → 2 ≤ s.ndist →
    ∃ lut, exec .assign s = .next { s with lut := lut, phase := .ready } ∧ lut.length = s.ndist ∧
      ∀ i < s.ndist, ∃ c, lut[i]? = some ⟨symAt s.nodes i, c⟩ ∧ follow s.nodes r.toNat c = some i

/-- 42_code_table_generator.md R132, R133: with one distinct symbol ASSIGN writes the one-bit code 0; with no symbol it writes
nothing; in both cases it moves to READY and changes nothing else. -/
def Obligations.AssignOfOneOrNoSymbol : Prop :=
  ∀ (s : State), s.Inv → s.phase = .built →
    (s.ndist = 1 → ∃ sym, s.nodes = [.leaf sym s.total] ∧
      exec .assign s = .next { s with lut := [⟨sym, [false]⟩], phase := .ready }) ∧
    (s.ndist = 0 → s.lut = [] ∧ exec .assign s = .next { s with phase := .ready })

/-- 42_code_table_generator.md R134, items 1 to 3: what the table ASSIGN makes guarantees. -/
def Obligations.AssignGuarantees : Prop :=
  ∀ s : State, s.Inv → s.phase = .built → ∃ t, exec .assign s = .next t ∧
    t.nent = s.ndist ∧ (∀ i < t.nent, (t.lut[i]?.map Entry.sym) = some (symAt s.nodes i)) ∧ (t.lut.map Entry.sym).Nodup ∧
    (∀ e ∈ t.lut, 1 ≤ e.code.length ∧ e.code.length ≤ max 1 (s.ndist - 1) ∧ e.code.length ≤ 255) ∧
    (1 < t.nent → ∀ (i j : Nat) (e f : Entry), t.lut[i]? = some e → t.lut[j]? = some f → i ≠ j → ¬ e.code <+: f.code)

/-- 42_code_table_generator.md R135: SERMAP appends the entries' texts joined by the delimiter, a `map` of the grammar of
30_encoding.md R91, and changes nothing else. -/
def Obligations.SermapAppendsTheMap : Prop :=
  ∀ s : State, s.phase = .ready →
    let entryText := fun e : Entry =>
      (if e.sym = 0x2C ∨ e.sym = 0x3A ∨ e.sym = 0x5C then [0x5C#8, e.sym] else [e.sym]) ++ [0x3A#8] ++
        e.code.map (fun b => if b then 0x31#8 else 0x30#8)
    exec .sermap s = .next { s with mapOut := s.mapOut ++ List.intercalate [0x2C#8] (s.lut.map entryText) } ∧
    (s.Inv → ∃ m, exec .sermap s = .next { s with mapOut := s.mapOut ++ m } ∧ MapText s.lut m)

/-- 30_encoding.md R93: the number of characters SERMAP appends for a table of `n >= 1` entries: `3n - 1`, one for each symbol that
needs an escape, and the code lengths. -/
def Obligations.SerializedLength : Prop :=
  ∀ s t : State, s.phase = .ready → 1 ≤ s.nent → exec .sermap s = .next t →
    t.mapOut.length = s.mapOut.length + (3 * s.nent - 1) +
      s.lut.countP (fun e => e.sym == 0x2C || e.sym == 0x3A || e.sym == 0x5C) + (s.lut.map (fun e => e.code.length)).sum

/-- 30_encoding.md R92: `esc` is a bijection between the symbols and the strings `symbol` of the grammar of R91. -/
def Obligations.EscapeIsABijection : Prop :=
  (∀ y : Byte, SymbolText y (esc y)) ∧ (∀ (y : Byte) (t : List Byte), SymbolText y t → t = esc y) ∧
  (∀ y z : Byte, esc y = esc z → y = z)

/-! ### BPE: PACK -/

/-- 44_bit_packer.md R170: PACK appends the characters of the symbol's code, first bit first, and changes nothing else; it raises
E_NOSYM when the symbol has no entry. -/
def Obligations.PackAppendsTheCode : Prop :=
  ∀ (s : State) (sym : Byte), s.Inv → s.phase = .ready →
    (∀ c, (⟨sym, c⟩ : Entry) ∈ s.lut →
      exec (.pack sym) s = .next { s with dataOut := s.dataOut ++ c.map (fun b => if b then 0x31#8 else 0x30#8) }) ∧
    ((∀ c, (⟨sym, c⟩ : Entry) ∉ s.lut) →
      exec (.pack sym) s = .next { s with err := some .nosym, errinfo := 0x14000000 ||| sym.zeroExtend 32, phase := .failed })

/-- 44_bit_packer.md R172: the number of characters an ENCODE appends to DATAOUT is the sum over the leaves of weight times code
length. What the host presents stands in the list `input`, the model's choice (log entry 1). -/
def Obligations.PayloadLength : Prop :=
  ∀ (s : State) (text : List Byte), text.length < 2 ^ 32 →
    ∃ t, runCommands s (encodeCommands text) = .next t ∧ t.err = none ∧ t.nent = t.ndist ∧
      t.dataOut.length = s.dataOut.length +
        ((List.range t.ndist).map (fun i => (weightAt t.nodes i).toNat * ((t.lut[i]?.map (fun e => e.code.length)).getD 0))).sum

/-! ### BSD: LDMAP, ENDMAP, BIT, ENDDATA -/

/-- 45_bit_stream_decoder.md R182 to R185, R187: LDMAP steps the parser row by row of R183's table; a step that raises changes
nothing but the error registers and PHASE, so MAPPOS stays. -/
def Obligations.LdmapFollowsTheParserTable : Prop :=
  ∀ (s : State) (ch : Byte), s.err = none → (s.phase = .idle ∨ s.phase = .mapload) →
    let bad := fun e : ErrCode =>
      exec (.ldmap ch) s = .next { s with err := some e, errinfo := 0x20000000 ||| ch.zeroExtend 32, phase := .failed }
    let ok := fun t : State => exec (.ldmap ch) s = .next { t with mappos := s.mappos + 1, phase := .mapload }
    let takeSymbol :=
      ((∃ e ∈ s.lut, e.sym = ch) → bad .mapfmt) ∧
      ((∀ e ∈ s.lut, e.sym ≠ ch) → ok { s with cursym := ch, curcode := [], pstate := .colon })
    (s.pstate = .start ∨ s.pstate = .sym →
      (ch = 0x5C → ok { s with pstate := .esc }) ∧
      (ch = 0x2C ∨ ch = 0x3A → bad .mapfmt) ∧
      (ch ≠ 0x5C → ch ≠ 0x2C → ch ≠ 0x3A → takeSymbol)) ∧
    (s.pstate = .esc →
      (ch = 0x2C ∨ ch = 0x3A ∨ ch = 0x5C → takeSymbol) ∧
      (ch ≠ 0x2C → ch ≠ 0x3A → ch ≠ 0x5C → bad .mapfmt)) ∧
    (s.pstate = .colon → (ch = 0x3A → ok { s with pstate := .code0 }) ∧ (ch ≠ 0x3A → bad .mapfmt)) ∧
    (s.pstate = .code0 →
      (ch = 0x30 → ok { s with curcode := [false], pstate := .code }) ∧
      (ch = 0x31 → ok { s with curcode := [true], pstate := .code }) ∧
      (ch ≠ 0x30 → ch ≠ 0x31 → bad .mapfmt)) ∧
    (s.pstate = .code →
      (ch = 0x30 ∨ ch = 0x31 → s.curcode.length = 255 → bad .capacity) ∧
      (ch = 0x30 ∨ ch = 0x31 → s.curcode.length ≠ 255 → ok { s with curcode := s.curcode ++ [decide (ch = 0x31)] }) ∧
      (ch = 0x2C → ok { s with lut := s.lut ++ [⟨s.cursym, s.curcode⟩], cursym := 0, curcode := [], pstate := .sym }) ∧
      (ch ≠ 0x30 → ch ≠ 0x31 → ch ≠ 0x2C → bad .mapfmt))

/-- 45_bit_stream_decoder.md R186: ENDMAP commits the last entry, resets PSTATE, checks the table and moves to READY, or raises
E_MAPFMT inside an entry and E_CODETBL, with COLLIDE, on a table that is not prefix-free. -/
def Obligations.EndmapChecksTheTable : Prop :=
  ∀ s : State, s.Inv → (s.phase = .idle ∨ s.phase = .mapload) →
    (s.pstate = .sym ∨ s.pstate = .esc ∨ s.pstate = .colon ∨ s.pstate = .code0 →
      exec .endmap s = .next { s with err := some .mapfmt, errinfo := 0x21000000, phase := .failed }) ∧
    (s.pstate = .start ∨ s.pstate = .code →
      let u := if s.pstate = .code
        then { s with lut := s.lut ++ [⟨s.cursym, s.curcode⟩], cursym := 0, curcode := [], pstate := .start } else s
      ((∀ i j, ¬ FirstCollision u.lut i j) → exec .endmap s = .next { u with buf := [], phase := .ready }) ∧
      (∀ i j, FirstCollision u.lut i j → exec .endmap s = .next { u with
          collide := BitVec.ofNat 32 (j * 65536 + i), err := some .codetbl, errinfo := 0x21000000, phase := .failed }))

/-- 43_code_lut.md R154: the prefix check passes exactly the tables in which no two codes collide; otherwise it returns the first
colliding pair in the order of the loops. -/
def Obligations.PrefixCheckFindsTheFirstCollision : Prop :=
  ∀ lut : List Entry,
    (prefixCheck lut = none ↔
      ∀ (i j : Nat) (e f : Entry), i ≠ j → lut[i]? = some e → lut[j]? = some f → ¬ e.code <+: f.code) ∧
    (∀ i j, prefixCheck lut = some (i, j) ↔ FirstCollision lut i j) ∧
    (lut.length ≤ 1 → prefixCheck lut = none)

/-- 43_code_lut.md R156: valid entries are at most 256 with pairwise different symbols and codes of 1 to 255 bits, prefix-free in
READY and DONE; and the LUT is written by ASSIGN in BUILT and by LDMAP and ENDMAP in IDLE and MAPLOAD only, and emptied by CLR and
reset only. What the host presents stands in the list `input`, the model's choice (log entry 1). -/
def Obligations.LutInvariantsAndWriters : Prop :=
  ∀ s t : State, s.Inv → step s = .next t →
    s.nent ≤ 256 ∧ (s.lut.map Entry.sym).Nodup ∧ (∀ e ∈ s.lut, 1 ≤ e.code.length ∧ e.code.length ≤ 255) ∧
    (s.phase = .ready ∨ s.phase = .done → 1 < s.nent →
      ∀ (i j : Nat) (e f : Entry), i ≠ j → s.lut[i]? = some e → s.lut[j]? = some f → ¬ e.code <+: f.code) ∧
    (t.lut ≠ s.lut →
      (∃ rest, s.input = .cmd 0x12000000 :: rest ∧ s.phase = .built ∧ t.phase = .ready) ∨
      (∃ ch rest, s.input = .cmd (0x20000000 ||| BitVec.zeroExtend 32 (ch : Byte)) :: rest ∧ s.phase = .mapload ∧ s.lut <+: t.lut) ∨
      (∃ rest, s.input = .cmd 0x21000000 :: rest ∧ s.phase = .mapload ∧ s.lut <+: t.lut) ∨
      (∃ rest, s.input = .cmd 0x01000000 :: rest ∧ t.lut = []) ∨
      (∃ rest, s.input = .rst :: rest ∧ t.lut = []))

/-- 45_bit_stream_decoder.md R189, R191, R192: BIT refuses a character that is no bit and a bit past 255 unmatched ones; else it
appends the bit, and on a match emits the symbol and clears the buffer; nothing else changes. -/
def Obligations.BitConsumesOneBit : Prop :=
  ∀ (s : State) (ch : Byte), s.Inv → s.phase = .ready →
    let bad := exec (.bit ch) s = .next { s with err := some .bitseq, errinfo := 0x22000000 ||| ch.zeroExtend 32, phase := .failed }
    let buf := s.buf ++ [decide (ch = 0x31)]
    (ch ≠ 0x30 → ch ≠ 0x31 → bad) ∧
    (ch = 0x30 ∨ ch = 0x31 → s.buf.length = 255 → bad) ∧
    (ch = 0x30 ∨ ch = 0x31 → s.buf.length ≠ 255 →
      (∀ e ∈ s.lut, e.code = buf → exec (.bit ch) s = .next { s with textOut := s.textOut ++ [e.sym], buf := [] }) ∧
      ((∀ e ∈ s.lut, e.code ≠ buf) → exec (.bit ch) s = .next { s with buf := buf }))

/-- 45_bit_stream_decoder.md R193: ENDDATA moves to DONE with an empty buffer and raises E_BITSEQ with any other. -/
def Obligations.EnddataEndsTheDecode : Prop :=
  ∀ s : State, s.err = none → s.phase = .ready →
    (s.buf = [] → exec .enddata s = .next { s with phase := .done }) ∧
    (s.buf ≠ [] → exec .enddata s = .next { s with err := some .bitseq, errinfo := 0x23000000, phase := .failed })

/-- 45_bit_stream_decoder.md R189: over a prefix-free table, the bits of a sequence of entries' codes decode to exactly their
symbols, and to no other sequence's. What the host presents stands in the list `input`, the model's choice (log entry 1). -/
def Obligations.CodesDecodeUniquely : Prop :=
  ∀ (s : State) (es : List Entry), s.Inv → s.phase = .ready → s.buf = [] → (∀ e ∈ es, e ∈ s.lut) →
    runCommands s ((es.flatMap (fun e => e.code)).map (fun b => .bit (if b then 0x31 else 0x30))) =
      .next { s with textOut := s.textOut ++ es.map Entry.sym, input := [] } ∧
    ∀ fs : List Entry, (∀ f ∈ fs, f ∈ s.lut) → fs.flatMap (fun f => f.code) = es.flatMap (fun e => e.code) → fs = es

/-- 45_bit_stream_decoder.md R196: in READY and after, the LUT does not change but by CLR; a symbol emitted is an entry's; DONE is
reached only with an empty buffer. -/
def Obligations.DecoderNeverInvents : Prop :=
  ∀ (i : Instr) (s t : State), exec i s = .next t →
    ((s.phase = .ready ∨ s.phase = .done ∨ s.phase = .failed) → i ≠ .clr → t.lut = s.lut) ∧
    (t.textOut = s.textOut ∨ ∃ e ∈ s.lut, t.textOut = s.textOut ++ [e.sym]) ∧
    (t.phase = .done → s.phase ≠ .done → s.buf = [] ∧ t.buf = [])

/-! ### Errors (60_exceptions.md) -/

/-- 60_exceptions.md R216: a command that raises changes ERR, ERRINFO and PHASE only; ENDMAP's E_CODETBL is the one exception and
may also have changed the LUT, PSTATE, CURSYM, CURCODE and COLLIDE. -/
def Obligations.ErrorsArePrecise : Prop :=
  ∀ (i : Instr) (s t : State), s.err = none → exec i s = .next t → t.err ≠ none →
    ∃ e, t.err = some e ∧ t.errinfo = encode i ∧ t.phase = .failed ∧
      (t = { s with err := some e, errinfo := encode i, phase := .failed } ∨
        (i = .endmap ∧ e = .codetbl ∧
          t = { s with err := some e, errinfo := encode i, phase := .failed, lut := t.lut, pstate := t.pstate,
                       cursym := t.cursym, curcode := t.curcode, collide := t.collide }))

/-- 60_exceptions.md R211: the errors a command may raise of its own, in its own phases. -/
def Obligations.ErrorsByCommand : Prop :=
  ∀ (i : Instr) (s t : State) (e : ErrCode), s.err = none → s.phase ∈ legalPhases i → exec i s = .next t → t.err = some e →
    e ∈ ownErrors i

/-- 60_exceptions.md R219: in FAILED every word but NOP's, CLR's and RDREG's leaves the state as it is: the first error sticks.
What the host presents stands in the list `input`, the model's choice (log entry 1). -/
def Obligations.FirstErrorSticks : Prop :=
  ∀ (s : State) (w : Word) (rest : List HostEvent), s.Inv → s.phase = .failed → s.input = .cmd w :: rest →
    w ≠ 0x01000000 → w &&& 0xFFFF0000 ≠ 0x30000000 → step s = .next { s with input := rest }

/-- 60_exceptions.md R218: the only ways out of FAILED are CLR and reset, and both put every piece of state at its reset value but
the output lists CLR leaves. What the host presents stands in the list `input`, the model's choice (log entry 1). -/
def Obligations.OnlyClrAndResetLeaveFailed : Prop :=
  ∀ s t : State, s.phase = .failed → step s = .next t → t.phase ≠ .failed →
    (∃ rest, s.input = .cmd 0x01000000 :: rest ∧
      t = { State.reset with mapOut := s.mapOut, dataOut := s.dataOut, textOut := s.textOut, rsp := s.rsp, input := rest }) ∨
    (∃ rest, s.input = .rst :: rest ∧ t = { State.reset with input := rest })

/-- 10_state.md R34: each output list only grows, and only the command named for it appends to it. -/
def Obligations.OutputsOnlyGrow : Prop :=
  ∀ (i : Instr) (s t : State), exec i s = .next t →
    (s.mapOut <+: t.mapOut ∧ (i ≠ .sermap → t.mapOut = s.mapOut)) ∧
    (s.dataOut <+: t.dataOut ∧ ((∀ y, i ≠ .pack y) → t.dataOut = s.dataOut) ∧
      ∃ d, t.dataOut = s.dataOut ++ d ∧ ∀ c ∈ d, c = 0x30 ∨ c = 0x31) ∧
    (s.textOut <+: t.textOut ∧ ((∀ c, i ≠ .bit c) → t.textOut = s.textOut)) ∧
    (s.rsp <+: t.rsp ∧ ((∀ a, i ≠ .rdreg a) → t.rsp = s.rsp))

/-- 60_exceptions.md R213 with 10_state.md R36: `done` rises at a successful ENDDATA only, `fail` falls at CLR or reset only and
rises when an error is raised, and the two are never 1 together. The last clause is the model's reading (DEDUCED, log entry 5): `done`
falls at CLR, at reset and ALSO when an error is raised in DONE, as R36's formula and R216 have it, where the words of R36 and R213
name CLR and reset alone. What the host presents stands in the list `input`, the model's choice (log entry 1). -/
def Obligations.PinsRiseAndFall : Prop :=
  ∀ s t : State, s.Inv → step s = .next t →
    ¬ (t.donePin = true ∧ t.failPin = true) ∧
    (s.donePin = false → t.donePin = true → ∃ rest, s.input = .cmd 0x23000000 :: rest ∧ s.phase = .ready ∧ s.buf = []) ∧
    (s.failPin = true → t.failPin = false →
      ∃ rest, s.input = .cmd 0x01000000 :: rest ∨ s.input = .rst :: rest) ∧
    (s.failPin = false → (t.failPin = true ↔ (s.err = none ∧ t.err ≠ none))) ∧
    (s.donePin = true → t.donePin = false → t.failPin = true ∨ ∃ rest, s.input = .cmd 0x01000000 :: rest ∨ s.input = .rst :: rest)

/-- 60_exceptions.md R215 with 30_encoding.md R96: when the map of a DECODE fails, the whole DECODE ends in that very failure,
whatever the data. What the host presents stands in the list `input`, the model's choice (log entry 1). -/
def Obligations.MapErrorsComeFirst : Prop :=
  ∀ (s t : State) (data map : List Byte),
    runCommands s (.clr :: map.map .ldmap ++ [.endmap]) = .next t → t.phase = .failed →
      (t.err = some .mapfmt ∨ t.err = some .codetbl ∨ t.err = some .capacity) ∧ runCommands s (decodeCommands data map) = .next t

/-! ### Invariants and whole runs -/

/-- 10_state.md R38 holds at reset, with what makes it inductive. -/
def Obligations.ResetMeetsTheInvariant : Prop := State.reset.Inv

/-- 10_state.md R38: every step keeps the invariant, whatever is presented; and (item 8) a step that is in FAILED afterwards has
left BUF as it was. What the host presents stands in the list `input`, the model's choice (log entry 1). -/
def Obligations.StepKeepsTheInvariant : Prop :=
  ∀ s t : State, s.Inv → step s = .next t → t.Inv ∧ (t.phase = .failed → t.buf = s.buf)

/-- 10_state.md R38 in every reachable state: after any number of steps from reset, whatever the host presents. What the host
presents stands in the list `input`, the model's choice (log entry 1). -/
def Obligations.ReachableStatesMeetR38 : Prop :=
  ∀ (events : List HostEvent) (k : Nat),
    ∃ t, Host.Core.run Sys2Proof.core k { State.reset with input := events } = .next t ∧ t.R38

/-- 10_state.md R30: MAPPOS counts the LDMAP commands that raised no error, and is at most 66303. -/
def Obligations.MapposDoesNotOverflow : Prop :=
  ∀ s : State, s.Inv → s.mappos.toNat ≤ 66303 ∧
    ∀ (ch : Byte) (t : State), s.err = none → exec (.ldmap ch) s = .next t →
      (t.err = none → t.mappos.toNat = s.mappos.toNat + 1) ∧ (t.err ≠ none → t.mappos = s.mappos)

/-- 42_code_table_generator.md R136: the string SERMAP appends for a valid table, fed to LDMAP and ENDMAP, is accepted and gives
the table back, entry for entry. What the host presents stands in the list `input`, the model's choice (log entry 1). -/
def Obligations.MapRoundTrip : Prop :=
  ∀ s u : State, s.Inv → s.phase = .ready → ∃ m, exec .sermap s = .next { s with mapOut := s.mapOut ++ m } ∧
    ∃ t, runCommands u (.clr :: m.map .ldmap ++ [.endmap]) = .next t ∧ t.phase = .ready ∧ t.err = none ∧ t.lut = s.lut

/-- 42_code_table_generator.md R136, conversely: for every string LDMAP and ENDMAP accept, SERMAP then appends exactly it. What
the host presents stands in the list `input`, the model's choice (log entry 1). -/
def Obligations.AcceptedMapsAreSerialized : Prop :=
  ∀ (u t : State) (m : List Byte), runCommands u (.clr :: m.map .ldmap ++ [.endmap]) = .next t → t.phase = .ready →
    exec .sermap t = .next { t with mapOut := t.mapOut ++ m }

/-- 45_bit_stream_decoder.md R195: for every text of at most 2^32 - 1 symbols, DECODE of the two strings ENCODE appends ends in
DONE with exactly the text appended to TEXTOUT. What the host presents stands in the list `input`, the model's choice (log entry
1). -/
def Obligations.EncodeThenDecodeGivesTheText : Prop :=
  ∀ (s u : State) (text : List Byte), text.length < 2 ^ 32 →
    ∃ t map data, runCommands s (encodeCommands text) = .next t ∧ t.phase = .ready ∧ t.err = none ∧
      t.mapOut = s.mapOut ++ map ∧ t.dataOut = s.dataOut ++ data ∧
      ∃ v, runCommands u (decodeCommands data map) = .next v ∧ v.phase = .done ∧ v.err = none ∧ v.textOut = u.textOut ++ text
end

