-- ==== Sys2Proof/Laws/State.lean ====
section
/-! SUPPORT. What the named updates of State do to each field: `clearState`, `resetState`, `presenting` and `commit` by unfolding once,
`raise` by its one case split. Later proofs rewrite with these and unfold none of them. -/

namespace Sys2Proof.Machine

section raise
variable (e : ErrCode) (cmd : Word) (s : State)

/-- The first error is recorded whole (60_exceptions.md R216). -/
theorem raise_of_err_none (h : s.err = none) :
    raise e cmd s = { s with err := some e, errinfo := cmd, phase := .failed } := by simp [raise, h]

/-- A later error changes PHASE alone (60_exceptions.md R219). -/
theorem raise_of_err_some (h : s.err ≠ none) : raise e cmd s = { s with phase := .failed } := by
  unfold raise; split <;> simp_all

@[simp] theorem raise_phase : (raise e cmd s).phase = .failed := by unfold raise; split <;> rfl
@[simp] theorem raise_err_ne_none : (raise e cmd s).err ≠ none := by unfold raise; split <;> simp_all
@[simp] theorem raise_pstate : (raise e cmd s).pstate = s.pstate := by unfold raise; split <;> rfl
@[simp] theorem raise_collide : (raise e cmd s).collide = s.collide := by unfold raise; split <;> rfl
@[simp] theorem raise_total : (raise e cmd s).total = s.total := by unfold raise; split <;> rfl
@[simp] theorem raise_nodes : (raise e cmd s).nodes = s.nodes := by unfold raise; split <;> rfl
@[simp] theorem raise_root : (raise e cmd s).root = s.root := by unfold raise; split <;> rfl
@[simp] theorem raise_lut : (raise e cmd s).lut = s.lut := by unfold raise; split <;> rfl
@[simp] theorem raise_cursym : (raise e cmd s).cursym = s.cursym := by unfold raise; split <;> rfl
@[simp] theorem raise_curcode : (raise e cmd s).curcode = s.curcode := by unfold raise; split <;> rfl
@[simp] theorem raise_mappos : (raise e cmd s).mappos = s.mappos := by unfold raise; split <;> rfl
@[simp] theorem raise_buf : (raise e cmd s).buf = s.buf := by unfold raise; split <;> rfl
@[simp] theorem raise_mapOut : (raise e cmd s).mapOut = s.mapOut := by unfold raise; split <;> rfl
@[simp] theorem raise_dataOut : (raise e cmd s).dataOut = s.dataOut := by unfold raise; split <;> rfl
@[simp] theorem raise_textOut : (raise e cmd s).textOut = s.textOut := by unfold raise; split <;> rfl
@[simp] theorem raise_rsp : (raise e cmd s).rsp = s.rsp := by unfold raise; split <;> rfl
@[simp] theorem raise_input : (raise e cmd s).input = s.input := by unfold raise; split <;> rfl
@[simp] theorem raise_ndist : (raise e cmd s).ndist = s.ndist := by unfold raise; split <;> rfl
@[simp] theorem raise_nnodes : (raise e cmd s).nnodes = s.nnodes := by unfold raise; split <;> rfl
@[simp] theorem raise_nent : (raise e cmd s).nent = s.nent := by unfold raise; split <;> rfl

/-- `raise` does not look at what the host has yet to present. -/
theorem raise_with_input (l : List HostEvent) : raise e cmd { s with input := l } = { raise e cmd s with input := l } := by
  unfold raise; split <;> simp_all

end raise

section clear
variable (s : State)

@[simp] theorem clearState_phase : (clearState s).phase = .idle := rfl
@[simp] theorem clearState_pstate : (clearState s).pstate = .start := rfl
@[simp] theorem clearState_err : (clearState s).err = none := rfl
@[simp] theorem clearState_errinfo : (clearState s).errinfo = 0 := rfl
@[simp] theorem clearState_collide : (clearState s).collide = 0 := rfl
@[simp] theorem clearState_total : (clearState s).total = 0 := rfl
@[simp] theorem clearState_nodes : (clearState s).nodes = [] := rfl
@[simp] theorem clearState_root : (clearState s).root = none := rfl
@[simp] theorem clearState_lut : (clearState s).lut = [] := rfl
@[simp] theorem clearState_cursym : (clearState s).cursym = 0 := rfl
@[simp] theorem clearState_curcode : (clearState s).curcode = [] := rfl
@[simp] theorem clearState_mappos : (clearState s).mappos = 0 := rfl
@[simp] theorem clearState_buf : (clearState s).buf = [] := rfl
@[simp] theorem clearState_mapOut : (clearState s).mapOut = s.mapOut := rfl
@[simp] theorem clearState_dataOut : (clearState s).dataOut = s.dataOut := rfl
@[simp] theorem clearState_textOut : (clearState s).textOut = s.textOut := rfl
@[simp] theorem clearState_rsp : (clearState s).rsp = s.rsp := rfl
@[simp] theorem clearState_input : (clearState s).input = s.input := rfl

/-- A reset is CLR with the output lists emptied (70_reset_and_hazards.md R241). -/
theorem resetState_eq_clearState :
    resetState s = { clearState s with mapOut := [], dataOut := [], textOut := [], rsp := [] } := rfl

end clear

section commit
variable (s : State)

@[simp] theorem lutWrite_length_self (lut : List Entry) (e : Entry) : lutWrite lut lut.length e = lut ++ [e] := by
  simp [lutWrite]

/-- `commit()` appends the entry in progress and clears the entry registers (45_bit_stream_decoder.md R184). -/
theorem commit_eq : commit s = { s with lut := s.lut ++ [⟨s.cursym, s.curcode⟩], cursym := 0, curcode := [] } := by
  simp [commit, State.nent]

@[simp] theorem commit_lut : (commit s).lut = s.lut ++ [⟨s.cursym, s.curcode⟩] := by simp [commit_eq]
@[simp] theorem commit_cursym : (commit s).cursym = 0 := rfl
@[simp] theorem commit_curcode : (commit s).curcode = [] := rfl
@[simp] theorem commit_phase : (commit s).phase = s.phase := rfl
@[simp] theorem commit_pstate : (commit s).pstate = s.pstate := rfl
@[simp] theorem commit_err : (commit s).err = s.err := rfl
@[simp] theorem commit_errinfo : (commit s).errinfo = s.errinfo := rfl
@[simp] theorem commit_collide : (commit s).collide = s.collide := rfl
@[simp] theorem commit_total : (commit s).total = s.total := rfl
@[simp] theorem commit_nodes : (commit s).nodes = s.nodes := rfl
@[simp] theorem commit_root : (commit s).root = s.root := rfl
@[simp] theorem commit_mappos : (commit s).mappos = s.mappos := rfl
@[simp] theorem commit_buf : (commit s).buf = s.buf := rfl
@[simp] theorem commit_mapOut : (commit s).mapOut = s.mapOut := rfl
@[simp] theorem commit_dataOut : (commit s).dataOut = s.dataOut := rfl
@[simp] theorem commit_textOut : (commit s).textOut = s.textOut := rfl
@[simp] theorem commit_rsp : (commit s).rsp = s.rsp := rfl
@[simp] theorem commit_input : (commit s).input = s.input := rfl

end commit

section presenting
variable (s : State) (is : List Instr)

@[simp] theorem presenting_input : (s.presenting is).input = is.map (fun i => .cmd (encode i)) := rfl
@[simp] theorem presenting_phase : (s.presenting is).phase = s.phase := rfl
@[simp] theorem presenting_err : (s.presenting is).err = s.err := rfl

end presenting

end Sys2Proof.Machine
end

