-- ==== Sys2Proof/Laws/Ops.lean ====
section
/-! SUPPORT. How a command executes, said once: every meaning is the phase check over the command's own rule, its outcome is always
a next state, and a run of presented commands is the composition of their effects. -/

namespace Sys2Proof.Machine

/-- The command's own rule, step 3 of 40_control.md R104. -/
def own : Instr → State → State
  | .nop => fun s => s
  | .clr => clearState
  | .freq sym => freqOwn sym
  | .build => buildOwn
  | .assign => assignOwn
  | .sermap => fun s => { s with mapOut := s.mapOut ++ serialize s.lut }
  | .pack sym => packOwn sym
  | .ldmap ch => ldmapOwn ch
  | .endmap => endmapOwn
  | .bit ch => bitOwn ch
  | .enddata => enddataOwn
  | .rdreg addr => fun s => { s with rsp := s.rsp ++ [memRead s addr] }

/-- The state after a command (40_control.md R104, steps 2 and 3). -/
def after (i : Instr) (s : State) : State := if legalIn i s.phase then own i s else raise .seq (encode i) s

/-- Every meaning answers a next state, the one `after` names. -/
theorem exec_eq_next (i : Instr) (s : State) : exec i s = .next (after i s) := by cases i <;> rfl

theorem exec_next_iff {i : Instr} {s t : State} : exec i s = .next t ↔ t = after i s := by
  rw [exec_eq_next]; constructor
  · intro h; cases h; rfl
  · rintro rfl; rfl

theorem after_of_legal {i : Instr} {s : State} (h : legalIn i s.phase = true) : after i s = own i s := by simp [after, h]

theorem after_of_illegal {i : Instr} {s : State} (h : legalIn i s.phase = false) : after i s = raise .seq (encode i) s := by
  simp [after, h]

/-- The machine's phase check is the table of 40_control.md R103. -/
theorem legalIn_iff_mem (i : Instr) (p : Phase) : legalIn i p = true ↔ p ∈ legalPhases i := by
  cases i <;> cases p <;> simp [legalIn, legalPhases]

/-- One step, by what is presented next. -/
theorem step_cases {s t : State} (h : step s = .next t) :
    (s.input = [] ∧ t = s) ∨
    (∃ w rest i, s.input = .cmd w :: rest ∧ decode w = some i ∧ t = after i { s with input := rest }) ∨
    (∃ w rest, s.input = .cmd w :: rest ∧ decode w = none ∧ t = raise .illcmd w { s with input := rest }) ∨
    (∃ rest, s.input = .rst :: rest ∧ t = resetState { s with input := rest }) := by
  unfold step at h
  split at h
  · rename_i hi; cases h; exact .inl ⟨hi, rfl⟩
  · rename_i w rest hi
    unfold execWord at h
    split at h
    · rename_i i hd
      exact .inr (.inl ⟨w, rest, i, hi, hd, exec_next_iff.mp h⟩)
    · rename_i hd
      cases h
      exact .inr (.inr (.inl ⟨w, rest, hi, hd, rfl⟩))
  · rename_i rest hi; cases h; exact .inr (.inr (.inr ⟨rest, hi, rfl⟩))

section input
variable (s : State) (l : List HostEvent)

@[simp] theorem ndist_with_input : ({ s with input := l } : State).ndist = s.ndist := rfl
@[simp] theorem nnodes_with_input : ({ s with input := l } : State).nnodes = s.nnodes := rfl
@[simp] theorem nent_with_input : ({ s with input := l } : State).nent = s.nent := rfl

/-- The parser step does not look at what the host has yet to present. -/
theorem parseStep_with_input (ch : Byte) :
    parseStep ch { s with input := l } = (parseStep ch s).map (fun t => { t with input := l }) := by
  unfold parseStep
  cases hp : s.pstate <;>
    simp only [hp, parseSym, parseEsc, parseColon, parseCode0, parseCode, takeSymbol, commit] <;>
    repeat' (first | rfl | split)

theorem finishMap_with_input : finishMap { s with input := l } = { finishMap s with input := l } := by
  unfold finishMap
  cases prefixCheck s.lut with
  | none => rfl
  | some p => simp only [raise]; cases s.err <;> rfl

/-- No command looks at what the host has yet to present. -/
theorem own_with_input (i : Instr) : own i { s with input := l } = { own i s with input := l } := by
  cases i with
  | freq sym => simp only [own, freqOwn]; split <;> simp [raise_with_input]
  | build => rfl
  | assign => simp only [own, assignOwn]; cases s.root <;> rfl
  | pack sym => simp only [own, packOwn]; split <;> simp_all [raise_with_input]
  | ldmap ch =>
    simp only [own, ldmapOwn, parseStep_with_input]
    cases parseStep ch s <;> simp [Except.map, raise_with_input]
  | endmap =>
    obtain ⟨phase, pstate⟩ := s
    cases pstate
    · exact finishMap_with_input _ l
    · exact raise_with_input _ _ _ l
    · exact raise_with_input _ _ _ l
    · exact raise_with_input _ _ _ l
    · exact raise_with_input _ _ _ l
    · exact finishMap_with_input (commit _) l
  | bit ch =>
    simp only [own, bitOwn]
    split
    · simp [raise_with_input]
    · split
      · simp [raise_with_input]
      · split <;> simp_all
  | enddata => simp only [own, enddataOwn]; split <;> simp_all [raise_with_input]
  | nop => rfl
  | clr => rfl
  | sermap => rfl
  | rdreg a => rfl

theorem after_with_input (i : Instr) : after i { s with input := l } = { after i s with input := l } := by
  unfold after; split <;> simp [own_with_input, raise_with_input]

end input

/-- The effect of a list of commands, one after the other. -/
def afterAll (is : List Instr) (s : State) : State := is.foldl (fun s i => after i s) s

@[simp] theorem afterAll_nil (s : State) : afterAll [] s = s := rfl
@[simp] theorem afterAll_cons (i : Instr) (is : List Instr) (s : State) : afterAll (i :: is) s = afterAll is (after i s) := rfl
theorem afterAll_append (is js : List Instr) (s : State) : afterAll (is ++ js) s = afterAll js (afterAll is s) := by
  simp [afterAll]

theorem afterAll_with_input (is : List Instr) (s : State) (l : List HostEvent) :
    afterAll is { s with input := l } = { afterAll is s with input := l } := by
  induction is generalizing s with
  | nil => rfl
  | cons i is ih => simp [after_with_input, ih]

/-- A run is a step and the run from there. -/
theorem run_of_step {s t : State} (h : step s = .next t) (k : Nat) :
    Host.Core.run Sys2Proof.core (k + 1) s = Host.Core.run Sys2Proof.core k t := by
  have h : Sys2Proof.core.step s = .next t := h
  simp only [Host.Core.run, h]

/-- A run of presented commands has the effect of the commands, one after the other, once decoding is known to undo encoding. -/
theorem runCommands_eq (hdec : ∀ i : Instr, decode (encode i) = some i) (s : State) (is : List Instr) :
    runCommands s is = .next { afterAll is s with input := [] } := by
  unfold runCommands State.presenting
  induction is generalizing s with
  | nil => rfl
  | cons i is ih =>
    have h : step { s with input := (i :: is).map (fun j => HostEvent.cmd (encode j)) } =
        .next { after i s with input := is.map (fun j => HostEvent.cmd (encode j)) } := by
      unfold step
      simp only [List.map_cons, execWord, hdec, exec_eq_next, after_with_input]
    rw [List.length_cons, run_of_step h, ih, afterAll_cons]

end Sys2Proof.Machine
end

