-- ==== Sys2Proof/Laws/Commands.lean ====
section
/-! SUPPORT. What each command's own rule can do, said once: one inversion lemma per rule, which later proofs cite in place of
unfolding it. -/

namespace Sys2Proof.Machine

@[simp] theorem bitOf_chr (b : Bool) : bitOf (chr b) = some b := by cases b <;> decide

/-- A character is a bit exactly when it is `'0'` or `'1'` (45_bit_stream_decoder.md R189). -/
theorem bitOf_eq_some {ch : Byte} {b : Bool} : bitOf ch = some b ↔ ch = chr b := by
  constructor
  · intro h
    unfold bitOf at h
    split_ifs at h with h0 h1 <;> simp_all [chr]
  · rintro rfl; exact bitOf_chr b

theorem bitOf_eq_none {ch : Byte} : bitOf ch = none ↔ ch ≠ chZero ∧ ch ≠ chOne := by
  unfold bitOf; split_ifs <;> simp_all

/-- FREQ's own rule (41_tree_builder.md R110). -/
theorem freqOwn_cases (sym : Byte) (s : State) :
    (s.total = Config.totalMax ∧ freqOwn sym s = raise .capacity (encode (.freq sym)) s) ∨
    (s.total ≠ Config.totalMax ∧
      freqOwn sym s = { s with nodes := countSym sym s.nodes, total := s.total + 1, phase := .count }) := by
  unfold freqOwn; split_ifs with h
  · exact .inl ⟨h, rfl⟩
  · exact .inr ⟨h, rfl⟩

/-- ASSIGN's own rule (42_code_table_generator.md R130). -/
theorem assignOwn_cases (s : State) :
    (s.root = none ∧ assignOwn s = { s with phase := .ready }) ∨
    (∃ r, s.root = some r ∧ assignOwn s = { s with lut := assignTable s.nodes s.ndist r.toNat, phase := .ready }) := by
  unfold assignOwn; split
  · rename_i h; exact .inl ⟨h, rfl⟩
  · rename_i r h; exact .inr ⟨r, h, rfl⟩

/-- PACK's own rule (44_bit_packer.md R170). -/
theorem packOwn_cases (sym : Byte) (s : State) :
    (lookupSym s.lut sym = none ∧ packOwn sym s = raise .nosym (encode (.pack sym)) s) ∨
    (∃ e, lookupSym s.lut sym = some e ∧ packOwn sym s = { s with dataOut := s.dataOut ++ str e.code }) := by
  unfold packOwn; split
  · rename_i h; exact .inl ⟨h, rfl⟩
  · rename_i e h; exact .inr ⟨e, h, rfl⟩

/-- `take_symbol` (45_bit_stream_decoder.md R183, R185). -/
theorem takeSymbol_cases (sym : Byte) (s : State) :
    ((∃ e, lookupSym s.lut sym = some e) ∧ takeSymbol sym s = .error .mapfmt) ∨
    (lookupSym s.lut sym = none ∧ takeSymbol sym s = .ok { s with cursym := sym, curcode := [], pstate := .colon }) := by
  unfold takeSymbol; split
  · rename_i e h; exact .inl ⟨⟨e, h⟩, rfl⟩
  · rename_i h; exact .inr ⟨h, rfl⟩

/-- A parser step that is accepted is one of five moves (45_bit_stream_decoder.md R183). -/
theorem parseStep_ok {ch : Byte} {s t : State} (h : parseStep ch s = .ok t) :
    ((s.pstate = .start ∨ s.pstate = .sym) ∧ ch = chBackslash ∧ t = { s with pstate := .esc }) ∨
    ((((s.pstate = .start ∨ s.pstate = .sym) ∧ isSpecial ch = false) ∨ (s.pstate = .esc ∧ isSpecial ch = true)) ∧
      lookupSym s.lut ch = none ∧ t = { s with cursym := ch, curcode := [], pstate := .colon }) ∨
    (s.pstate = .colon ∧ ch = chColon ∧ t = { s with pstate := .code0 }) ∨
    (∃ b, ch = chr b ∧
      ((s.pstate = .code0 ∧ t = { s with curcode := [b], pstate := .code }) ∨
       (s.pstate = .code ∧ s.curcode.length ≠ Config.codeLenMax ∧ t = { s with curcode := s.curcode ++ [b] }))) ∨
    (s.pstate = .code ∧ ch = chComma ∧
      t = { s with lut := s.lut ++ [⟨s.cursym, s.curcode⟩], cursym := 0, curcode := [], pstate := .sym }) := by
  have hsym (hp : s.pstate = .start ∨ s.pstate = .sym) (h : parseSym ch s = .ok t) :
      ((s.pstate = .start ∨ s.pstate = .sym) ∧ ch = chBackslash ∧ t = { s with pstate := .esc }) ∨
      ((((s.pstate = .start ∨ s.pstate = .sym) ∧ isSpecial ch = false) ∨ (s.pstate = .esc ∧ isSpecial ch = true)) ∧
        lookupSym s.lut ch = none ∧ t = { s with cursym := ch, curcode := [], pstate := .colon }) := by
    unfold parseSym at h
    split_ifs at h with h1 h2
    · cases h; exact .inl ⟨hp, h1, rfl⟩
    · rcases takeSymbol_cases ch s with ⟨-, ht⟩ | ⟨hl, ht⟩ <;> rw [ht] at h <;> cases h
      exact .inr ⟨.inl ⟨hp, by simpa using h2⟩, hl, rfl⟩
  unfold parseStep at h
  split at h <;> rename_i hp
  · rcases hsym (.inl hp) h with h | h
    · exact .inl h
    · exact .inr (.inl h)
  · rcases hsym (.inr hp) h with h | h
    · exact .inl h
    · exact .inr (.inl h)
  · unfold parseEsc at h
    split_ifs at h with h1
    rcases takeSymbol_cases ch s with ⟨-, ht⟩ | ⟨hl, ht⟩ <;> rw [ht] at h <;> cases h
    exact .inr (.inl ⟨.inr ⟨hp, h1⟩, hl, rfl⟩)
  · unfold parseColon at h
    split_ifs at h with h1
    cases h
    exact .inr (.inr (.inl ⟨hp, h1, rfl⟩))
  · unfold parseCode0 at h
    split at h
    · rename_i b hb
      cases h
      exact .inr (.inr (.inr (.inl ⟨b, bitOf_eq_some.mp hb, .inl ⟨hp, rfl⟩⟩)))
    · cases h
  · unfold parseCode at h
    split at h
    · rename_i b hb
      split_ifs at h with h1
      cases h
      exact .inr (.inr (.inr (.inl ⟨b, bitOf_eq_some.mp hb, .inr ⟨hp, h1, rfl⟩⟩)))
    · split_ifs at h with h1
      cases h
      exact .inr (.inr (.inr (.inr ⟨hp, h1, by simp [commit_eq]⟩)))

/-- A parser step raises E_MAPFMT, or E_CAPACITY on the 256th code character (45_bit_stream_decoder.md R183, R187). -/
theorem parseStep_error {ch : Byte} {s : State} {e : ErrCode} (h : parseStep ch s = .error e) :
    e = .mapfmt ∨ (e = .capacity ∧ s.pstate = .code ∧ s.curcode.length = Config.codeLenMax) := by
  unfold parseStep at h
  split at h <;> rename_i hp <;>
    simp only [parseSym, parseEsc, parseColon, parseCode0, parseCode, takeSymbol] at h <;>
    repeat' split at h
  all_goals first
    | (cases h; done)
    | (cases h; exact .inl rfl)
    | (cases h; exact .inr ⟨rfl, hp, by assumption⟩)

/-- LDMAP's own rule (45_bit_stream_decoder.md R182). -/
theorem ldmapOwn_cases (ch : Byte) (s : State) :
    (∃ e, parseStep ch s = .error e ∧ ldmapOwn ch s = raise e (encode (.ldmap ch)) s) ∨
    (∃ t, parseStep ch s = .ok t ∧ ldmapOwn ch s = { t with mappos := s.mappos + 1, phase := .mapload }) := by
  unfold ldmapOwn; split
  · rename_i e h; exact .inl ⟨e, h, rfl⟩
  · rename_i t h; exact .inr ⟨t, h, rfl⟩

/-- The second half of ENDMAP (45_bit_stream_decoder.md R186). -/
theorem finishMap_cases (s : State) :
    (prefixCheck s.lut = none ∧ finishMap s = { s with pstate := .start, buf := [], phase := .ready }) ∨
    (∃ i j, prefixCheck s.lut = some (i, j) ∧
      finishMap s = raise .codetbl (encode .endmap) { s with pstate := .start, collide := collideWord i j }) := by
  unfold finishMap; split
  · rename_i i j h; exact .inr ⟨i, j, h, rfl⟩
  · rename_i h; exact .inl ⟨h, rfl⟩

/-- ENDMAP's own rule (45_bit_stream_decoder.md R186). -/
theorem endmapOwn_cases (s : State) :
    (s.pstate = .start ∧ endmapOwn s = finishMap s) ∨
    (s.pstate = .code ∧ endmapOwn s =
      finishMap { s with lut := s.lut ++ [⟨s.cursym, s.curcode⟩], cursym := 0, curcode := [] }) ∨
    (s.pstate ≠ .start ∧ s.pstate ≠ .code ∧ endmapOwn s = raise .mapfmt (encode .endmap) s) := by
  unfold endmapOwn; split <;> rename_i h
  · exact .inl ⟨h, rfl⟩
  · exact .inr (.inl ⟨h, by rw [commit_eq]⟩)
  all_goals exact .inr (.inr ⟨by simp [h], by simp [h], rfl⟩)

/-- BIT's own rule (45_bit_stream_decoder.md R189). -/
theorem bitOwn_cases (ch : Byte) (s : State) :
    ((bitOf ch = none ∨ s.buf.length = Config.codeLenMax) ∧ bitOwn ch s = raise .bitseq (encode (.bit ch)) s) ∨
    (∃ b, ch = chr b ∧ s.buf.length ≠ Config.codeLenMax ∧
      ((∃ e, lookupCode s.lut (s.buf ++ [b]) = some e ∧
          bitOwn ch s = { s with textOut := s.textOut ++ [e.sym], buf := [] }) ∨
       (lookupCode s.lut (s.buf ++ [b]) = none ∧ bitOwn ch s = { s with buf := s.buf ++ [b] }))) := by
  unfold bitOwn; split
  · rename_i h; exact .inl ⟨.inl h, rfl⟩
  · rename_i b hb
    split_ifs with h
    · exact .inl ⟨.inr h, rfl⟩
    · refine .inr ⟨b, bitOf_eq_some.mp hb, h, ?_⟩
      split
      · rename_i e he; exact .inl ⟨e, he, rfl⟩
      · rename_i he; exact .inr ⟨he, rfl⟩

/-- ENDDATA's own rule (45_bit_stream_decoder.md R193). -/
theorem enddataOwn_cases (s : State) :
    (s.buf = [] ∧ enddataOwn s = { s with phase := .done }) ∨
    (s.buf ≠ [] ∧ enddataOwn s = raise .bitseq (encode .enddata) s) := by
  unfold enddataOwn; split_ifs with h
  · exact .inl ⟨h, rfl⟩
  · exact .inr ⟨h, rfl⟩

/-- BUILD's own rule (41_tree_builder.md R112). -/
theorem buildOwn_eq (s : State) : buildOwn s =
    { s with nodes := (buildLoop s.ndist (List.range s.ndist) s.nodes).2,
             root := rootOf (buildLoop s.ndist (List.range s.ndist) s.nodes).1, phase := .built } := rfl

/-- A command out of its phases raises E_SEQ (40_control.md R103). -/
theorem after_of_not_mem {i : Instr} {s : State} (h : s.phase ∉ legalPhases i) : after i s = raise .seq (encode i) s := by
  apply after_of_illegal; rw [← legalIn_iff_mem] at h; simpa using h

/-- A command in its phases follows its own rule. -/
theorem after_of_mem {i : Instr} {s : State} (h : s.phase ∈ legalPhases i) : after i s = own i s := by
  apply after_of_legal; rwa [← legalIn_iff_mem] at h

/-- What a command's own rule leaves of the error registers and the phase: nothing raised and the phase of the table, CLR, or an error
of the command's own, raised from the state before it but for what ENDMAP commits (60_exceptions.md R211, R216). -/
theorem own_outcome (i : Instr) (s : State) :
    ((own i s).err = s.err ∧ (own i s).phase = phaseAfter i s.phase) ∨ (i = .clr ∧ own i s = clearState s) ∨ 
    (∃ e u, own i s = raise e (encode i) u ∧ u.err = s.err ∧ e ∈ ownErrors i ∧ (u = s ∨ (i = .endmap ∧ e = .codetbl ∧ 
        u = { s with lut := u.lut, pstate := u.pstate, cursym := u.cursym, curcode := u.curcode, collide := u.collide }))) 
    ∨ (own i s).phase = s.phase ∧ s.phase ∉ legalPhases i := by
  cases i with
  | nop => exact .inl ⟨rfl, rfl⟩
  | clr => exact .inr (.inl ⟨rfl, rfl⟩)
  | freq sym =>
    rcases freqOwn_cases sym s with ⟨-, h⟩ | ⟨-, h⟩ <;> rw [own, h]
    · exact .inr (.inr (.inl ⟨_, _, rfl, rfl, by simp [ownErrors], .inl rfl⟩))
    · exact .inl ⟨rfl, rfl⟩
  | build => exact .inl ⟨rfl, rfl⟩
  | assign => rcases assignOwn_cases s with ⟨-, h⟩ | ⟨r, -, h⟩ <;> rw [own, h] <;> exact .inl ⟨rfl, rfl⟩
  | sermap => 
    by_cases hp : s.phase = .ready
    · exact .inl ⟨rfl, hp⟩
    · exact .inr (.inr (.inr ⟨rfl, by simp [legalPhases, hp]⟩))
  | pack sym =>
    rcases packOwn_cases sym s with ⟨-, h⟩ | ⟨e, -, h⟩ <;> rw [own, h]
    · exact .inr (.inr (.inl ⟨_, _, rfl, rfl, by simp [ownErrors], .inl rfl⟩))
    · by_cases hp : s.phase = .ready
      · exact .inl ⟨rfl, hp⟩
      · exact .inr (.inr (.inr ⟨rfl, by simp [legalPhases, hp]⟩))
  | ldmap ch =>
    rcases ldmapOwn_cases ch s with ⟨e, he, h⟩ | ⟨t, ht, h⟩ <;> rw [own, h]
    · refine .inr (.inr (.inl ⟨_, _, rfl, rfl, ?_, .inl rfl⟩))
      rcases parseStep_error he with rfl | ⟨rfl, -⟩ <;> simp [ownErrors]
    · refine .inl ⟨?_, rfl⟩
      rcases parseStep_ok ht with ⟨_, _, rfl⟩ | ⟨_, _, rfl⟩ | ⟨_, _, rfl⟩ | ⟨b, _, ⟨_, rfl⟩ | ⟨_, _, rfl⟩⟩ | ⟨_, _, rfl⟩ <;> rfl
  | endmap =>
    have fin (u : State) (hu : u.err = s.err) (hu' : u = { s with lut := u.lut, pstate := u.pstate, cursym := u.cursym, curcode := u.curcode, collide := u.collide }) : 
        ((finishMap u).err = s.err ∧ (finishMap u).phase = .ready) ∨ 
        (∃ e v, finishMap u = raise e (encode .endmap) v ∧ v.err = s.err ∧ e ∈ ownErrors .endmap ∧ (v = s ∨ ((.endmap : Instr) = .endmap ∧ e = .codetbl ∧ 
        v = { s with lut := v.lut, pstate := v.pstate, cursym := v.cursym, curcode := v.curcode, collide := v.collide }))) := by
      rcases finishMap_cases u with ⟨-, h⟩ | ⟨a, b, -, h⟩ <;> rw [h]
      · exact .inl ⟨hu, rfl⟩
      · refine .inr ⟨_, _, rfl, hu, by simp [ownErrors], .inr ⟨rfl, rfl, ?_⟩⟩
        rw [hu']
    rcases endmapOwn_cases s with ⟨_, h⟩ | ⟨_, h⟩ | ⟨_, _, h⟩ <;> rw [own, h]
    · rcases fin s rfl rfl with h | h
      · exact .inl h
      · exact .inr (.inr (.inl h))
    · rcases fin { s with lut := s.lut ++ [⟨s.cursym, s.curcode⟩], cursym := 0, curcode := [] } rfl rfl with h | h
      · exact .inl h
      · exact .inr (.inr (.inl h))
    · exact .inr (.inr (.inl ⟨_, _, rfl, rfl, by simp [ownErrors], .inl rfl⟩))
  | bit ch =>
    rcases bitOwn_cases ch s with ⟨-, h⟩ | ⟨b, -, -, ⟨e, -, h⟩ | ⟨-, h⟩⟩ <;> rw [own, h]
    · exact .inr (.inr (.inl ⟨_, _, rfl, rfl, by simp [ownErrors], .inl rfl⟩))
    · by_cases hp : s.phase = .ready
      · exact .inl ⟨rfl, hp⟩
      · exact .inr (.inr (.inr ⟨rfl, by simp [legalPhases, hp]⟩))
    · by_cases hp : s.phase = .ready
      · exact .inl ⟨rfl, hp⟩
      · exact .inr (.inr (.inr ⟨rfl, by simp [legalPhases, hp]⟩))
  | enddata =>
    rcases enddataOwn_cases s with ⟨-, h⟩ | ⟨-, h⟩ <;> rw [own, h]
    · exact .inl ⟨rfl, rfl⟩
    · exact .inr (.inr (.inl ⟨_, _, rfl, rfl, by simp [ownErrors], .inl rfl⟩))
  | rdreg a => exact .inl ⟨rfl, rfl⟩

/-- A meaning in its phases answers the state its own rule gives. -/
theorem exec_of_mem {i : Instr} {s : State} (h : s.phase ∈ legalPhases i) : exec i s = .next (own i s) := by
  rw [exec_eq_next, after_of_mem h]

end Sys2Proof.Machine
end

