-- ==== Sys2Proof/Laws/Arena.lean ====
section
/-! SUPPORT. The arena as a list: its leaves, its weights, and what FREQ's `countSym` does to them (41_tree_builder.md R110, R111). -/

namespace Sys2Proof.Machine

@[simp] theorem leafSyms_nil : leafSyms [] = [] := rfl
@[simp] theorem leafSyms_leaf (s w ns) : leafSyms (.leaf s w :: ns) = s :: leafSyms ns := rfl
@[simp] theorem leafSyms_internal (w l r ns) : leafSyms (.internal w l r :: ns) = leafSyms ns := rfl
@[simp] theorem leafWeights_nil : leafWeights [] = [] := rfl
@[simp] theorem leafWeights_leaf (s w ns) : leafWeights (.leaf s w :: ns) = w.toNat :: leafWeights ns := rfl
@[simp] theorem leafWeights_internal (w l r ns) : leafWeights (.internal w l r :: ns) = leafWeights ns := rfl

theorem leafSyms_append (a b : List Node) : leafSyms (a ++ b) = leafSyms a ++ leafSyms b := by
  induction a with
  | nil => rfl
  | cons n a ih => cases n <;> simp [ih]

theorem leafWeights_append (a b : List Node) : leafWeights (a ++ b) = leafWeights a ++ leafWeights b := by
  induction a with
  | nil => rfl
  | cons n a ih => cases n <;> simp [ih]

/-- The number of leaves of an arena. -/
def leafCount (nodes : List Node) : Nat := nodes.countP Node.isLeaf

theorem ndist_eq (s : State) : s.ndist = leafCount s.nodes := rfl
@[simp] theorem leafCount_nil : leafCount [] = 0 := rfl
@[simp] theorem leafCount_leaf (s w ns) : leafCount (.leaf s w :: ns) = leafCount ns + 1 := by
  simp [leafCount, List.countP_cons, Node.isLeaf]
@[simp] theorem leafCount_internal (w l r ns) : leafCount (.internal w l r :: ns) = leafCount ns := by
  simp [leafCount, Node.isLeaf]
theorem leafCount_append (a b : List Node) : leafCount (a ++ b) = leafCount a + leafCount b := by simp [leafCount]
theorem leafCount_le_length (nodes : List Node) : leafCount nodes ≤ nodes.length := List.countP_le_length

/-- All slots are leaves exactly when there are as many leaves as slots. -/
theorem leafCount_eq_length_iff {nodes : List Node} : leafCount nodes = nodes.length ↔ ∀ n ∈ nodes, n.isLeaf = true :=
  List.countP_eq_length

theorem leafSyms_length (nodes : List Node) : (leafSyms nodes).length = leafCount nodes := by
  induction nodes with
  | nil => rfl
  | cons n a ih => cases n <;> simp [ih]

theorem leafWeights_length (nodes : List Node) : (leafWeights nodes).length = leafCount nodes := by
  induction nodes with
  | nil => rfl
  | cons n a ih => cases n <;> simp [ih]

theorem mem_leafSyms {sym : Byte} {nodes : List Node} : sym ∈ leafSyms nodes ↔ ∃ w, Node.leaf sym w ∈ nodes := by
  induction nodes with
  | nil => simp
  | cons n a ih =>
    cases n with
    | leaf s w => simp only [leafSyms_leaf, List.mem_cons, ih, Node.leaf.injEq]; aesop
    | internal w l r => simp [ih]

theorem mem_leafWeights {n : Nat} {nodes : List Node} : n ∈ leafWeights nodes ↔ ∃ sym w, Node.leaf sym w ∈ nodes ∧ w.toNat = n := by
  induction nodes with
  | nil => simp
  | cons m a ih =>
    cases m with
    | leaf s w => simp only [leafWeights_leaf, List.mem_cons, ih, Node.leaf.injEq]; aesop
    | internal w l r => simp [ih]

/-- Bytes without a repeat are at most 256. -/
theorem nodup_bytes_length {l : List Byte} (h : l.Nodup) : l.length ≤ 256 := by
  have h2 : (l.map BitVec.toNat).Nodup := h.map (fun a b hab => BitVec.eq_of_toNat_eq hab)
  have h3 : (l.map BitVec.toNat).Subperm (List.range 256) := by
    apply List.subperm_of_subset h2
    intro n hn
    obtain ⟨b, -, rfl⟩ := List.mem_map.mp hn
    exact List.mem_range.mpr b.isLt
  simpa using h3.length_le

/-- FREQ of a symbol that has a leaf: that leaf, and nothing else, gains one. -/
theorem countSym_of_mem {sym : Byte} {nodes : List Node} (h : sym ∈ leafSyms nodes) :
    ∃ a w b, nodes = a ++ .leaf sym w :: b ∧ sym ∉ leafSyms a ∧ countSym sym nodes = a ++ .leaf sym (w + 1) :: b := by
  induction nodes with
  | nil => simp at h
  | cons n ns ih =>
    cases n with
    | leaf t w =>
      by_cases ht : t = sym
      · subst ht; exact ⟨[], w, ns, rfl, by simp, by simp [countSym]⟩
      · obtain ⟨a, v, b, h1, h2, h3⟩ := ih (by simpa [Ne.symm ht] using h)
        exact ⟨.leaf t w :: a, v, b, by simp [h1], by simp [h2, Ne.symm ht], by simp [countSym, ht, h3]⟩
    | internal w l r =>
      obtain ⟨a, v, b, h1, h2, h3⟩ := ih (by simpa using h)
      exact ⟨.internal w l r :: a, v, b, by simp [h1], by simp [h2], by simp [countSym, h3]⟩

/-- FREQ of a new symbol: a leaf of weight 1 is appended. -/
theorem countSym_of_not_mem {sym : Byte} {nodes : List Node} (h : sym ∉ leafSyms nodes) :
    countSym sym nodes = nodes ++ [.leaf sym 1] := by
  induction nodes with
  | nil => rfl
  | cons n ns ih =>
    cases n with
    | leaf t w =>
      have ht : t ≠ sym := fun e => h (by simp [e])
      simp [countSym, ht, ih (by simp_all)]
    | internal w l r => simp [countSym, ih (by simpa using h)]

theorem leafSyms_countSym (sym : Byte) (nodes : List Node) :
    leafSyms (countSym sym nodes) = if sym ∈ leafSyms nodes then leafSyms nodes else leafSyms nodes ++ [sym] := by
  split_ifs with h
  · obtain ⟨a, w, b, h1, -, h3⟩ := countSym_of_mem h
    rw [h3, h1]; simp [leafSyms_append]
  · rw [countSym_of_not_mem h]; simp [leafSyms_append]

theorem countSym_all_leaves {sym : Byte} {nodes : List Node} (h : ∀ n ∈ nodes, n.isLeaf = true) :
    ∀ n ∈ countSym sym nodes, n.isLeaf = true := by
  by_cases hm : sym ∈ leafSyms nodes
  · obtain ⟨a, w, b, h1, -, h3⟩ := countSym_of_mem hm
    rw [h3]; subst h1
    intro n hn
    simp only [List.mem_append, List.mem_cons] at hn h
    rcases hn with hn | rfl | hn
    · exact h n (.inl hn)
    · rfl
    · exact h n (.inr (.inr hn))
  · rw [countSym_of_not_mem hm]
    intro n hn
    rcases List.mem_append.mp hn with hn | hn
    · exact h n hn
    · simp at hn; subst hn; rfl

/-- FREQ adds one to the sum of the leaf weights, as long as the leaf does not wrap. -/
theorem leafWeights_sum_countSym {sym : Byte} {nodes : List Node} (h : (leafWeights nodes).sum < 2 ^ 32 - 1) :
    (leafWeights (countSym sym nodes)).sum = (leafWeights nodes).sum + 1 := by
  by_cases hm : sym ∈ leafSyms nodes
  · obtain ⟨a, w, b, h1, -, h3⟩ := countSym_of_mem hm
    rw [h3]; subst h1
    simp only [leafWeights_append, leafWeights_leaf, List.sum_append, List.sum_cons] at h ⊢
    have : (w + 1).toNat = w.toNat + 1 := by rw [BitVec.toNat_add]; simp; omega
    omega
  · rw [countSym_of_not_mem hm]; simp [leafWeights_append]

theorem leafWeights_pos_countSym {sym : Byte} {nodes : List Node} (h : (leafWeights nodes).sum < 2 ^ 32 - 1)
    (hp : ∀ w ∈ leafWeights nodes, 1 ≤ w) : ∀ w ∈ leafWeights (countSym sym nodes), 1 ≤ w := by
  by_cases hm : sym ∈ leafSyms nodes
  · obtain ⟨a, w, b, h1, -, h3⟩ := countSym_of_mem hm
    rw [h3]; subst h1
    simp only [leafWeights_append, leafWeights_leaf, List.sum_append, List.sum_cons] at h hp ⊢
    have hw : (w + 1).toNat = w.toNat + 1 := by rw [BitVec.toNat_add]; simp; omega
    intro v hv
    simp only [List.mem_append, List.mem_cons] at hv hp
    rcases hv with hv | rfl | hv
    · exact hp v (.inl hv)
    · omega
    · exact hp v (.inr (.inr hv))
  · rw [countSym_of_not_mem hm]
    intro v hv
    simp only [leafWeights_append, List.mem_append] at hv
    rcases hv with hv | hv
    · exact hp v hv
    · simp at hv; omega

end Sys2Proof.Machine
end

