-- ==== Sys2Proof/Laws/Decode.lean ====
section
/-! SUPPORT. The fields of a command word and of its encoding (30_encoding.md R80, R81), and what a decoded word is made of. -/

namespace Sys2Proof

theorem cmd32_getLsbD (op : Byte) (arg : Addr) (n : Nat) :
    (cmd32 op arg).getLsbD n = if n < 16 then arg.getLsbD n else if n < 24 then false else op.getLsbD (n - 24) := by
  have : (cmd32 op arg).getLsbD n = (op ++ 0#8 ++ arg : BitVec (8 + 8 + 16)).getLsbD n := rfl
  rw [this]
  simp only [BitVec.getLsbD_append, BitVec.getLsbD_zero]
  split_ifs <;> first | rfl | (exfalso; omega)

theorem zeroByte_getLsbD (b : Byte) (n : Nat) : (0#8 ++ b : Addr).getLsbD n = b.getLsbD n := by
  have : (0#8 ++ b : Addr).getLsbD n = (0#8 ++ b : BitVec (8+8)).getLsbD n := rfl
  rw [this, BitVec.getLsbD_append]
  split
  · rfl
  · rw [BitVec.getLsbD_of_ge b n (by omega)]; simp

theorem opField_getLsbD (w : Word) (n : Nat) : (opField w).getLsbD n = (decide (n < 8) && w.getLsbD (24 + n)) := by
  simp [opField, BitVec.getLsbD_extractLsb']

theorem rsvField_getLsbD (w : Word) (n : Nat) : (rsvField w).getLsbD n = (decide (n < 8) && w.getLsbD (16 + n)) := by
  simp [rsvField, BitVec.getLsbD_extractLsb']

theorem argField_getLsbD (w : Word) (n : Nat) : (argField w).getLsbD n = (decide (n < 16) && w.getLsbD n) := by
  simp [argField, BitVec.getLsbD_extractLsb']

theorem opField_cmd32 (op : Byte) (arg : Addr) : opField (cmd32 op arg) = op := by
  apply BitVec.eq_of_getLsbD_eq; intro n hn
  rw [opField_getLsbD, cmd32_getLsbD, if_neg (by omega), if_neg (by omega)]; simp [hn]

theorem rsvField_cmd32 (op : Byte) (arg : Addr) : rsvField (cmd32 op arg) = 0 := by
  apply BitVec.eq_of_getLsbD_eq; intro n hn
  rw [rsvField_getLsbD, cmd32_getLsbD, if_neg (by omega), if_pos (by omega)]; simp

theorem argField_cmd32 (op : Byte) (arg : Addr) : argField (cmd32 op arg) = arg := by
  apply BitVec.eq_of_getLsbD_eq; intro n hn
  rw [argField_getLsbD, cmd32_getLsbD, if_pos hn]; simp [hn]

theorem cmd32_fields (w : Word) (h : rsvField w = 0) : cmd32 (opField w) (argField w) = w := by
  apply BitVec.eq_of_getLsbD_eq; intro n hn
  rw [cmd32_getLsbD]
  split
  · rw [argField_getLsbD]; simp [*]
  · split
    · have := congrArg (fun v => BitVec.getLsbD v (n - 16)) h
      simp only [rsvField_getLsbD] at this
      rw [show 16 + (n - 16) = n by omega] at this
      simp at this
      rw [this (by omega)]
    · rw [opField_getLsbD, show 24 + (n - 24) = n by omega]; simp; omega

theorem hi_zeroByte (b : Byte) : (0#8 ++ b : Addr).extractLsb' 8 8 = 0 := by
  apply BitVec.eq_of_getLsbD_eq; intro n hn
  rw [BitVec.getLsbD_extractLsb', zeroByte_getLsbD, BitVec.getLsbD_of_ge b _ (by omega)]; simp

theorem lo_zeroByte (b : Byte) : (0#8 ++ b : Addr).extractLsb' 0 8 = b := by
  apply BitVec.eq_of_getLsbD_eq; intro n hn
  rw [BitVec.getLsbD_extractLsb', zeroByte_getLsbD]; simp [hn]

theorem zeroByte_lo (a : Addr) (h : a.extractLsb' 8 8 = 0) : (0#8 ++ a.extractLsb' 0 8 : Addr) = a := by
  apply BitVec.eq_of_getLsbD_eq; intro n hn
  rw [zeroByte_getLsbD, BitVec.getLsbD_extractLsb']
  by_cases h8 : n < 8
  · simp [h8]
  · have := congrArg (fun v => BitVec.getLsbD v (n - 8)) h
    simp only [BitVec.getLsbD_extractLsb'] at this
    rw [show 8 + (n - 8) = n by omega] at this
    simp at this
    rw [this (by omega)]; simp [h8]

theorem decode_eq_some {w : Word} {i : Instr} (h : decode w = some i) :
    rsvField w = 0 ∧ decodeOperand (opField w) (argField w) = .ok i := by
  unfold decode decodeWord at h
  by_cases hr : rsvField w = 0
  · rw [if_pos hr] at h
    refine ⟨hr, ?_⟩
    cases hd : decodeOperand (opField w) (argField w) <;> simp_all
  · rw [if_neg hr] at h; simp at h

theorem decode_cmd32 (op : Byte) (arg : Addr) : decode (cmd32 op arg) = (decodeOperand op arg).toOption := by
  unfold decode decodeWord
  rw [if_pos (rsvField_cmd32 op arg), opField_cmd32, argField_cmd32]
  cases decodeOperand op arg <;> rfl

/-- A command word with a symbol or character operand is the command's word with the operand in its low byte (30_encoding.md R81). -/
theorem cmd32_byte (op b : Byte) : cmd32 op (0#8 ++ b) = cmd32 op 0 ||| b.zeroExtend 32 := by
  apply BitVec.eq_of_getLsbD_eq; intro n hn
  rw [BitVec.getLsbD_or, cmd32_getLsbD, cmd32_getLsbD, zeroByte_getLsbD, BitVec.getLsbD_setWidth]
  by_cases h8 : n < 8
  · simp [hn, show n < 16 by omega]
  · simp [BitVec.getLsbD_of_ge b n (by omega)]

/-- A command word with an address operand is the command's word with the operand in its low half (30_encoding.md R81). -/
theorem cmd32_addr (op : Byte) (arg : Addr) : cmd32 op arg = cmd32 op 0 ||| arg.zeroExtend 32 := by
  apply BitVec.eq_of_getLsbD_eq; intro n hn
  rw [BitVec.getLsbD_or, cmd32_getLsbD, cmd32_getLsbD, BitVec.getLsbD_setWidth]
  by_cases h : n < 16
  · simp [hn, h]
  · simp [h, BitVec.getLsbD_of_ge arg n (by omega)]

end Sys2Proof
end

