-- ==== Sys2Proof/Laws/Table.lean ====
section
/-! SUPPORT. The LUT primitives (43_code_lut.md R151 to R154): what a lookup finds, what the prefix check decides, and what a list of
writes leaves. -/

namespace Sys2Proof.Machine

/-! ### Lookups (R152, R153) -/

theorem lookupSym_mem {lut : List Entry} {sym : Byte} {e : Entry} (h : lookupSym lut sym = some e) : e ∈ lut ∧ e.sym = sym :=
  ⟨List.mem_of_find?_eq_some h, by simpa using List.find?_some h⟩

theorem lookupCode_mem {lut : List Entry} {c : Code} {e : Entry} (h : lookupCode lut c = some e) : e ∈ lut ∧ e.code = c :=
  ⟨List.mem_of_find?_eq_some h, by simpa using List.find?_some h⟩

theorem lookupSym_eq_none {lut : List Entry} {sym : Byte} : lookupSym lut sym = none ↔ ∀ e ∈ lut, e.sym ≠ sym := by
  simp [lookupSym]

theorem lookupCode_eq_none {lut : List Entry} {c : Code} : lookupCode lut c = none ↔ ∀ e ∈ lut, e.code ≠ c := by
  simp [lookupCode]

/-- Where no symbol stands twice, looking up an entry's symbol finds that entry. -/
theorem lookupSym_of_mem {lut : List Entry} (h : (lut.map Entry.sym).Nodup) {e : Entry} (he : e ∈ lut) :
    lookupSym lut e.sym = some e := by
  cases hl : lookupSym lut e.sym with
  | none => exact absurd rfl (lookupSym_eq_none.mp hl e he)
  | some f =>
    obtain ⟨hf, hs⟩ := lookupSym_mem hl
    rw [List.inj_on_of_nodup_map h hf he hs]

/-! ### Colliding codes (R154) -/

theorem isPrefix_iff {a b : Code} : isPrefix a b = true ↔ a <+: b := by simp [isPrefix]

theorem clash_iff {a b : Code} : clash a b = true ↔ a <+: b ∨ b <+: a := by simp [clash, isPrefix_iff]

theorem clash_eq_false {a b : Code} : clash a b = false ↔ ¬ a <+: b ∧ ¬ b <+: a := by
  rw [← Bool.not_eq_true, clash_iff]; tauto

theorem clash_comm (a b : Code) : clash a b = clash b a := by simp [clash, Bool.or_comm]

/-- In a prefix-free table no code of an entry is a prefix of another entry's. -/
theorem PrefixFree.not_prefix {lut : List Entry} (h : PrefixFree lut) {i j : Nat} {e f : Entry} (hij : i ≠ j)
    (hi : lut[i]? = some e) (hj : lut[j]? = some f) : ¬ e.code <+: f.code := by
  obtain ⟨hil, rfl⟩ := List.getElem?_eq_some_iff.mp hi
  obtain ⟨hjl, rfl⟩ := List.getElem?_eq_some_iff.mp hj
  rcases Nat.lt_or_gt_of_ne hij with hlt | hlt
  · exact (clash_eq_false.mp (List.pairwise_iff_getElem.mp h i j hil hjl hlt)).1
  · exact (clash_eq_false.mp (List.pairwise_iff_getElem.mp h j i hjl hil hlt)).2

/-- In a prefix-free table two entries of which one's code is a prefix of the other's are one. -/
theorem PrefixFree.eq_of_prefix {lut : List Entry} (h : PrefixFree lut) {e f : Entry} (he : e ∈ lut) (hf : f ∈ lut)
    (hp : e.code <+: f.code) : e = f := by
  obtain ⟨i, hi⟩ := List.mem_iff_getElem?.mp he
  obtain ⟨j, hj⟩ := List.mem_iff_getElem?.mp hf
  by_cases hij : i = j
  · subst hij; rw [hi] at hj; exact Option.some.inj hj
  · exact absurd hp (h.not_prefix hij hi hj)

/-- The loops of the prefix check from index `i` on (R154). -/
theorem prefixCheckFrom_spec (lut : List Entry) : ∀ i : Nat,
    (prefixCheckFrom i lut = none ∧ PrefixFree lut) ∨
    (∃ a d, prefixCheckFrom i lut = some (i + a, i + d) ∧ FirstCollision lut a d) := by
  induction lut with
  | nil => intro i; exact .inl ⟨rfl, List.Pairwise.nil⟩
  | cons e es ih =>
    intro i
    unfold prefixCheckFrom
    cases hf : es.findIdx? (fun f => clash e.code f.code) with
    | some d =>
      right
      refine ⟨0, 1 + d, by simp [Nat.add_assoc], ?_⟩
      obtain ⟨hd, hc, hmin⟩ := List.findIdx?_eq_some_iff_getElem.mp hf
      refine ⟨⟨by omega, e, es[d], rfl, by rw [Nat.add_comm 1 d]; simp, clash_iff.mp hc⟩, ?_⟩
      intro i' j' e' f' hij he' hf' hcl
      rcases Nat.eq_zero_or_pos i' with rfl | hpos
      · right
        refine ⟨rfl, ?_⟩
        obtain ⟨j, rfl⟩ : ∃ j, j' = j + 1 := ⟨j' - 1, by omega⟩
        simp only [List.getElem?_cons_zero, Option.some.injEq, List.getElem?_cons_succ] at he' hf'
        subst he'
        by_contra hlt
        obtain ⟨hj, rfl⟩ := List.getElem?_eq_some_iff.mp hf'
        exact hmin j (by omega) (clash_iff.mpr hcl)
      · exact .inl hpos
    | none =>
      have hnone : ∀ f ∈ es, clash e.code f.code = false := by
        simpa using List.findIdx?_eq_none_iff.mp hf
      rcases ih (i + 1) with ⟨h, hp⟩ | ⟨a, d, h, ⟨had, e', f', he', hf', hc⟩, hmin⟩
      · exact .inl ⟨h, List.Pairwise.cons hnone hp⟩
      · right
        refine ⟨a + 1, d + 1, by rw [h]; simp; omega, ⟨by omega, e', f', by simpa using he', by simpa using hf', hc⟩, ?_⟩
        intro i' j' e'' f'' hij he'' hf'' hcl
        obtain ⟨j, rfl⟩ : ∃ j, j' = j + 1 := ⟨j' - 1, by omega⟩
        rcases Nat.eq_zero_or_pos i' with rfl | hpos
        · exfalso
          simp only [List.getElem?_cons_zero, Option.some.injEq, List.getElem?_cons_succ] at he'' hf''
          subst he''
          have := hnone f'' (List.mem_of_getElem? hf'')
          rw [clash_iff.mpr hcl] at this
          cases this
        · obtain ⟨i'', rfl⟩ : ∃ i'', i' = i'' + 1 := ⟨i' - 1, by omega⟩
          rcases hmin i'' j e'' f'' (by omega) (by simpa using he'') (by simpa using hf'') hcl with h1 | ⟨h1, h2⟩
          · left; omega
          · right; omega

/-- The prefix check passes a prefix-free table and finds the first colliding pair of any other (R154). -/
theorem prefixCheck_spec (lut : List Entry) :
    (prefixCheck lut = none ∧ PrefixFree lut) ∨ (∃ i j, prefixCheck lut = some (i, j) ∧ FirstCollision lut i j) := by
  simpa [prefixCheck] using prefixCheckFrom_spec lut 0

theorem FirstCollision.not_prefixFree {lut : List Entry} {i j : Nat} (h : FirstCollision lut i j) : ¬ PrefixFree lut := by
  intro hp
  obtain ⟨⟨hij, e, f, he, hf, hc⟩, -⟩ := h
  rcases hc with hc | hc
  · exact hp.not_prefix hij.ne he hf hc
  · exact hp.not_prefix hij.ne' hf he hc

theorem FirstCollision.unique {lut : List Entry} {i j i' j' : Nat} (h : FirstCollision lut i j) (h' : FirstCollision lut i' j') :
    i = i' ∧ j = j' := by
  obtain ⟨⟨hij, e, f, he, hf, hc⟩, hm⟩ := h
  obtain ⟨⟨hij', e', f', he', hf', hc'⟩, hm'⟩ := h'
  have h1 := hm i' j' e' f' hij' he' hf' hc'
  have h2 := hm' i j e f hij he hf hc
  omega

/-- The fields of COLLIDE (10_state.md R25), for indices that fit them. -/
theorem collideWord_fields {i j : Nat} (hi : i < 512) (hj : j < 512) :
    (collideWord i j).extractLsb' 25 7 = 0 ∧ (collideWord i j).extractLsb' 9 7 = 0 ∧
    ((collideWord i j).extractLsb' 0 9).toNat = i ∧ ((collideWord i j).extractLsb' 16 9).toNat = j := by
  have he : ∀ a b : BitVec 9, let w := (0#7 ++ b ++ 0#7 ++ a : BitVec (7 + 9 + 7 + 9))
      w.extractLsb' 25 7 = 0 ∧ w.extractLsb' 9 7 = 0 ∧ w.extractLsb' 0 9 = a ∧ w.extractLsb' 16 9 = b := by
    intro a b
    refine ⟨?_, ?_, ?_, ?_⟩ <;> apply BitVec.eq_of_getLsbD_eq <;> intro n hn <;>
      simp only [BitVec.getLsbD_extractLsb', BitVec.getLsbD_append, BitVec.getLsbD_zero, hn, decide_true, Bool.true_and] <;>
      split_ifs <;> first | rfl | (simp; done) | (exfalso; omega) | (congr 1; omega)
  obtain ⟨h1, h2, h3, h4⟩ := he (BitVec.ofNat 9 i) (BitVec.ofNat 9 j)
  refine ⟨h1, h2, (congrArg BitVec.toNat h3).trans ?_, (congrArg BitVec.toNat h4).trans ?_⟩ <;>
    simp only [BitVec.toNat_ofNat] <;> omega

/-- Both indices of a first colliding pair are entries of the table. -/
theorem FirstCollision.lt {lut : List Entry} {i j : Nat} (h : FirstCollision lut i j) : i < j ∧ j < lut.length := by
  obtain ⟨⟨hij, _, _, _, hj, _⟩, _⟩ := h
  exact ⟨hij, (List.getElem?_eq_some_iff.mp hj).1⟩

/-- A pair the prefix check returns is the first colliding one (R154). -/
theorem prefixCheck_firstCollision {lut : List Entry} {i j : Nat} (h : prefixCheck lut = some (i, j)) : FirstCollision lut i j := by
  rcases prefixCheck_spec lut with ⟨h', _⟩ | ⟨i', j', h', hc⟩ <;> rw [h] at h' <;> cases h'
  exact hc

/-! ### Writes (R151) -/

theorem lutWrite_length_of_lt {lut : List Entry} {i : Nat} (h : i < lut.length) (e : Entry) :
    (lutWrite lut i e).length = lut.length := by simp [lutWrite, h]

/-- A list of writes below the table's length: every entry not written to is as before, and one written to once is as written. -/
theorem lutWrites_spec (ws : List (Nat × Entry)) : ∀ lut : List Entry, (∀ w ∈ ws, w.1 < lut.length) → (ws.map Prod.fst).Nodup →
    (lutWrites lut ws).length = lut.length ∧ (∀ w ∈ ws, (lutWrites lut ws)[w.1]? = some w.2) ∧
      (∀ i, i ∉ ws.map Prod.fst → (lutWrites lut ws)[i]? = lut[i]?) := by
  induction ws with
  | nil => intro lut _ _; simp [lutWrites]
  | cons w ws ih =>
    intro lut hb hn
    have hw := hb w (by simp)
    have hlen := lutWrite_length_of_lt hw w.2
    simp only [List.map_cons, List.nodup_cons] at hn
    obtain ⟨h1, h2, h3⟩ := ih (lutWrite lut w.1 w.2)
      (fun v hv => by rw [hlen]; exact hb v (List.mem_cons_of_mem _ hv)) hn.2
    have hfold : lutWrites lut (w :: ws) = lutWrites (lutWrite lut w.1 w.2) ws := rfl
    rw [hfold]
    have hget : (lutWrite lut w.1 w.2)[w.1]? = some w.2 := by simp [lutWrite, hw]
    refine ⟨h1.trans hlen, ?_, ?_⟩
    · intro v hv
      rcases List.mem_cons.mp hv with rfl | hv
      · rw [h3 _ hn.1, hget]
      · exact h2 v hv
    · intro i hi
      simp only [List.map_cons, List.mem_cons, not_or] at hi
      rw [h3 i hi.2]
      simp [lutWrite, hw, List.getElem?_set_ne (Ne.symm hi.1)]

end Sys2Proof.Machine
end

