-- ==== Sys2Proof/Laws/Tree.lean ====
section
/-! SUPPORT. BUILD's loop (41_tree_builder.md R112 to R116): what one turn does, and the invariant `Forest` the loop keeps, from which
everything about a built tree follows. -/

namespace Sys2Proof.Machine

/-! ### The least key -/

theorem keyLt_iff {nodes : List Node} {a b : Nat} : keyLt nodes a b = true ↔
    (weightAt nodes a).toNat < (weightAt nodes b).toNat ∨ (weightAt nodes a = weightAt nodes b ∧ a < b) := by
  simp [keyLt]

/-- `minKey` finds the least key of a nonempty list (00_scope.md R11). -/
theorem minKey_spec (nodes : List Node) (q : List Nat) :
    (minKey nodes q = none ∧ q = []) ∨ ∃ m, minKey nodes q = some m ∧ LeastOf nodes q m := by
  induction q with
  | nil => exact .inl ⟨rfl, rfl⟩
  | cons k q ih =>
    right
    rcases ih with ⟨h, rfl⟩ | ⟨m, h, hm, hl⟩
    · exact ⟨k, by simp [minKey], by simp [LeastOf]⟩
    · by_cases hk : keyLt nodes k m = true
      · refine ⟨k, by simp [minKey, h, hk], by simp, ?_⟩
        rw [keyLt_iff] at hk
        intro b hb hne
        rcases List.mem_cons.mp hb with rfl | hb
        · exact absurd rfl hne
        · by_cases hbm : b = m
          · subst hbm; exact hk
          · have := hl b hb hbm
            simp only [← BitVec.toNat_inj] at *
            omega
      · refine ⟨m, by simp [minKey, h, hk], by simp [hm], ?_⟩
        rw [keyLt_iff] at hk
        intro b hb hne
        rcases List.mem_cons.mp hb with rfl | hb
        · simp only [← BitVec.toNat_inj] at *
          omega
        · exact hl b hb hne

/-- Least of `q` depends on the members of `q` and their weights only. -/
theorem LeastOf.congr {nodes nodes' : List Node} {q q' : List Nat} {a : Nat} (h : LeastOf nodes q a)
    (hq : ∀ k, k ∈ q' ↔ k ∈ q) (hw : ∀ k ∈ q, weightAt nodes' k = weightAt nodes k) : LeastOf nodes' q' a := by
  refine ⟨(hq a).mpr h.1, fun b hb hne => ?_⟩
  have hb' := (hq b).mp hb
  rw [hw a h.1, hw b hb']
  exact h.2 b hb' hne

/-- The internal node one turn of the loop makes (R114). -/
def mergedNode (nodes : List Node) (a b : Nat) : Node :=
  .internal (weightAt nodes a + weightAt nodes b) (BitVec.ofNat 9 a) (BitVec.ofNat 9 b)

/-- One turn of the loop: nothing when at most one slot is live, else the merge of the two least (R112). -/
theorem mergeOnce_spec (q : List Nat) (nodes : List Node) (hq : q.Nodup) :
    (mergeOnce q nodes = none ∧ q.length ≤ 1) ∨
    ∃ a b, LeastOf nodes q a ∧ LeastOf nodes (q.erase a) b ∧ a ≠ b ∧ b ∈ q ∧
      mergeOnce q nodes = some ((q.erase a).erase b ++ [nodes.length], nodes ++ [mergedNode nodes a b]) := by
  unfold mergeOnce
  rcases minKey_spec nodes q with ⟨h, rfl⟩ | ⟨a, h, ha⟩
  · left; simp [h]
  · rcases minKey_spec nodes (q.erase a) with ⟨h2, h3⟩ | ⟨b, h2, hb⟩
    · left
      have := List.length_erase_of_mem ha.1
      rw [h3] at this
      simp [h, h2]; simp at this; omega
    · right
      have hb1 := (hq.mem_erase_iff).mp hb.1
      exact ⟨a, b, ha, hb, hb1.1.symm, hb1.2, by simp [h, h2, mergedNode]⟩

/-! ### Slots of a growing arena -/

theorem weightAt_append {nodes : List Node} (l : List Node) {k : Nat} (h : k < nodes.length) :
    weightAt (nodes ++ l) k = weightAt nodes k := by
  simp [weightAt, List.getElem?_append_left h]

theorem weightAt_append_self (nodes : List Node) (n : Node) : weightAt (nodes ++ [n]) nodes.length = n.weight := by
  simp [weightAt]

/-- The children of every internal node are right (10_state.md R38 item 6). -/
def ChildrenOk (nodes : List Node) : Prop := ∀ k n, nodes[k]? = some n → childrenOk nodes k n = true

theorem childrenOk_internal {nodes : List Node} {k : Nat} {w : Word} {l r : NodeIdx} :
    childrenOk nodes k (.internal w l r) = true ↔ l.toNat < k ∧ r.toNat < k ∧ l ≠ r ∧
      w.toNat = (weightAt nodes l.toNat).toNat + (weightAt nodes r.toNat).toNat := by
  simp [childrenOk, and_assoc]

theorem ChildrenOk.append {nodes : List Node} (h : ChildrenOk nodes) {n : Node}
    (hn : childrenOk nodes nodes.length n = true) : ChildrenOk (nodes ++ [n]) := by
  have grow : ∀ k m, k ≤ nodes.length → childrenOk nodes k m = true → childrenOk (nodes ++ [n]) k m = true := by
    intro k m hk hm
    cases m with
    | leaf => rfl
    | internal w l r =>
      rw [childrenOk_internal] at hm ⊢
      obtain ⟨h1, h2, h3, h4⟩ := hm
      rw [weightAt_append _ (by omega), weightAt_append _ (by omega)]
      exact ⟨h1, h2, h3, h4⟩
  intro k m hk
  by_cases hlt : k < nodes.length
  · rw [List.getElem?_append_left hlt] at hk
    exact grow k m hlt.le (h k m hk)
  · have hlen : k < nodes.length + 1 := by simpa using (List.getElem?_eq_some_iff.mp hk).1
    have hke : k = nodes.length := by omega
    subst hke
    simp at hk; subst hk
    exact grow _ _ le_rfl hn

/-! ### The leaves under a slot -/

theorem leavesUnder_of_lt {nodes : List Node} (h : ChildrenOk nodes) :
    ∀ (d d' k : Nat), k < d → k < d' → leavesUnder d nodes k = leavesUnder d' nodes k := by
  intro d
  induction d with
  | zero => intro d' k hk; omega
  | succ d ih =>
    intro d' k hk hk'
    obtain ⟨e, rfl⟩ : ∃ e, d' = e + 1 := ⟨d' - 1, by omega⟩
    unfold leavesUnder
    cases hn : nodes[k]? with
    | none => rfl
    | some n =>
      cases n with
      | leaf => rfl
      | internal w l r =>
        have := childrenOk_internal.mp (h k _ hn)
        simp only
        rw [ih e l.toNat (by omega) (by omega), ih e r.toNat (by omega) (by omega)]

theorem leavesUnder_append {nodes : List Node} (h : ChildrenOk nodes) (l : List Node) :
    ∀ (d k : Nat), k < nodes.length → leavesUnder d (nodes ++ l) k = leavesUnder d nodes k := by
  intro d
  induction d with
  | zero => intro k _; rfl
  | succ d ih =>
    intro k hk
    unfold leavesUnder
    rw [List.getElem?_append_left hk]
    cases hn : nodes[k]? with
    | none => rfl
    | some n =>
      cases n with
      | leaf => rfl
      | internal w l r =>
        have := childrenOk_internal.mp (h k _ hn)
        simp only
        rw [ih l.toNat (by omega), ih r.toNat (by omega)]

/-! ### The invariant of the loop -/

/-- The arena during BUILD, from `leaves` on, with live set `q` (R112 to R116). -/
structure Forest (leaves : List Node) (q : List Nat) (nodes : List Node) : Prop where
  /-- the leaves stand first and only internal nodes follow -/
  shape : ∃ inner, nodes = leaves ++ inner ∧ ∀ n ∈ inner, n.isLeaf = false
  nodup : q.Nodup
  live : ∀ k ∈ q, k < nodes.length
  /-- each turn adds one slot and takes one out of `q` -/
  count : nodes.length + q.length = 2 * leaves.length
  nonempty : leaves ≠ [] → q ≠ []
  children : ChildrenOk nodes
  /-- a live slot has no parent, every other slot has one -/
  parents : ∀ k < nodes.length, nodes.countP (fun n => n.hasChild k) = if k ∈ q then 0 else 1
  /-- every leaf is under one live slot, once -/
  covers : (q.flatMap (fun k => leavesUnder nodes.length nodes k)).Perm (List.range leaves.length)
  /-- the live weights add up to the leaf weights -/
  weights : (q.map (fun k => (weightAt nodes k).toNat)).sum = (leafWeights leaves).sum
  /-- every internal node merged the two least of the slots that were live when it was made -/
  greedy : ∀ k n, leaves.length ≤ k → nodes[k]? = some n → ∃ a b,
    n = .internal (weightAt nodes a + weightAt nodes b) (BitVec.ofNat 9 a) (BitVec.ofNat 9 b) ∧
    LeastOf nodes (liveBefore nodes k) a ∧ LeastOf nodes ((liveBefore nodes k).filter (fun c => c ≠ a)) b

/-- A live slot is one that no node of the arena has as a child. -/
theorem Forest.mem_liveBefore {leaves : List Node} {q : List Nat} {nodes : List Node} (h : Forest leaves q nodes)
    (more : List Node) (k : Nat) : k ∈ liveBefore (nodes ++ more) nodes.length ↔ k ∈ q := by
  unfold liveBefore
  simp only [List.take_left', List.mem_filter, List.mem_range]
  constructor
  · rintro ⟨hk, ha⟩
    by_contra hq
    have := h.parents k hk
    rw [if_neg hq] at this
    have hpos : 0 < nodes.countP (fun n => n.hasChild k) := by omega
    obtain ⟨n, hn, hc⟩ := List.countP_pos_iff.mp hpos
    simp only [Bool.not_eq_true', List.any_eq_false] at ha
    exact ha n hn hc
  · intro hq
    have hk := h.live k hq
    refine ⟨hk, ?_⟩
    have := h.parents k hk
    rw [if_pos hq, List.countP_eq_zero] at this
    simp only [Bool.not_eq_true', List.any_eq_false]
    exact this

theorem liveBefore_append {nodes : List Node} (more : List Node) {k : Nat} (h : k ≤ nodes.length) :
    liveBefore (nodes ++ more) k = liveBefore nodes k := by
  unfold liveBefore
  rw [List.take_append_of_le_length h]

theorem mem_liveBefore_lt {nodes : List Node} {k a : Nat} (h : a ∈ liveBefore nodes k) : a < k := by
  unfold liveBefore at h; simp at h; exact h.1

/-- The first live set, all the leaves (R112). -/
theorem Forest.start {leaves : List Node} (h : ∀ n ∈ leaves, n.isLeaf = true) :
    Forest leaves (List.range leaves.length) leaves where
  shape := ⟨[], by simp, by simp⟩
  nodup := List.nodup_range
  live := by simp
  count := by simp; omega
  nonempty := by cases leaves <;> simp [List.range_succ]
  children := by
    intro k n hn
    have := h n (List.mem_of_getElem? hn)
    cases n with
    | leaf => rfl
    | internal => simp [Node.isLeaf] at this
  parents := by
    intro k hk
    rw [if_pos (by simpa using hk), List.countP_eq_zero]
    intro n hn
    have := h n hn
    cases n with
    | leaf => simp [Node.hasChild]
    | internal => simp [Node.isLeaf] at this
  covers := by
    have : (List.range leaves.length).flatMap (fun k => leavesUnder leaves.length leaves k) = List.range leaves.length := by
      have key : ∀ k ∈ List.range leaves.length, leavesUnder leaves.length leaves k = [k] := by
        intro k hk
        have hk := List.mem_range.mp hk
        obtain ⟨e, he⟩ : ∃ e, leaves.length = e + 1 := ⟨leaves.length - 1, by omega⟩
        rw [he]; unfold leavesUnder
        rw [List.getElem?_eq_getElem hk]
        have := h _ (List.getElem_mem hk)
        cases hn : leaves[k] with
        | leaf => rfl
        | internal => rw [hn] at this; simp [Node.isLeaf] at this
      rw [List.flatMap_congr key]; simp
    rw [this]
  weights := by
    have : (List.range leaves.length).map (fun k => (weightAt leaves k).toNat) = leafWeights leaves := by
      apply List.ext_getElem
      · simp [leafWeights_length, leafCount_eq_length_iff.mpr h]
      · intro i h1 h2
        simp only [List.getElem_map, List.getElem_range]
        simp at h1
        have aux : ∀ (ns : List Node) (_ : ∀ n ∈ ns, n.isLeaf = true) (i : Nat), i < ns.length →
            (leafWeights ns)[i]? = some (weightAt ns i).toNat := by
          intro ns
          induction ns with
          | nil => intro _ i hi; simp at hi
          | cons n ns ih =>
            intro hl i hi
            cases n with
            | internal => have := hl _ (List.mem_cons_self); simp [Node.isLeaf] at this
            | leaf s w =>
              cases i with
              | zero => simp [weightAt, Node.weight]
              | succ i =>
                have := ih (fun n hn => hl n (List.mem_cons_of_mem _ hn)) i (by simpa using hi)
                simpa [weightAt] using this
        obtain ⟨_, e⟩ := List.getElem?_eq_some_iff.mp (aux leaves h i h1)
        exact e.symm
    rw [this]
  greedy := by
    intro k n hk hn
    have := (List.getElem?_eq_some_iff.mp hn).1
    omega

/-- One turn of the loop keeps the invariant: the merge of the two least live slots (R112, R114). -/
theorem Forest.merge {leaves : List Node} {q : List Nat} {nodes : List Node} (h : Forest leaves q nodes)
    (hsum : (leafWeights leaves).sum < 2 ^ 32) (hlen : leaves.length ≤ 256) {a b : Nat}
    (ha : LeastOf nodes q a) (hb : LeastOf nodes (q.erase a) b) (hab : a ≠ b) (hbq : b ∈ q) :
    Forest leaves ((q.erase a).erase b ++ [nodes.length]) (nodes ++ [mergedNode nodes a b]) := by
  have hqa := ha.1
  have hla := h.live a hqa
  have hlb := h.live b hbq
  have hba : b ∈ q.erase a := hb.1
  have hperm : q.Perm (a :: b :: (q.erase a).erase b) :=
    (List.perm_cons_erase hqa).trans ((List.perm_cons_erase hba).cons a)
  have hql : q.length = ((q.erase a).erase b).length + 2 := by simpa using hperm.length_eq
  have hcount := h.count
  have h9a : (BitVec.ofNat 9 a).toNat = a := by simp; omega
  have h9b : (BitVec.ofNat 9 b).toNat = b := by simp; omega
  have hq2 : ∀ k, k ∈ (q.erase a).erase b ↔ k ∈ q ∧ k ≠ a ∧ k ≠ b := by
    intro k
    rw [(h.nodup.erase a).mem_erase_iff, h.nodup.mem_erase_iff]; tauto
  have hw : (weightAt nodes a + weightAt nodes b).toNat = (weightAt nodes a).toNat + (weightAt nodes b).toNat := by
    have := h.weights
    rw [(hperm.map (fun k => (weightAt nodes k).toNat)).sum_eq] at this
    simp only [List.map_cons, List.sum_cons] at this
    rw [BitVec.toNat_add, Nat.mod_eq_of_lt]; omega
  have hchild : childrenOk nodes nodes.length (mergedNode nodes a b) = true := by
    rw [mergedNode, childrenOk_internal, h9a, h9b]
    refine ⟨hla, hlb, fun e => hab ?_, hw⟩
    rw [← h9a, ← h9b, e]
  have hchildren := h.children.append hchild
  refine ⟨?_, ?_, ?_, ?_, by simp, hchildren, ?_, ?_, ?_, ?_⟩
  · obtain ⟨inner, hi, hn⟩ := h.shape
    refine ⟨inner ++ [mergedNode nodes a b], by rw [hi, List.append_assoc], ?_⟩
    intro n hm
    rcases List.mem_append.mp hm with hm | hm
    · exact hn n hm
    · simp at hm; subst hm; rfl
  · rw [List.nodup_append]
    refine ⟨(h.nodup.erase a).erase b, by simp, ?_⟩
    intro x hx y hy
    simp at hy; subst hy
    have := h.live x ((hq2 x).mp hx).1
    omega
  · intro k hk
    rcases List.mem_append.mp hk with hk | hk
    · have := h.live k ((hq2 k).mp hk).1; simp; omega
    · simp at hk; simp; omega
  · simp only [List.length_append, List.length_singleton]; omega
  · intro k hk
    rw [List.countP_append, List.countP_singleton]
    have hm : ((mergedNode nodes a b).hasChild k = true) = (a = k ∨ b = k) := by
      simp [mergedNode, Node.hasChild, h9a, h9b]
    simp only [hm]
    simp only [List.length_append, List.length_singleton] at hk
    by_cases hkl : k = nodes.length
    · subst hkl
      have h0 : nodes.countP (fun n => n.hasChild nodes.length) = 0 := by
        rw [List.countP_eq_zero]
        intro n hn
        obtain ⟨j, hj⟩ := List.mem_iff_getElem?.mp hn
        have := h.children j n hj
        have hjl := (List.getElem?_eq_some_iff.mp hj).1
        cases n with
        | leaf => simp [Node.hasChild]
        | internal w l r =>
          rw [childrenOk_internal] at this
          simp [Node.hasChild]; omega
      have hne : ¬ (a = nodes.length ∨ b = nodes.length) := by omega
      rw [h0, if_neg hne, if_pos (by simp)]
    · have hp := h.parents k (by omega)
      rw [hp]
      by_cases hka : k = a
      · subst hka
        have : k ∉ (q.erase k).erase b := fun hm => ((hq2 k).mp hm).2.1 rfl
        simp [hqa, hkl, this]
      · by_cases hkb : k = b
        · subst hkb
          have : k ∉ (q.erase a).erase k := fun hm => ((hq2 k).mp hm).2.2 rfl
          simp [hbq, hkl, this]
        · have hne : ¬ (a = k ∨ b = k) := by omega
          rw [if_neg hne]
          by_cases hkq : k ∈ q
          · have : k ∈ (q.erase a).erase b := (hq2 k).mpr ⟨hkq, hka, hkb⟩
            simp [hkq, this]
          · have : k ∉ (q.erase a).erase b := fun hm => hkq ((hq2 k).mp hm).1
            simp [hkq, this, hkl]
  · rw [List.flatMap_append]
    have hold : ∀ k < nodes.length, leavesUnder (nodes ++ [mergedNode nodes a b]).length (nodes ++ [mergedNode nodes a b]) k =
        leavesUnder nodes.length nodes k := by
      intro k hk
      rw [leavesUnder_append h.children _ _ _ hk, leavesUnder_of_lt h.children _ nodes.length k (by simp; omega) hk]
    have hnew : leavesUnder (nodes ++ [mergedNode nodes a b]).length (nodes ++ [mergedNode nodes a b]) nodes.length =
        leavesUnder nodes.length nodes a ++ leavesUnder nodes.length nodes b := by
      rw [show (nodes ++ [mergedNode nodes a b]).length = nodes.length + 1 by simp]
      conv_lhs => unfold leavesUnder
      simp only [List.getElem?_concat_length, mergedNode, h9a, h9b]
      rw [leavesUnder_append h.children _ _ _ hla, leavesUnder_append h.children _ _ _ hlb]
    have h2 : ((q.erase a).erase b).flatMap
        (fun k => leavesUnder (nodes ++ [mergedNode nodes a b]).length (nodes ++ [mergedNode nodes a b]) k) =
        ((q.erase a).erase b).flatMap (fun k => leavesUnder nodes.length nodes k) :=
      List.flatMap_congr (fun k hk => hold k (h.live k ((hq2 k).mp hk).1))
    rw [h2]
    simp only [List.flatMap_cons, List.flatMap_nil, List.append_nil, hnew]
    refine List.Perm.trans ?_ h.covers
    refine List.perm_append_comm.trans ?_
    have := (hperm.flatMap_right (fun k => leavesUnder nodes.length nodes k)).symm
    simpa [List.flatMap_cons, List.append_assoc] using this
  · rw [List.map_append, List.sum_append]
    have h1 : ((q.erase a).erase b).map (fun k => (weightAt (nodes ++ [mergedNode nodes a b]) k).toNat) =
        ((q.erase a).erase b).map (fun k => (weightAt nodes k).toNat) := by
      apply List.map_congr_left
      intro k hk
      rw [weightAt_append _ (h.live k ((hq2 k).mp hk).1)]
    rw [h1]
    simp only [List.map_cons, List.map_nil, List.sum_cons, List.sum_nil, weightAt_append_self, mergedNode, Node.weight, hw]
    have := h.weights
    rw [(hperm.map (fun k => (weightAt nodes k).toNat)).sum_eq] at this
    simp only [List.map_cons, List.sum_cons] at this
    omega
  · intro k n hk hn
    have hlt : k < nodes.length + 1 := by simpa using (List.getElem?_eq_some_iff.mp hn).1
    have hlow : ∀ c ∈ liveBefore nodes k, weightAt (nodes ++ [mergedNode nodes a b]) c = weightAt nodes c :=
      fun c hc => weightAt_append _ (by have := mem_liveBefore_lt hc; omega)
    rw [liveBefore_append _ (by omega)]
    by_cases hkl : k = nodes.length
    · subst hkl
      simp only [List.getElem?_concat_length, Option.some.injEq] at hn
      have hm := h.mem_liveBefore []
      simp only [List.append_nil] at hm
      refine ⟨a, b, ?_, ?_, ?_⟩
      · rw [weightAt_append _ hla, weightAt_append _ hlb, ← hn]; rfl
      · exact ha.congr hm (fun c hc => weightAt_append _ (h.live c hc))
      · refine hb.congr (fun c => ?_) (fun c hc => weightAt_append _ (h.live c (List.mem_of_mem_erase hc)))
        rw [List.mem_filter, hm, h.nodup.mem_erase_iff]; simp [and_comm]
    · rw [List.getElem?_append_left (by omega)] at hn
      obtain ⟨a', b', h1, h2, h3⟩ := h.greedy k n hk hn
      refine ⟨a', b', ?_, h2.congr (fun _ => Iff.rfl) hlow, h3.congr (fun _ => Iff.rfl) ?_⟩
      · rw [hlow a' h2.1, hlow b' (List.mem_filter.mp h3.1).1, h1]
      · intro c hc; exact hlow c (List.mem_filter.mp hc).1

/-- The loop keeps the invariant and ends with at most one live slot (R112). -/
theorem Forest.loop {leaves : List Node} (hsum : (leafWeights leaves).sum < 2 ^ 32) (hlen : leaves.length ≤ 256) :
    ∀ (n : Nat) (q : List Nat) (nodes : List Node), Forest leaves q nodes → q.length ≤ n + 1 →
      Forest leaves (buildLoop n q nodes).1 (buildLoop n q nodes).2 ∧ (buildLoop n q nodes).1.length ≤ 1 := by
  intro n
  induction n with
  | zero => intro q nodes h hq; exact ⟨h, by simpa [buildLoop] using hq⟩
  | succ n ih =>
    intro q nodes h hq
    unfold buildLoop
    rcases mergeOnce_spec q nodes h.nodup with ⟨hm, hq1⟩ | ⟨a, b, ha, hb, hab, hbq, hm⟩
    · rw [hm]; exact ⟨h, hq1⟩
    · rw [hm]
      apply ih _ _ (h.merge hsum hlen ha hb hab hbq)
      have h1 := List.length_erase_of_mem ha.1
      have h2 := List.length_erase_of_mem hb.1
      simp only [List.length_append, List.length_singleton]
      have h3 := List.length_pos_of_mem ha.1
      have h4 := List.length_pos_of_mem hb.1
      omega

/-- The arena BUILD makes from leaves (R112). -/
theorem Forest.built {leaves : List Node} (h : ∀ n ∈ leaves, n.isLeaf = true)
    (hsum : (leafWeights leaves).sum < 2 ^ 32) (hlen : leaves.length ≤ 256) :
    ∃ q nodes, buildLoop leaves.length (List.range leaves.length) leaves = (q, nodes) ∧ Forest leaves q nodes ∧
      ((leaves = [] ∧ q = []) ∨ (leaves ≠ [] ∧ q = [2 * leaves.length - 2])) := by
  have hl := Forest.loop hsum hlen leaves.length (List.range leaves.length) leaves (Forest.start h) (by simp)
  refine ⟨_, _, rfl, hl.1, ?_⟩
  generalize buildLoop leaves.length (List.range leaves.length) leaves = r at hl
  obtain ⟨hf, hq⟩ := hl
  by_cases he : leaves = []
  · left
    refine ⟨he, ?_⟩
    have := hf.count
    rw [he] at this
    simp at this
    exact this.2
  · right
    refine ⟨he, ?_⟩
    have hne := hf.nonempty he
    match hr : r.1 with
    | [] => exact absurd hr hne
    | [k] =>
      have hc := hf.count
      rw [hr] at hc
      simp only [List.length_singleton] at hc
      have hk := hf.live k (by rw [hr]; simp)
      have hpos : 0 < leaves.length := List.length_pos_iff.mpr he
      -- the last slot has no parent, so it is the live one
      by_contra hkne
      have hlast : r.2.length - 1 ≠ k := by
        intro e; apply hkne; congr; omega
      have hp := hf.parents (r.2.length - 1) (by omega)
      rw [hr, if_neg (by simpa using hlast)] at hp
      have h0 : r.2.countP (fun n => n.hasChild (r.2.length - 1)) = 0 := by
        rw [List.countP_eq_zero]
        intro n hn
        obtain ⟨j, hj⟩ := List.mem_iff_getElem?.mp hn
        have hc := hf.children j n hj
        have hjl := (List.getElem?_eq_some_iff.mp hj).1
        cases n with
        | leaf => simp [Node.hasChild]
        | internal w l r =>
          rw [childrenOk_internal] at hc
          simp [Node.hasChild]; omega
      omega
    | _ :: _ :: _ => rw [hr] at hq; simp at hq

end Sys2Proof.Machine
end

