-- ==== Sys2Proof/Laws/Walk.lean ====
section
/-! SUPPORT. The tree walk of ASSIGN (42_code_table_generator.md R130 to R134): the slots it visits, the paths it writes, and what the table
made of them guarantees. -/

namespace Sys2Proof.Machine

/-- The walk writes the leaves under the slot, left to right (R130). -/
theorem walk_slots (nodes : List Node) : ∀ (d k : Nat) (p : Code), (walk d nodes k p).map Prod.fst = leavesUnder d nodes k := by
  intro d
  induction d with
  | zero => intro k p; rfl
  | succ d ih =>
    intro k p
    unfold walk leavesUnder
    cases nodes[k]? with
    | none => rfl
    | some n => cases n <;> simp [ih]

/-- Every write is of a leaf's symbol with the path to it (R131). -/
theorem walk_mem (nodes : List Node) : ∀ (d k : Nat) (p : Code), ∀ w ∈ walk d nodes k p,
    ∃ c, w.2.code = p ++ c ∧ w.2.sym = symAt nodes w.1 ∧ follow nodes k c = some w.1 := by
  intro d
  induction d with
  | zero => intro k p w hw; simp [walk] at hw
  | succ d ih =>
    intro k p w hw
    unfold walk at hw
    cases hn : nodes[k]? with
    | none => simp [hn] at hw
    | some n =>
      cases n with
      | leaf sym wt =>
        simp only [hn, List.mem_singleton] at hw
        subst hw
        exact ⟨[], by simp, by simp [symAt, hn, Node.sym], rfl⟩
      | internal wt l r =>
        simp only [hn, List.mem_append] at hw
        rcases hw with hw | hw
        · obtain ⟨c, h1, h2, h3⟩ := ih _ _ w hw
          exact ⟨false :: c, by simp [h1], h2, by simp [follow, hn, h3]⟩
        · obtain ⟨c, h1, h2, h3⟩ := ih _ _ w hw
          exact ⟨true :: c, by simp [h1], h2, by simp [follow, hn, h3]⟩

/-- No code the walk writes is a prefix of another one (R134 item 3). -/
theorem walk_prefixFree (nodes : List Node) : ∀ (d k : Nat) (p : Code),
    (walk d nodes k p).Pairwise (fun v w => clash v.2.code w.2.code = false) := by
  intro d
  induction d with
  | zero => intro k p; simp [walk]
  | succ d ih =>
    intro k p
    unfold walk
    cases hn : nodes[k]? with
    | none => simp
    | some n =>
      cases n with
      | leaf sym wt => simp
      | internal wt l r =>
        simp only [List.pairwise_append]
        refine ⟨ih _ _, ih _ _, fun v hv w hw => ?_⟩
        obtain ⟨c, hc, -⟩ := walk_mem nodes _ _ _ v hv
        obtain ⟨d, hd, -⟩ := walk_mem nodes _ _ _ w hw
        rw [clash_eq_false, hc, hd]
        simp [List.prefix_append_right_inj, List.append_assoc]

/-- Every slot has a leaf under it. -/
theorem leavesUnder_ne_nil {nodes : List Node} (h : ChildrenOk nodes) :
    ∀ (d k : Nat), k < d → k < nodes.length → leavesUnder d nodes k ≠ [] := by
  intro d
  induction d with
  | zero => intro k hk; omega
  | succ d ih =>
    intro k hk hl
    unfold leavesUnder
    rw [List.getElem?_eq_getElem hl]
    cases hn : nodes[k] with
    | leaf => simp
    | internal w l r =>
      have := childrenOk_internal.mp (h k (.internal w l r) (by rw [List.getElem?_eq_getElem hl, hn]))
      simp [ih l.toNat (by omega) (by omega)]

/-- A path below a slot is shorter than the number of leaves under it (R134 item 2). -/
theorem walk_length {nodes : List Node} (h : ChildrenOk nodes) : ∀ (d k : Nat) (p : Code), k < d → k < nodes.length →
    ∀ w ∈ walk d nodes k p, w.2.code.length + 1 ≤ p.length + (leavesUnder d nodes k).length := by
  intro d
  induction d with
  | zero => intro k p hk; omega
  | succ d ih =>
    intro k p hk hl w hw
    unfold walk at hw
    unfold leavesUnder
    cases hn : nodes[k]? with
    | none => simp [hn] at hw
    | some n =>
      cases n with
      | leaf sym wt =>
        simp only [hn, List.mem_singleton] at hw
        subst hw; simp
      | internal wt l r =>
        have hc := childrenOk_internal.mp (h k _ hn)
        have hL := List.length_pos_iff.mpr (leavesUnder_ne_nil h d l.toNat (by omega) (by omega))
        have hR := List.length_pos_iff.mpr (leavesUnder_ne_nil h d r.toNat (by omega) (by omega))
        simp only [hn, List.mem_append] at hw
        simp only [List.length_append]
        rcases hw with hw | hw
        · have := ih _ _ (by omega) (by omega) w hw
          simp only [List.length_append, List.length_singleton] at this; omega
        · have := ih _ _ (by omega) (by omega) w hw
          simp only [List.length_append, List.length_singleton] at this; omega

/-- A path below an internal node has at least one bit. -/
theorem walk_pos {nodes : List Node} {k : Nat} {wt : Word} {l r : NodeIdx} (hn : nodes[k]? = some (.internal wt l r)) (d : Nat) :
    ∀ w ∈ walk d nodes k [], 1 ≤ w.2.code.length := by
  intro w hw
  cases d with
  | zero => simp [walk] at hw
  | succ d =>
    unfold walk at hw
    simp only [hn, List.nil_append, List.mem_append] at hw
    rcases hw with hw | hw <;>
    · obtain ⟨c, hc, -⟩ := walk_mem nodes _ _ _ w hw
      rw [hc]; simp

/-- A tree over `n` leaves with root slot `r`: what ASSIGN needs of the arena BUILD made. -/
structure Rooted (nodes : List Node) (n r : Nat) : Prop where
  valid : r < nodes.length
  children : ChildrenOk nodes
  covers : (leavesUnder nodes.length nodes r).Perm (List.range n)

/-- The table ASSIGN makes of a tree whose root is internal (R130, R131, R134): one entry per leaf, its symbol and its path. -/
theorem assignTable_internal {nodes : List Node} {n r : Nat} (h : Rooted nodes n r) {wt : Word} {l r' : NodeIdx}
    (hr : nodes[r]? = some (.internal wt l r')) :
    (assignTable nodes n r).length = n ∧
    (∀ i < n, ∃ c, (assignTable nodes n r)[i]? = some ⟨symAt nodes i, c⟩ ∧ follow nodes r c = some i ∧
      1 ≤ c.length ∧ c.length + 1 ≤ n) ∧
    PrefixFree (assignTable nodes n r) := by
  have htab : assignTable nodes n r = lutWrites (List.replicate n ⟨0, []⟩) (walk nodes.length nodes r []) := by
    unfold assignTable; rw [hr]
  have hslots : ((walk nodes.length nodes r []).map Prod.fst).Perm (List.range n) := by rw [walk_slots]; exact h.covers
  have hnd : ((walk nodes.length nodes r []).map Prod.fst).Nodup := hslots.nodup_iff.mpr List.nodup_range
  have hb : ∀ w ∈ walk nodes.length nodes r [], w.1 < (List.replicate n (⟨0, []⟩ : Entry)).length := by
    intro w hw
    have := (hslots.mem_iff).mp (List.mem_map_of_mem hw)
    simpa using this
  obtain ⟨h1, h2, -⟩ := lutWrites_spec _ _ hb hnd
  rw [← htab] at h1 h2
  have hlen : (assignTable nodes n r).length = n := by simpa using h1
  have hleaves : (leavesUnder nodes.length nodes r).length = n := by simpa using h.covers.length_eq
  -- the write to slot `i`
  have hget : ∀ i < n, ∃ w ∈ walk nodes.length nodes r [], w.1 = i := by
    intro i hi
    have := (hslots.mem_iff).mpr (List.mem_range.mpr hi)
    obtain ⟨w, hw, hwi⟩ := List.mem_map.mp this
    exact ⟨w, hw, hwi⟩
  refine ⟨hlen, ?_, ?_⟩
  · intro i hi
    obtain ⟨w, hw, rfl⟩ := hget i hi
    obtain ⟨c, hc, hs, hf⟩ := walk_mem nodes _ _ _ w hw
    have hl := walk_length h.children _ _ _ h.valid h.valid w hw
    have hp := walk_pos hr _ w hw
    have hcc : w.2.code = c := by simpa using hc
    refine ⟨c, ?_, hf, by rw [← hcc]; exact hp, by rw [← hcc]; simpa [hleaves] using hl⟩
    rw [h2 w hw, ← hs, ← hcc]
  · have hpw := walk_prefixFree nodes nodes.length r []
    unfold PrefixFree
    rw [List.pairwise_iff_getElem]
    intro i j hi hj hij
    rw [hlen] at hi hj
    obtain ⟨v, hv, rfl⟩ := hget i hi
    obtain ⟨w, hw, rfl⟩ := hget j hj
    have e1 := List.getElem?_eq_some_iff.mp (h2 v hv)
    have e2 := List.getElem?_eq_some_iff.mp (h2 w hw)
    rw [e1.2, e2.2]
    have hne : v ≠ w := fun e => by rw [e] at hij; omega
    have : Std.Symm (fun v w : Nat × Entry => clash v.2.code w.2.code = false) :=
      ⟨fun a b hab => by rw [clash_comm]; exact hab⟩
    exact hpw.forall hv hw hne

end Sys2Proof.Machine
end

