-- ==== Sys2Proof/Laws/Invariant.lean ====
section
/-! SUPPORT. The invariant of Safety.lean, own rule by own rule: the error entry, FREQ, BUILD and ASSIGN keep it. -/

namespace Sys2Proof.Machine

/-- The invariant does not speak of the output lists or of what the host has yet to present. -/
theorem State.Inv.outputs {s : State} (h : s.Inv) (m d x : List Byte) (r : List Word) (l : List HostEvent) :
    ({ s with mapOut := m, dataOut := d, textOut := x, rsp := r, input := l } : State).Inv :=
  ⟨⟨h.1.1, h.1.2, h.1.3, h.1.4, h.1.5, h.1.6, h.1.7, h.1.8, h.1.9, h.1.10⟩, h.2, h.3, h.4, h.5, h.6⟩

/-- The invariant holds where CLR leaves the machine. -/
theorem clearState_inv (s : State) : (clearState s).Inv := by
  refine ⟨⟨?_, ?_, ?_, ?_, ?_, ?_, ?_, ?_, ?_, ?_⟩, ?_, ?_, ?_, ?_, ?_⟩ <;>
    simp [State.countsOk, State.leavesDistinct, State.weightsOk, State.earlyPhasesOk, State.builtOk, State.treeOk, State.tableOk,
      State.bufOk, State.failedOk, State.parserOk, State.arenaShape, State.lutShape, State.parserShape, State.bufShape,
      State.errShape, State.ndist, State.nnodes, State.nent, State.failPin, errCode, PState.inEntry, TableOk]

/-- The invariant holds after a reset. -/
theorem resetState_inv (s : State) : (resetState s).Inv := by
  rw [resetState_eq_clearState]
  exact (clearState_inv s).outputs [] [] [] [] s.input

theorem errCode_some_ne_zero (e : ErrCode) : errCode (some e) ≠ 0 := by cases e <;> decide

theorem errCode_ne_zero {o : Option ErrCode} : errCode o ≠ 0 ↔ o ≠ none := by
  cases o with
  | none => simp [errCode]
  | some e => exact ⟨fun _ => by simp, fun _ => errCode_some_ne_zero e⟩

/-- R38 item 9 with the error register as an option. -/
theorem failedOk_iff (s : State) : s.failedOk ↔ (s.phase = .failed ↔ s.err ≠ none) := by
  simp only [State.failedOk, errCode_ne_zero, State.failPin, beq_iff_eq]; tauto

theorem State.Inv.err_eq_none {s : State} (h : s.Inv) (hp : s.phase ≠ .failed) : s.err = none := by
  have := (failedOk_iff s).mp h.r38.failed
  by_contra hc; exact hp (this.mpr hc)

theorem State.Inv.err_ne_none {s : State} (h : s.Inv) (hp : s.phase = .failed) : s.err ≠ none :=
  ((failedOk_iff s).mp h.r38.failed).mp hp

theorem State.Inv.pstate_start {s : State} (h : s.Inv) (h1 : s.phase ≠ .mapload) (h2 : s.phase ≠ .failed) : s.pstate = .start := by
  by_contra hc
  rcases h.r38.parser.1 hc with h' | h'
  · exact h1 h'
  · exact h2 h'

/-- Where no error was raised, a change of anything but the error registers keeps their shape. -/
theorem State.Inv.errShape_of_none {s t : State} (h : s.Inv) (hs : s.err = none) (ht : t.err = none) (hi : t.errinfo = s.errinfo)
    (hc : t.collide = s.collide) : t.errShape :=
  ⟨fun _ => hi.trans (h.errs.1 hs), fun _ => hc.trans (h.errs.2.1 (by rw [hs]; simp)), fun h' => by rw [ht] at h'; cases h'⟩

/-- The error entry keeps the invariant; `E_CODETBL`, which comes with COLLIDE, is ENDMAP's own. -/
theorem State.Inv.raise {s : State} (h : s.Inv) (e : ErrCode) (w : Word) (he : e ≠ .codetbl := by simp) : (Machine.raise e w s).Inv := by
  have hE : (Machine.raise e w s).err ≠ none := raise_err_ne_none _ _ _
  refine ⟨⟨?_, ?_, ?_, ?_, ?_, ?_, ?_, ?_, ?_, ?_⟩, ?_, ?_, ?_, ?_, ?_⟩
  · have := h.r38.counts; simp only [State.countsOk, raise_ndist, raise_nnodes, raise_nodes]; exact this
  · have := h.r38.leaves; simp only [State.leavesDistinct, raise_nodes]; exact this
  · have := h.r38.weights; simp only [State.weightsOk, raise_nodes, raise_total]; exact this
  · simp [State.earlyPhasesOk]
  · simp [State.builtOk]
  · have := h.r38.tree; simp only [State.treeOk, raise_nodes, raise_nnodes, raise_root]; exact this
  · simp [State.tableOk]
  · simp [State.bufOk]
  · rw [failedOk_iff]; simp
  · have := h.r38.parser
    simp only [State.parserOk, raise_phase, raise_pstate, raise_curcode]
    exact ⟨fun _ => .inr trivial, this.2⟩
  · have := h.arena
    simp only [State.arenaShape, raise_nodes, raise_nnodes, raise_ndist, raise_root, raise_phase]
    exact ⟨this.1, this.2.1, by simp, by simp⟩
  · have := h.lut
    simp only [State.lutShape, raise_lut, raise_phase]
    exact ⟨this.1, by simp⟩
  · obtain ⟨_, _, h3, h4, h5, h6, h7⟩ := h.parse
    simp only [State.parserShape, raise_lut, raise_phase, raise_pstate, raise_mappos, raise_cursym, raise_curcode]
    exact ⟨by simp, by simp, h3, h4, h5, h6, h7⟩
  · have := h.bits; simp only [State.bufShape, raise_buf]; exact this
  · cases hs : s.err with
    | none =>
      rw [raise_of_err_none _ _ _ hs]
      exact ⟨by simp, fun _ => h.errs.2.1 (by rw [hs]; simp), fun h' => absurd (Option.some.inj h') he⟩
    | some e0 =>
      rw [raise_of_err_some _ _ _ (by simp [hs])]
      exact h.errs

/-- Where no tree was built every slot is a leaf. -/
theorem State.Inv.all_leaves {s : State} (h : s.Inv) (hr : s.root = none) : ∀ n ∈ s.nodes, n.isLeaf = true :=
  leafCount_eq_length_iff.mp (h.arena.1 hr).symm

theorem State.Inv.root_none {s : State} (h : s.Inv) (hp : s.phase = .idle ∨ s.phase = .count) : s.root = none := by
  rcases hp with hp | hp
  · exact h.arena.2.2.1 (.inl hp)
  · exact (h.r38.early.2 hp).2.2

theorem State.Inv.sum_lt {s : State} (h : s.Inv) : (leafWeights s.nodes).sum < 2 ^ 32 := by
  rw [h.r38.weights.1]; exact s.total.isLt

/-- The leaves stand first: the arena split at `NDIST` (R38 item 1). -/
theorem countsOk_of_append {leaves inner : List Node} (hl : ∀ n ∈ leaves, n.isLeaf = true) (hi : ∀ n ∈ inner, n.isLeaf = false)
    {s : State} (hs : s.nodes = leaves ++ inner) :
    s.ndist = leaves.length ∧ ∀ k < s.nnodes, (s.nodes[k]?.map Node.isLeaf) = some (decide (k < s.ndist)) := by
  have hd : s.ndist = leaves.length := by
    rw [ndist_eq, hs, leafCount_append, leafCount_eq_length_iff.mpr hl]
    have : leafCount inner = 0 := by
      rw [leafCount, List.countP_eq_zero]; intro n hn; rw [hi n hn]; simp
    omega
  refine ⟨hd, fun k hk => ?_⟩
  rw [hd]
  have hk : k < s.nodes.length := hk
  by_cases hkl : k < leaves.length
  · rw [hs, List.getElem?_append_left hkl, List.getElem?_eq_getElem hkl]
    simp [hkl, hl _ (List.getElem_mem hkl)]
  · rw [hs, List.getElem?_append_right (by omega)]
    rw [hs, List.length_append] at hk
    rw [List.getElem?_eq_getElem (by omega)]
    simp [hkl, hi _ (List.getElem_mem (by omega : k - leaves.length < inner.length))]

/-- FREQ keeps the invariant (41_tree_builder.md R110, R111). -/
theorem freq_inv {s : State} (h : s.Inv) (hp : s.phase = .idle ∨ s.phase = .count) (sym : Byte) : (freqOwn sym s).Inv := by
  rcases freqOwn_cases sym s with ⟨-, he⟩ | ⟨ht, he⟩ <;> rw [he]
  · exact h.raise _ _
  have hroot := h.root_none hp
  have hall := countSym_all_leaves (sym := sym) (h.all_leaves hroot)
  have hmax : s.total.toNat ≠ 2 ^ 32 - 1 := fun e => ht (BitVec.eq_of_toNat_eq (by rw [e]; rfl))
  have hlt : (leafWeights s.nodes).sum < 2 ^ 32 - 1 := by
    have := h.sum_lt; rw [h.r38.weights.1] at this ⊢; omega
  have hst := h.pstate_start (by rcases hp with hp | hp <;> simp [hp]) (by rcases hp with hp | hp <;> simp [hp])
  have herr := h.err_eq_none (by rcases hp with hp | hp <;> simp [hp])
  have hnodup : (leafSyms (countSym sym s.nodes)).Nodup := by
    rw [leafSyms_countSym]
    have := h.r38.leaves
    split_ifs with hm
    · exact this
    · rw [List.nodup_append]
      exact ⟨this, by simp, by intro a ha b hb; simp at hb; subst hb; intro e; exact hm (e ▸ ha)⟩
  have hlen : leafCount (countSym sym s.nodes) = (countSym sym s.nodes).length := leafCount_eq_length_iff.mpr hall
  have h256 : (countSym sym s.nodes).length ≤ 256 := by
    rw [← hlen, ← leafSyms_length]; exact nodup_bytes_length hnodup
  have hsum := leafWeights_sum_countSym (sym := sym) hlt
  have hsum' : (s.total + 1).toNat = s.total.toNat + 1 := by
    rw [BitVec.toNat_add]; simp; have := s.total.isLt; omega
  have hp3 : s.phase = .idle ∨ s.phase = .count ∨ s.phase = .built := hp.imp_right .inl
  have hlut : s.lut = [] := h.lut.2 hp3
  refine ⟨⟨?_, hnodup, ?_, ?_, ?_, ?_, ?_, ?_, ?_, ?_⟩, ?_, ?_, ?_, ?_, ?_⟩
  · have := countsOk_of_append hall (inner := []) (by simp)
      (s := { s with nodes := countSym sym s.nodes, total := s.total + 1, phase := .count }) (by simp)
    refine ⟨by rw [this.1]; exact le_rfl, ?_, by rw [this.1]; simpa [Config.nsym] using h256, this.2⟩
    show (countSym sym s.nodes).length ≤ 511
    omega
  · exact ⟨by rw [hsum, h.r38.weights.1]; exact hsum'.symm, leafWeights_pos_countSym hlt h.r38.weights.2⟩
  · refine ⟨by simp, fun _ => ⟨?_, ?_, hroot⟩⟩
    · exact hlen.symm
    · show 1 ≤ leafCount (countSym sym s.nodes)
      rw [hlen]
      have : countSym sym s.nodes ≠ [] := by
        intro e; rw [e] at hsum; simp at hsum
      exact List.length_pos_iff.mpr this
  · simp [State.builtOk]
  · refine ⟨fun k hk => ?_, by simp [hroot]⟩
    have hk : k < (countSym sym s.nodes).length := hk
    show ((countSym sym s.nodes)[k]?.map (childrenOk (countSym sym s.nodes) k)) = some true
    rw [List.getElem?_eq_getElem hk]
    have := hall _ (List.getElem_mem hk)
    cases hn : (countSym sym s.nodes)[k] with
    | leaf => simp [childrenOk]
    | internal => rw [hn] at this; simp [Node.isLeaf] at this
  · simp [State.tableOk]
  · exact ⟨fun _ => h.r38.buf.1 (hp.imp_right .inl), by simp⟩
  · rw [failedOk_iff]; simp [herr]
  · exact ⟨by simp [hst], h.r38.parser.2⟩
  · exact ⟨fun _ => hlen.symm, by simp [hroot], by simp, by simp⟩
  · exact ⟨h.lut.1, fun _ => hlut⟩
  · obtain ⟨_, h2, h3, h4, h5, h6, h7⟩ := h.parse
    exact ⟨by simp, fun _ => h2 hp3, h3, h4, h5, h6, h7⟩
  · exact h.bits
  · exact h.errs

/-- What BUILD leaves (41_tree_builder.md R112 to R116): the leaves followed by internal nodes, and a root over all of them. -/
theorem build_spec {s : State} (h : s.Inv) (hp : s.phase = .idle ∨ s.phase = .count) :
    ∃ q nodes, buildLoop s.ndist (List.range s.ndist) s.nodes = (q, nodes) ∧ Forest s.nodes q nodes ∧ s.ndist = s.nodes.length ∧
      s.nodes.length ≤ 256 ∧ ((s.nodes = [] ∧ q = []) ∨ (s.nodes ≠ [] ∧ q = [2 * s.nodes.length - 2])) := by
  have hall := h.all_leaves (h.root_none hp)
  have hnd : s.ndist = s.nodes.length := leafCount_eq_length_iff.mpr hall
  have h256 : s.nodes.length ≤ 256 := by rw [← hnd]; exact h.r38.counts.2.2.1
  obtain ⟨q, nodes, h1, h2, h3⟩ := Forest.built hall h.sum_lt h256
  exact ⟨q, nodes, by rw [hnd]; exact h1, h2, hnd, h256, h3⟩

/-- BUILD keeps the invariant. -/
theorem build_inv {s : State} (h : s.Inv) (hp : s.phase = .idle ∨ s.phase = .count) : (buildOwn s).Inv := by
  obtain ⟨q, nodes, hb, hf, hnd, h256, hq⟩ := build_spec h hp
  have hall := h.all_leaves (h.root_none hp)
  rw [buildOwn_eq, hb]
  obtain ⟨inner, hin, hii⟩ := hf.shape
  have hst := h.pstate_start (by rcases hp with hp | hp <;> simp [hp]) (by rcases hp with hp | hp <;> simp [hp])
  have herr := h.err_eq_none (by rcases hp with hp | hp <;> simp [hp])
  have hls : leafSyms nodes = leafSyms s.nodes ∧ leafWeights nodes = leafWeights s.nodes := by
    have : ∀ l : List Node, (∀ n ∈ l, n.isLeaf = false) → leafSyms l = [] ∧ leafWeights l = [] := by
      intro l
      induction l with
      | nil => intro _; exact ⟨rfl, rfl⟩
      | cons n l ih =>
        intro hl
        have := hl n (by simp)
        cases n with
        | leaf => simp [Node.isLeaf] at this
        | internal => simpa using ih (fun m hm => hl m (List.mem_cons_of_mem _ hm))
    rw [hin, leafSyms_append, leafWeights_append, (this inner hii).1, (this inner hii).2]; simp
  have hcnt := hf.count
  obtain ⟨c1, c2⟩ := countsOk_of_append hall hii (s := { s with nodes := nodes, root := rootOf q, phase := .built }) hin
  have hn : nodes.length = (if 1 ≤ s.nodes.length then 2 * s.nodes.length - 1 else 0) := by
    rcases hq with ⟨he, rfl⟩ | ⟨hne, rfl⟩
    · simp [he] at hcnt ⊢; exact hcnt
    · have := List.length_pos_iff.mpr hne
      simp only [List.length_singleton] at hcnt
      rw [if_pos (by omega)]; omega
  have hroot : ∀ r ∈ (rootOf q).toList, 1 ≤ s.nodes.length ∧ q = [2 * s.nodes.length - 2] ∧ r.toNat = 2 * s.nodes.length - 2 := by
    intro r hr
    rcases hq with ⟨he, rfl⟩ | ⟨hne, rfl⟩
    · simp [rootOf] at hr
    · have := List.length_pos_iff.mpr hne
      simp [rootOf] at hr
      subst hr
      exact ⟨by omega, rfl, by simp; omega⟩
  have hp3 : s.phase = .idle ∨ s.phase = .count ∨ s.phase = .built := hp.imp_right .inl
  have hlut : s.lut = [] := h.lut.2 hp3
  refine ⟨⟨?_, ?_, ?_, ?_, ?_, ?_, ?_, ?_, ?_, ?_⟩, ?_, ?_, ?_, ?_, ?_⟩
  · refine ⟨?_, ?_, by rw [c1]; exact h256, c2⟩
    · rw [c1]; show s.nodes.length ≤ nodes.length; rw [hin]; simp
    · show nodes.length ≤ 511; rw [hn]; split_ifs <;> omega
  · show (leafSyms nodes).Nodup; rw [hls.1]; exact h.r38.leaves
  · show (leafWeights nodes).sum = s.total.toNat ∧ ∀ w ∈ leafWeights nodes, 1 ≤ w
    rw [hls.2]; exact h.r38.weights
  · simp [State.earlyPhasesOk]
  · intro _
    rw [c1]
    refine ⟨hn, ?_, by simp [State.nent, hlut]⟩
    rcases hq with ⟨he, rfl⟩ | ⟨hne, rfl⟩
    · simp [rootOf, he]
    · have := List.length_pos_iff.mpr hne
      simp [rootOf]; omega
  · refine ⟨fun k hk => ?_, ?_⟩
    · have hk : k < nodes.length := hk
      show (nodes[k]?.map (childrenOk nodes k)) = some true
      rw [List.getElem?_eq_getElem hk]
      simp [hf.children k _ (List.getElem?_eq_getElem hk)]
    · intro hr k hk hne
      have hk : k < nodes.length := hk
      have hr : (rootOf q).isSome = true := hr
      have hne : some (BitVec.ofNat 9 k) ≠ rootOf q := hne
      obtain ⟨r, hr⟩ := Option.isSome_iff_exists.mp hr
      obtain ⟨-, hq1, -⟩ := hroot r (by rw [hr]; simp)
      have := hf.parents k hk
      rw [if_neg] at this
      · exact this
      · intro hkq
        apply hne
        rw [hq1] at hkq ⊢
        simp at hkq
        simp [rootOf, hkq]
  · simp [State.tableOk]
  · exact ⟨fun _ => h.r38.buf.1 (hp.imp_right .inl), by simp⟩
  · rw [failedOk_iff]; simp [herr]
  · exact ⟨by simp [hst], h.r38.parser.2⟩
  · refine ⟨fun hr => ?_, fun r hr => ?_, by simp, fun _ hr => ?_⟩
    · have hr : rootOf q = none := hr
      rw [c1]
      rcases hq with ⟨he, rfl⟩ | ⟨hne, rfl⟩
      · show nodes.length = _; rw [hn, he]; simp
      · simp [rootOf] at hr
    · obtain ⟨h1, hq1, h2⟩ := hroot r hr
      rw [c1]
      have hn' : nodes.length = 2 * s.nodes.length - 1 := by rw [hn, if_pos h1]
      refine ⟨h1, hn', ?_, ?_⟩
      · show r.toNat = nodes.length - 1; omega
      · show (leavesUnder nodes.length nodes r.toNat).Perm _
        have := hf.covers
        rw [hq1] at this
        simp only [List.flatMap_cons, List.flatMap_nil, List.append_nil] at this
        rw [h2]; exact this
    · have hr : rootOf q = none := hr
      rcases hq with ⟨he, rfl⟩ | ⟨hne, rfl⟩
      · show nodes.length = 0; rw [hn, he]; simp
      · simp [rootOf] at hr
  · exact ⟨h.lut.1, fun _ => hlut⟩
  · obtain ⟨_, h2, h3, h4, h5, h6, h7⟩ := h.parse
    exact ⟨by simp, fun _ => h2 hp3, h3, h4, h5, h6, h7⟩
  · exact h.bits
  · exact h.errs

/-- In BUILT with a root, the arena is a tree over its leaves. -/
theorem State.Inv.rooted {s : State} (h : s.Inv) {r : NodeIdx} (hr : s.root = some r) : Rooted s.nodes s.ndist r.toNat := by
  obtain ⟨h1, h2, h3, h4⟩ := h.arena.2.1 r (by rw [hr]; simp)
  refine ⟨by rw [h3]; show s.nnodes - 1 < s.nnodes; omega, fun k n hn => ?_, h4⟩
  have hk : k < s.nodes.length := (List.getElem?_eq_some_iff.mp hn).1
  have := h.r38.tree.1 k hk
  rw [hn] at this
  simpa using this

/-- The root of a tree over one leaf is slot 0, a leaf of the whole weight; the root of a larger tree is internal. -/
theorem State.Inv.root_cases {s : State} (h : s.Inv) {r : NodeIdx} (hr : s.root = some r) :
    (s.ndist = 1 ∧ r = 0 ∧ ∃ sym, s.nodes = [.leaf sym s.total]) ∨
    (2 ≤ s.ndist ∧ r.toNat = 2 * s.ndist - 2 ∧ ∃ w a b, s.nodes[r.toNat]? = some (.internal w a b)) := by
  obtain ⟨h1, h2, h3, h4⟩ := h.arena.2.1 r (by rw [hr]; simp)
  by_cases hd : s.ndist = 1
  · left
    rw [hd] at h2
    have hlen : s.nodes.length = 1 := h2
    refine ⟨hd, BitVec.eq_of_toNat_eq (by simp; omega), ?_⟩
    obtain ⟨n, hn⟩ := List.length_eq_one_iff.mp hlen
    have hw := h.r38.weights.1
    rw [ndist_eq, hn] at hd
    cases n with
    | leaf sym w =>
      refine ⟨sym, ?_⟩
      rw [hn] at hw ⊢
      simp at hw
      rw [BitVec.eq_of_toNat_eq hw]
    | internal => simp at hd
  · right
    refine ⟨by omega, by omega, ?_⟩
    have hrl : r.toNat < s.nodes.length := by have : s.nodes.length = s.nnodes := rfl; omega
    have := h.r38.counts.2.2.2 r.toNat hrl
    rw [List.getElem?_eq_getElem hrl] at this ⊢
    have hnl : ¬ r.toNat < s.ndist := by omega
    cases hn : s.nodes[r.toNat] with
    | leaf => rw [hn] at this; simp [Node.isLeaf, hnl] at this
    | internal w a b => exact ⟨w, a, b, rfl⟩

/-- The symbol of leaf `i` (R27). -/
theorem symAt_eq {nodes : List Node} {i : Nat} {n : Node} (h : nodes[i]? = some n) : symAt nodes i = n.sym := by
  simp [symAt, h]

/-- The symbols of the leaves as the table has them. -/
theorem State.Inv.leafSyms_eq {s : State} (h : s.Inv) :
    (List.range s.ndist).map (symAt s.nodes) = leafSyms s.nodes := by
  have hc := h.r38.counts
  -- the leaves stand first
  have key : ∀ (ns : List Node) (d : Nat), (∀ k < ns.length, (ns[k]?.map Node.isLeaf) = some (decide (k < d))) → d ≤ ns.length →
      (List.range d).map (symAt ns) = leafSyms ns := by
    intro ns
    induction ns with
    | nil => intro d _ hd; simp at hd; subst hd; rfl
    | cons n ns ih =>
      intro d hk hd
      cases d with
      | zero =>
        have : leafSyms (n :: ns) = [] := by
          rw [List.eq_nil_iff_forall_not_mem]
          intro y hy
          obtain ⟨w, hw⟩ := mem_leafSyms.mp hy
          obtain ⟨i, hi⟩ := List.mem_iff_getElem?.mp hw
          have := hk i (List.getElem?_eq_some_iff.mp hi).1
          rw [hi] at this; simp [Node.isLeaf] at this
        rw [this]; rfl
      | succ d =>
        have h0 := hk 0 (by simp)
        cases n with
        | internal => simp [Node.isLeaf] at h0
        | leaf y w =>
          rw [List.range_succ_eq_map, List.map_cons, List.map_map, leafSyms_leaf]
          congr 1
          rw [← ih d (fun k hk' => ?_) (by simpa using hd)]
          · rfl
          · have := hk (k + 1) (by simpa using hk')
            simpa using this
  exact key s.nodes s.ndist hc.2.2.2 hc.1

/-- What ASSIGN writes for a tree (42_code_table_generator.md R130 to R134). -/
theorem assign_spec {s : State} (h : s.Inv) {r : NodeIdx} (hr : s.root = some r) :
    (assignTable s.nodes s.ndist r.toNat).length = s.ndist ∧
    (∀ i < s.ndist, ∃ c, (assignTable s.nodes s.ndist r.toNat)[i]? = some ⟨symAt s.nodes i, c⟩ ∧
      1 ≤ c.length ∧ c.length ≤ max 1 (s.ndist - 1) ∧ (2 ≤ s.ndist → follow s.nodes r.toNat c = some i)) ∧
    PrefixFree (assignTable s.nodes s.ndist r.toNat) := by
  rcases h.root_cases hr with ⟨hd, rfl, sym, hn⟩ | ⟨hd, -, w, a, b, hn⟩
  · have : assignTable s.nodes s.ndist (0 : NodeIdx).toNat = [⟨sym, [false]⟩] := by
      rw [hn]; simp [assignTable, symAt, Node.sym]
    rw [this, hd]
    refine ⟨rfl, fun i hi => ⟨[false], ?_, by simp, by simp, by omega⟩, by simp [PrefixFree]⟩
    have : i = 0 := by omega
    subst this
    rw [hn]; simp [symAt, Node.sym]
  · obtain ⟨h1, h2, h3⟩ := assignTable_internal (h.rooted hr) hn
    refine ⟨h1, fun i hi => ?_, h3⟩
    obtain ⟨c, e1, e2, e3, e4⟩ := h2 i hi
    exact ⟨c, e1, e3, by omega, fun _ => e2⟩

/-- The table ASSIGN makes is a good one (R134; 43_code_lut.md R156). -/
theorem assign_tableOk {s : State} (h : s.Inv) {r : NodeIdx} (hr : s.root = some r) :
    TableOk (assignTable s.nodes s.ndist r.toNat) ∧
    (assignTable s.nodes s.ndist r.toNat).map Entry.sym = leafSyms s.nodes := by
  obtain ⟨h1, h2, -⟩ := assign_spec h hr
  have hs : (assignTable s.nodes s.ndist r.toNat).map Entry.sym = leafSyms s.nodes := by
    rw [← h.leafSyms_eq]
    apply List.ext_getElem
    · simp [h1]
    · intro i hi _
      simp only [List.length_map] at hi
      obtain ⟨c, hc, -⟩ := h2 i (by omega)
      obtain ⟨_, e⟩ := List.getElem?_eq_some_iff.mp hc
      simp [e]
  refine ⟨⟨by rw [hs]; exact h.r38.leaves, fun e he => ?_⟩, hs⟩
  obtain ⟨i, hi⟩ := List.mem_iff_getElem?.mp he
  have hil := (List.getElem?_eq_some_iff.mp hi).1
  obtain ⟨c, hc, e1, e2, -⟩ := h2 i (by omega)
  rw [hi] at hc; cases hc
  have := h.r38.counts.2.2.1
  simp only [Config.nsym, Config.codeLenMax] at *
  exact ⟨e1, by omega⟩

/-- ASSIGN keeps the invariant. -/
theorem assign_inv {s : State} (h : s.Inv) (hp : s.phase = .built) : (assignOwn s).Inv := by
  have hst := h.pstate_start (by simp [hp]) (by simp [hp])
  have herr := h.err_eq_none (by simp [hp])
  have hbuf : s.buf = [] := h.r38.buf.1 (by tauto)
  have hmp : s.mappos = 0 := h.parse.2.1 (by tauto)
  -- all that the two forms share
  have common : ∀ lut, TableOk lut → (1 < lut.length → PrefixFree lut) → ({ s with lut := lut, phase := .ready } : State).Inv := by
    intro lut hok hpf
    refine ⟨⟨h.r38.counts, h.r38.leaves, h.r38.weights, by simp [State.earlyPhasesOk], by simp [State.builtOk], h.r38.tree,
      fun _ => ⟨hok, hpf⟩, ⟨by simp, fun _ => ?_⟩, ?_, ⟨by simp [hst], h.r38.parser.2⟩⟩, ?_, ⟨hok, by simp⟩, ?_, h.bits,
      h.errShape_of_none herr herr rfl rfl⟩
    · show s.buf.length ≤ _ ∧ ∀ e ∈ lut, e.code ≠ s.buf
      rw [hbuf]
      exact ⟨by simp, fun e he hc => by have := (hok.2 e he).1; rw [hc] at this; simp at this⟩
    · rw [failedOk_iff]; simp [herr]
    · exact ⟨h.arena.1, h.arena.2.1, by simp, fun _ => h.arena.2.2.2 (by tauto)⟩
    · obtain ⟨_, _, _, h4, h5, h6, h7⟩ := h.parse
      refine ⟨by simp, by simp, fun _ => .inl hmp, ?_, h5, h6, ?_⟩
      · show s.pstate.inEntry = true → _
        rw [hst]; simp [PState.inEntry]
      · show s.pstate ≠ .start → _
        rw [hst]; simp
  rcases assignOwn_cases s with ⟨hr, he⟩ | ⟨r, hr, he⟩ <;> rw [he]
  · have hl : s.lut = [] := h.lut.2 (by tauto)
    have := common s.lut h.lut.1 (by simp [hl])
    exact this
  · exact common _ (assign_tableOk h hr).1 (fun _ => (assign_spec h hr).2.2)

end Sys2Proof.Machine
end

