-- ==== Sys2Proof/Laws/Parser.lean ====
section
/-! SUPPORT. The map parser and the decoder against the invariant (45_bit_stream_decoder.md R182 to R193): the bound on MAPPOS
(10_state.md R30), and LDMAP, ENDMAP, BIT and ENDDATA keep the invariant. -/

namespace Sys2Proof.Machine

/-! ### How long a map can be (10_state.md R30; 30_encoding.md R93) -/

theorem esc_length (y : Byte) : (esc y).length = if isSpecial y then 2 else 1 := by unfold esc; split <;> rfl

@[simp] theorem str_length (c : Code) : (str c).length = c.length := by simp [str]

theorem serEntry_length (e : Entry) : (serEntry e).length = (esc e.sym).length + 1 + e.code.length := by
  simp [serEntry]; omega

@[simp] theorem committedChars_nil : committedChars [] = 0 := rfl

theorem committedChars_append (a b : List Entry) : committedChars (a ++ b) = committedChars a + committedChars b := by
  simp [committedChars]

theorem committedChars_singleton (e : Entry) : committedChars [e] = (esc e.sym).length + 1 + e.code.length + 1 := by
  simp [committedChars, serEntry_length]

/-- The characters of `n` good entries: at most 258 each, and one more for each of the three symbols that need an escape. -/
theorem committedChars_le {lut : List Entry} (h : TableOk lut) : committedChars lut ≤ 258 * lut.length + 3 := by
  have h1 : committedChars lut ≤ 258 * lut.length + (lut.map Entry.sym).countP isSpecial := by
    have hc := h.2
    clear h
    induction lut with
    | nil => simp
    | cons e es ih =>
      have := ih (fun f hf => hc f (List.mem_cons_of_mem _ hf))
      have he := (hc e (by simp)).2
      simp only [Config.codeLenMax] at he
      rw [show e :: es = [e] ++ es from rfl, committedChars_append, committedChars_singleton, esc_length]
      simp only [List.length_append, List.length_singleton, List.map_append, List.countP_append, List.map_cons, List.map_nil,
        List.countP_singleton]
      split <;> omega
  have h2 : (lut.map Entry.sym).countP isSpecial ≤ 3 := by
    rw [List.countP_eq_length_filter]
    have hn := h.1.filter isSpecial
    have hs : (((lut.map Entry.sym).filter isSpecial)).Subperm [chComma, chColon, chBackslash] := by
      apply List.subperm_of_subset hn
      intro y hy
      have := (List.mem_filter.mp hy).2
      simpa [isSpecial, or_assoc] using this
    simpa using hs.length_le
  omega

theorem TableOk.length_le {lut : List Entry} (h : TableOk lut) : lut.length ≤ 256 := by
  simpa using nodup_bytes_length h.1

/-- A good table that lacks a symbol has at most 255 entries. -/
theorem TableOk.length_le_of_not_mem {lut : List Entry} (h : TableOk lut) {y : Byte} (hy : ∀ e ∈ lut, e.sym ≠ y) : lut.length ≤ 255 := by
  have hn : (y :: lut.map Entry.sym).Nodup := by
    rw [List.nodup_cons]; refine ⟨?_, h.1⟩
    rw [List.mem_map]; rintro ⟨e, he, rfl⟩; exact hy e he rfl
  have := nodup_bytes_length hn
  simp at this; omega

/-- MAPPOS is at most 66303 (10_state.md R30). -/
theorem State.Inv.mappos_le {s : State} (h : s.Inv) : s.mappos.toNat ≤ 66303 := by
  obtain ⟨_, _, h3, h4, h5, h6, h7⟩ := h.parse
  have ht := h.lut.1
  have hc := committedChars_le ht
  have hl := ht.length_le
  by_cases hst : s.pstate = .start
  · rcases h3 hst with h0 | h0
    · simp [h0]
    · omega
  · have h7 := h7 hst
    by_cases hin : s.pstate.inEntry = true
    · have hl' := ht.length_le_of_not_mem (h4 hin)
      have he : entryChars s.pstate s.cursym s.curcode.length ≤ 258 := by
        have hesc : (esc s.cursym).length ≤ 2 := by rw [esc_length]; split <;> omega
        have h6' := h6
        cases hp : s.pstate with
        | code => have := (h6 hp).2; simp only [Config.codeLenMax] at this; simp only [entryChars]; omega
        | _ => simp only [entryChars]; omega
      omega
    · have he : entryChars s.pstate s.cursym s.curcode.length ≤ 1 := by
        cases hp : s.pstate <;> simp [hp, PState.inEntry, entryChars] at hin ⊢
      omega

theorem State.Inv.mappos_succ {s : State} (h : s.Inv) : (s.mappos + 1).toNat = s.mappos.toNat + 1 := by
  have := h.mappos_le
  rw [BitVec.toNat_add]; simp; omega

/-! ### LDMAP -/

/-- What a state in MAPLOAD needs beyond the state it comes from. -/
theorem mapload_inv {s : State} (h : s.Inv) (hp : s.phase = .idle ∨ s.phase = .mapload) (p : PState) (lut : List Entry) (y : Byte)
    (c : Code) (m : Word) (hlut : TableOk lut) (hc : c ≠ [] → p = .code)
    (hshape : ({ s with pstate := p, lut := lut, cursym := y, curcode := c, mappos := m, phase := .mapload } : State).parserShape) :
    ({ s with pstate := p, lut := lut, cursym := y, curcode := c, mappos := m, phase := .mapload } : State).Inv := by
  have herr := h.err_eq_none (by rcases hp with hp | hp <;> simp [hp])
  have hearly := h.r38.early.1 hp
  have hbuf : s.buf = [] := h.r38.buf.1 (by rcases hp with hp | hp <;> simp [hp])
  refine ⟨⟨h.r38.counts, h.r38.leaves, h.r38.weights, ⟨fun _ => hearly, by simp⟩, by simp [State.builtOk], h.r38.tree,
    by simp [State.tableOk], ⟨fun _ => hbuf, by simp⟩, ?_, ⟨by simp, hc⟩⟩, ?_, ⟨hlut, by simp⟩, hshape, h.bits,
    h.errShape_of_none herr herr rfl rfl⟩
  · rw [failedOk_iff]; simp [herr]
  · exact ⟨h.arena.1, h.arena.2.1, fun _ => h.arena.2.2.1 hp, by simp⟩

/-- LDMAP keeps the invariant. -/
theorem ldmap_inv {s : State} (h : s.Inv) (hp : s.phase = .idle ∨ s.phase = .mapload) (ch : Byte) : (ldmapOwn ch s).Inv := by
  rcases ldmapOwn_cases ch s with ⟨e, hpe, he⟩ | ⟨t, ht, he⟩ <;> rw [he]
  · exact h.raise _ _ (by rcases parseStep_error hpe with rfl | ⟨rfl, _⟩ <;> simp)
  have hm := h.mappos_succ
  have hok := h.lut.1
  obtain ⟨h1, h2, h3, h4, h5, h6, h7⟩ := h.parse
  -- before a symbol: MAPPOS is the characters of the committed entries
  have hbefore : s.pstate = .start ∨ s.pstate = .sym → s.mappos.toNat = committedChars s.lut := by
    rintro (hst | hsy)
    · rcases hp with hp | hp
      · rw [h2 (.inl hp), h.lut.2 (.inl hp)]; rfl
      · exact absurd hst (h1 hp)
    · have := h7 (by simp [hsy]); simpa [hsy, entryChars] using this
  have hcur0 : ∀ p : PState, s.pstate = p → p ≠ .code → s.curcode = [] := by
    intro p hsp hne
    by_contra hc
    exact hne (hsp ▸ h.r38.parser.2 hc)
  rcases parseStep_ok ht with ⟨hps, _, rfl⟩ | ⟨hps, hl, rfl⟩ | ⟨hps, _, rfl⟩ | ⟨b, _, ⟨hps, rfl⟩ | ⟨hps, hlen, rfl⟩⟩ | ⟨hps, _, rfl⟩
  · -- an escape character
    have hin : s.pstate.inEntry = false := by rcases hps with hps | hps <;> simp [hps, PState.inEntry]
    have hcur : s.curcode = [] := by rcases hps with hps | hps <;> exact hcur0 _ hps (by simp)
    refine mapload_inv h hp .esc s.lut s.cursym s.curcode (s.mappos + 1) hok (by simp [hcur]) ?_
    refine ⟨by simp, by simp, by simp, by simp [PState.inEntry], fun _ => h5 hin, by simp, fun _ => ?_⟩
    show (s.mappos + 1).toNat = _ + 1
    rw [hm, hbefore hps]
  · -- a symbol
    refine mapload_inv h hp .colon s.lut ch [] (s.mappos + 1) hok (by simp) ?_
    refine ⟨by simp, by simp, by simp, fun _ => lookupSym_eq_none.mp hl, by simp [PState.inEntry], by simp, fun _ => ?_⟩
    show (s.mappos + 1).toNat = _ + (esc ch).length
    rw [hm, esc_length]
    rcases hps with ⟨hps, hsp⟩ | ⟨hps, hsp⟩
    · rw [hbefore hps, hsp]; simp
    · have := h7 (by simp [hps])
      rw [this, hsp, hps]; rfl
  · -- a separator
    have hcur : s.curcode = [] := hcur0 _ hps (by simp)
    refine mapload_inv h hp .code0 s.lut s.cursym s.curcode (s.mappos + 1) hok (by simp [hcur]) ?_
    refine ⟨by simp, by simp, by simp, fun _ => h4 (by simp [hps, PState.inEntry]), by simp [PState.inEntry], by simp, fun _ => ?_⟩
    have := h7 (by simp [hps])
    show (s.mappos + 1).toNat = _ + ((esc s.cursym).length + 1)
    rw [hm, this, hps]; simp [entryChars]; omega
  · -- the first bit of a code
    refine mapload_inv h hp .code s.lut s.cursym [b] (s.mappos + 1) hok (by simp) ?_
    refine ⟨by simp, by simp, by simp, fun _ => h4 (by simp [hps, PState.inEntry]), by simp [PState.inEntry],
      fun _ => by simp [Config.codeLenMax], fun _ => ?_⟩
    have := h7 (by simp [hps])
    show (s.mappos + 1).toNat = _ + ((esc s.cursym).length + 1 + 1)
    rw [hm, this, hps]; simp [entryChars]; omega
  · -- a further bit
    obtain ⟨hc1, hc2⟩ := h6 hps
    have hs : ({ s with curcode := s.curcode ++ [b], mappos := s.mappos + 1, phase := .mapload } : State) =
        { s with pstate := .code, lut := s.lut, cursym := s.cursym, curcode := s.curcode ++ [b], mappos := s.mappos + 1,
                 phase := .mapload } := by rw [← hps]
    show ({ s with curcode := s.curcode ++ [b], mappos := s.mappos + 1, phase := .mapload } : State).Inv
    rw [hs]
    refine mapload_inv h hp .code s.lut s.cursym (s.curcode ++ [b]) (s.mappos + 1) hok (by simp) ?_
    refine ⟨by simp, by simp, by simp, fun _ => h4 (by simp [hps, PState.inEntry]), by simp [PState.inEntry], fun _ => ?_, fun _ => ?_⟩
    · show 1 ≤ (s.curcode ++ [b]).length ∧ (s.curcode ++ [b]).length ≤ _
      simp only [List.length_append, List.length_singleton, Config.codeLenMax] at *
      omega
    · have := h7 (by simp [hps])
      show (s.mappos + 1).toNat = _ + ((esc s.cursym).length + 1 + (s.curcode ++ [b]).length)
      rw [hm, this, hps]; simp [entryChars]; omega
  · -- a delimiter: the entry is committed
    have hne := h4 (by simp [hps, PState.inEntry])
    refine mapload_inv h hp .sym (s.lut ++ [⟨s.cursym, s.curcode⟩]) 0 [] (s.mappos + 1) ?_ (by simp) ?_
    · exact commit_tableOk hok hne (h6 hps)
    · refine ⟨by simp, by simp, by simp, by simp [PState.inEntry], by simp, by simp, fun _ => ?_⟩
      have := h7 (by simp [hps])
      show (s.mappos + 1).toNat = committedChars (s.lut ++ [⟨s.cursym, s.curcode⟩]) + 0
      rw [hm, this, hps, committedChars_append, committedChars_singleton]; simp [entryChars]; omega
where
  commit_tableOk {lut : List Entry} {y : Byte} {c : Code} (hok : TableOk lut) (hne : ∀ e ∈ lut, e.sym ≠ y)
      (hc : 1 ≤ c.length ∧ c.length ≤ Config.codeLenMax) : TableOk (lut ++ [⟨y, c⟩]) := by
    refine ⟨?_, fun e he => ?_⟩
    · rw [List.map_append, List.nodup_append]
      refine ⟨hok.1, by simp, fun a ha b hb => ?_⟩
      simp at hb; subst hb
      obtain ⟨e, he, rfl⟩ := List.mem_map.mp ha
      exact hne e he
    · rcases List.mem_append.mp he with he | he
      · exact hok.2 e he
      · simp at he; subst he; exact hc

/-! ### ENDMAP -/

/-- The second half of ENDMAP keeps the invariant from a state between entries. -/
theorem finishMap_inv {s : State} (h : s.Inv) (hp : s.phase = .idle ∨ s.phase = .mapload) (lut : List Entry) (hlut : TableOk lut)
    (hpos : s.mappos = 0 ∨ s.mappos.toNat + 1 = committedChars lut) :
    (finishMap { s with lut := lut, cursym := 0, curcode := [] }).Inv := by
  have herr := h.err_eq_none (by rcases hp with hp | hp <;> simp [hp])
  have harena : ∀ ph, ph = .ready ∨ ph = .failed →
      ({ s with pstate := .start, lut := lut, cursym := 0, curcode := [], phase := ph } : State).arenaShape := by
    intro ph hph
    refine ⟨h.arena.1, h.arena.2.1, fun h' => ?_, fun _ _ => (h.r38.early.1 hp).2.1⟩
    exact h.arena.2.2.1 hp
  have hshape : ∀ ph, ph = .ready ∨ ph = .failed →
      ({ s with pstate := .start, lut := lut, cursym := 0, curcode := [], phase := ph } : State).parserShape := by
    intro ph hph
    refine ⟨?_, ?_, fun _ => hpos, by simp [PState.inEntry], by simp, by simp, by simp⟩
    · rcases hph with rfl | rfl <;> simp
    · rcases hph with rfl | rfl <;> simp
  rcases finishMap_cases { s with lut := lut, cursym := 0, curcode := [] } with ⟨hpc, he⟩ | ⟨i, j, hpc, he⟩ <;> rw [he]
  · have hpf : PrefixFree lut := by
      rcases prefixCheck_spec lut with ⟨_, h'⟩ | ⟨_, _, h', _⟩
      · exact h'
      · rw [show prefixCheck lut = none from hpc] at h'; cases h'
    refine ⟨⟨h.r38.counts, h.r38.leaves, h.r38.weights, by simp [State.earlyPhasesOk], by simp [State.builtOk], h.r38.tree,
      fun _ => ⟨hlut, fun _ => hpf⟩, ⟨by simp, fun _ => ⟨by simp, ?_⟩⟩, ?_, ⟨by simp, by simp⟩⟩, harena _ (.inl rfl), ⟨hlut, by simp⟩,
      hshape _ (.inl rfl), by simp [State.bufShape], h.errShape_of_none herr herr rfl rfl⟩
    · intro e he hc
      have := (hlut.2 e he).1
      have hc : e.code = [] := hc
      rw [hc] at this; simp at this
    · rw [failedOk_iff]; simp [herr]
  · rw [raise_of_err_none _ _ _ (by exact herr)]
    refine ⟨⟨h.r38.counts, h.r38.leaves, h.r38.weights, by simp [State.earlyPhasesOk], by simp [State.builtOk], h.r38.tree,
      by simp [State.tableOk], by simp [State.bufOk], ?_, ⟨by simp, by simp⟩⟩, harena _ (.inr rfl), ⟨hlut, by simp⟩,
      hshape _ (.inr rfl), h.bits, ⟨by simp, by simp, fun _ => ?_⟩⟩
    · rw [failedOk_iff]; simp
    · have hlt := (prefixCheck_firstCollision hpc).lt
      have hlen := hlut.length_le
      have hlt : i < j ∧ j < lut.length := hlt
      obtain ⟨h1, h2, h3, h4⟩ := collideWord_fields (i := i) (j := j) (by omega) (by omega)
      exact ⟨h1, h2, by rw [h3, h4]; exact hpc⟩

/-- ENDMAP keeps the invariant. -/
theorem endmap_inv {s : State} (h : s.Inv) (hp : s.phase = .idle ∨ s.phase = .mapload) : (endmapOwn s).Inv := by
  obtain ⟨h1, h2, h3, h4, h5, h6, h7⟩ := h.parse
  rcases endmapOwn_cases s with ⟨hps, he⟩ | ⟨hps, he⟩ | ⟨_, _, he⟩ <;> rw [he]
  · have hcur : s.curcode = [] := by
      by_contra hc; have := h.r38.parser.2 hc; rw [hps] at this; cases this
    have := finishMap_inv h hp s.lut h.lut.1 (h3 hps)
    have e : ({ s with lut := s.lut, cursym := 0, curcode := [] } : State) = s := by
      rw [← h5 (by simp [hps, PState.inEntry]), ← hcur]
    rw [e] at this
    exact this
  · have hne := h4 (by simp [hps, PState.inEntry])
    refine finishMap_inv h hp _ (ldmap_inv.commit_tableOk h.lut.1 hne (h6 hps)) (.inr ?_)
    have := h7 (by simp [hps])
    rw [this, hps, committedChars_append, committedChars_singleton]; simp [entryChars]; omega
  · exact h.raise _ _

/-! ### PACK, BIT and ENDDATA -/

/-- A change of phase and buffer inside the decode phases. -/
theorem decode_inv {s : State} (h : s.Inv) (hp : s.phase = .ready) (buf : Code) (ph : Phase)
    (hph : ph = .ready ∧ buf.length ≤ Config.codeLenMax ∧ (∀ e ∈ s.lut, e.code ≠ buf) ∨ ph = .done ∧ buf = []) :
    ({ s with buf := buf, phase := ph } : State).Inv := by
  have herr := h.err_eq_none (by simp [hp])
  have hst := h.pstate_start (by simp [hp]) (by simp [hp])
  have hlen : buf.length ≤ Config.codeLenMax := by
    rcases hph with ⟨_, h', _⟩ | ⟨_, rfl⟩
    · exact h'
    · simp
  have hne : ph ≠ .idle ∧ ph ≠ .count ∧ ph ≠ .built ∧ ph ≠ .mapload ∧ ph ≠ .failed := by
    rcases hph with ⟨rfl, _⟩ | ⟨rfl, _⟩ <;> simp
  refine ⟨⟨h.r38.counts, h.r38.leaves, h.r38.weights, ⟨fun h' => ?_, fun h' => absurd h' hne.2.1⟩, fun h' => absurd h' hne.2.2.1,
    h.r38.tree, fun _ => h.r38.table (.inl hp), ⟨fun h' => ?_, fun h' => ?_⟩, ?_, ⟨by simp [hst], h.r38.parser.2⟩⟩, ?_, ?_, ?_, hlen,
    h.errs⟩
  · rcases h' with h' | h'
    · exact absurd h' hne.1
    · exact absurd h' hne.2.2.2.1
  · rcases hph with ⟨rfl, _⟩ | ⟨_, h''⟩
    · simp at h'
    · exact h''
  · rcases hph with ⟨_, h'', h3⟩ | ⟨rfl, _⟩
    · exact ⟨h'', h3⟩
    · simp at h'
  · rw [failedOk_iff]; simp [herr, hne]
  · exact ⟨h.arena.1, h.arena.2.1, fun h' => by rcases h' with h' | h'; exacts [absurd h' hne.1, absurd h' hne.2.2.2.1],
      fun _ => h.arena.2.2.2 (.inr (.inl hp))⟩
  · exact ⟨h.lut.1, fun h' => by rcases h' with h' | h' | h'; exacts [absurd h' hne.1, absurd h' hne.2.1, absurd h' hne.2.2.1]⟩
  · obtain ⟨_, _, h3, h4, h5, h6, h7⟩ := h.parse
    exact ⟨fun h' => absurd h' hne.2.2.2.1,
      fun h' => by rcases h' with h' | h' | h'; exacts [absurd h' hne.1, absurd h' hne.2.1, absurd h' hne.2.2.1], h3, h4, h5, h6, h7⟩

/-- In a good table no code is empty. -/
theorem TableOk.code_ne_nil {lut : List Entry} (h : TableOk lut) : ∀ e ∈ lut, e.code ≠ [] := by
  intro e he hc
  have := (h.2 e he).1
  rw [hc] at this; simp at this

/-- BIT keeps the invariant. -/
theorem bit_inv {s : State} (h : s.Inv) (hp : s.phase = .ready) (ch : Byte) : (bitOwn ch s).Inv := by
  rcases bitOwn_cases ch s with ⟨-, he⟩ | ⟨b, -, hlen, ⟨e, -, he⟩ | ⟨hl, he⟩⟩ <;> rw [he]
  · exact h.raise _ _
  · have := (decode_inv h hp [] .ready (.inl ⟨rfl, by simp, h.lut.1.code_ne_nil⟩)).outputs s.mapOut s.dataOut
      (s.textOut ++ [e.sym]) s.rsp s.input
    rw [← hp] at this; exact this
  · have hb := h.bits
    have := decode_inv h hp (s.buf ++ [b]) .ready (.inl ⟨rfl, by
      simp only [State.bufShape, List.length_append, List.length_singleton] at *; omega, lookupCode_eq_none.mp hl⟩)
    rw [← hp] at this; exact this

/-- ENDDATA keeps the invariant. -/
theorem enddata_inv {s : State} (h : s.Inv) (hp : s.phase = .ready) : (enddataOwn s).Inv := by
  rcases enddataOwn_cases s with ⟨hb, he⟩ | ⟨-, he⟩ <;> rw [he]
  · have := decode_inv h hp s.buf .done (.inr ⟨rfl, hb⟩)
    exact this
  · exact h.raise _ _

/-- PACK keeps the invariant. -/
theorem pack_inv {s : State} (h : s.Inv) (sym : Byte) : (packOwn sym s).Inv := by
  rcases packOwn_cases sym s with ⟨-, he⟩ | ⟨e, -, he⟩ <;> rw [he]
  · exact h.raise _ _
  · exact h.outputs s.mapOut (s.dataOut ++ str e.code) s.textOut s.rsp s.input

end Sys2Proof.Machine
end

