-- ==== Sys2Proof/Laws/PerInstr.lean ====
section
/-! SUPPORT. The family `EncodesInItsRow`, command by command: a command's word passes the checks of WellFormed.lean and selects the
row of the opcode map that carries its mnemonic (30_encoding.md R80 to R82). -/

namespace Sys2Proof.Laws.EncodesInItsRow

/-- The word of the command is well formed and selects the row of its mnemonic. -/
def Statement (i : Instr) : Prop :=
  wellFormedWord (encode i) = true ∧ ∃ r ∈ opcodeMap, r.mnemonic = i.mnemonic ∧ r.selects (encode i) = true

theorem nop : Statement .nop := ⟨by decide, _, .head _, rfl, by decide⟩
theorem clr : Statement .clr := ⟨by decide, _, .tail _ (.head _), rfl, by decide⟩
theorem freq (sym : Byte) : Statement (.freq sym) :=
  ⟨by revert sym; decide, ⟨"FREQ", 0x10000000, 0xFFFFFF00⟩, by decide, rfl, by revert sym; decide⟩
theorem build : Statement .build := ⟨by decide, ⟨"BUILD", 0x11000000, 0xFFFFFFFF⟩, by decide, rfl, by decide⟩
theorem assign : Statement .assign := ⟨by decide, ⟨"ASSIGN", 0x12000000, 0xFFFFFFFF⟩, by decide, rfl, by decide⟩
theorem sermap : Statement .sermap := ⟨by decide, ⟨"SERMAP", 0x13000000, 0xFFFFFFFF⟩, by decide, rfl, by decide⟩
theorem pack (sym : Byte) : Statement (.pack sym) :=
  ⟨by revert sym; decide, ⟨"PACK", 0x14000000, 0xFFFFFF00⟩, by decide, rfl, by revert sym; decide⟩
theorem ldmap (ch : Byte) : Statement (.ldmap ch) :=
  ⟨by revert ch; decide, ⟨"LDMAP", 0x20000000, 0xFFFFFF00⟩, by decide, rfl, by revert ch; decide⟩
theorem endmap : Statement .endmap := ⟨by decide, ⟨"ENDMAP", 0x21000000, 0xFFFFFFFF⟩, by decide, rfl, by decide⟩
theorem bit (ch : Byte) : Statement (.bit ch) :=
  ⟨by revert ch; decide, ⟨"BIT", 0x22000000, 0xFFFFFF00⟩, by decide, rfl, by revert ch; decide⟩
theorem enddata : Statement .enddata := ⟨by decide, ⟨"ENDDATA", 0x23000000, 0xFFFFFFFF⟩, by decide, rfl, by decide⟩

theorem rdreg (addr : Addr) : Statement (.rdreg addr) := by
  refine ⟨?_, ⟨"RDREG", 0x30000000, 0xFFFF0000⟩, by decide, rfl, ?_⟩
  · have h1 : (encode (.rdreg addr)).extractLsb' 24 8 = 0x30 := opField_cmd32 0x30 addr
    have h2 : (encode (.rdreg addr)).extractLsb' 16 8 = 0 := rsvField_cmd32 0x30 addr
    simp [wellFormedWord, opKnown, rsvZero, operandOk, operandKindOf, h1, h2]
  · simp only [OpcodeRow.selects, encode, beq_iff_eq]
    apply BitVec.eq_of_getLsbD_eq
    intro n hn
    have key : ∀ n < 32, (0xFFFF0000 : Word).getLsbD n = decide (16 ≤ n) ∧
        (0x30000000 : Word).getLsbD n = if n < 24 then false else (0x30 : Byte).getLsbD (n - 24) := by decide
    rw [BitVec.getLsbD_and, cmd32_getLsbD, (key n hn).1, (key n hn).2]
    by_cases h16 : n < 16
    · simp [h16, show n < 24 by omega]
    · simp [h16, show 16 ≤ n by omega]

end Sys2Proof.Laws.EncodesInItsRow
end

