-- ==== Sys2Proof/Laws/ReadSpace.lean ====
section
/-! SUPPORT. RDREG's read of one word (20_memory.md R61 to R65): which window an address falls in, when two states read the same, and
what the FREQ view and the code words of the LUT window hold. -/

namespace Sys2Proof.Machine

/-- The CSR window (10_state.md R31). -/
theorem memRead_csr (s : State) (a : Addr) (h : a.toNat < 16) : memRead s a = readCsr s a.toNat := by
  unfold memRead; simp only; rw [if_pos h]

/-- FREQ of a symbol that has a leaf is the leaf's weight (10_state.md R28). -/
theorem freqOf_mem {sym : Byte} {w : Word} {nodes : List Node} (hn : (leafSyms nodes).Nodup) (h : Node.leaf sym w ∈ nodes) : freqOf sym nodes = w := by
  induction nodes with
  | nil => simp at h
  | cons n ns ih =>
    cases n with
    | leaf t v =>
      simp only [leafSyms_leaf, List.nodup_cons] at hn
      unfold freqOf
      by_cases ht : t = sym
      · subst ht
        rcases List.mem_cons.mp h with h | h
        · cases h; simp
        · exact absurd (mem_leafSyms.mpr ⟨w, h⟩) hn.1
      · rw [if_neg ht]
        rcases List.mem_cons.mp h with h | h
        · cases h; simp at ht
        · exact ih hn.2 h
    | internal v l r =>
      unfold freqOf
      exact ih (by simpa using hn) (by simpa using h)

/-- FREQ of a symbol that has no leaf is 0 (10_state.md R28). -/
theorem freqOf_not_mem {sym : Byte} {nodes : List Node} (h : sym ∉ leafSyms nodes) : freqOf sym nodes = 0 := by
  induction nodes with
  | nil => rfl
  | cons n ns ih =>
    cases n with
    | leaf t v =>
      simp only [leafSyms_leaf, List.mem_cons, not_or] at h
      unfold freqOf; rw [if_neg (Ne.symm h.1)]; exact ih h.2
    | internal v l r => unfold freqOf; exact ih (by simpa using h)

/-- The FREQ window (20_memory.md R62). -/
theorem memRead_freq (s : State) (a : Addr) (h1 : 0x100 ≤ a.toNat) (h2 : a.toNat < 0x200) : memRead s a = freqOf (BitVec.ofNat 8 (a.toNat - 0x100)) s.nodes := by
  unfold memRead; simp only; rw [if_neg (by omega), if_pos ⟨h1, h2⟩]

/-- The NODE window (20_memory.md R63). -/
theorem memRead_node (s : State) (a : Addr) (h1 : 0x400 ≤ a.toNat) (h2 : a.toNat < 0x7FE) : memRead s a = readNode s.nodes (a.toNat - 0x400) := by
  unfold memRead; simp only; rw [if_neg (by omega), if_neg (by omega), if_pos ⟨h1, h2⟩]

/-- The LUT window (20_memory.md R64). -/
theorem memRead_lut (s : State) (a : Addr) (h1 : 0x1000 ≤ a.toNat) (h2 : a.toNat < 0x2000) : memRead s a = readLut s.lut (a.toNat - 0x1000) := by
  unfold memRead; simp only; rw [if_neg (by omega), if_neg (by omega), if_neg (by omega), if_pos ⟨h1, h2⟩]

/-- The address of a symbol's count. -/
theorem freqAddr_toNat (sym : Byte) : (0x0100 + sym.zeroExtend 16 : Addr).toNat = 0x100 + sym.toNat := by
  rw [BitVec.toNat_add]; simp; have := sym.isLt; omega

theorem bitsToNat_lt (l : List Bool) : bitsToNat l < 2 ^ l.length := by
  induction l with
  | nil => simp [bitsToNat]
  | cons b l ih => simp only [bitsToNat, List.length_cons, Nat.pow_succ]; cases b <;> simp <;> omega

/-- Bit `n` of the number is bit `n` of the list. -/
theorem bitsToNat_testBit (l : List Bool) (n : Nat) : (bitsToNat l).testBit n = (l[n]?).getD false := by
  induction l generalizing n with
  | nil => simp [bitsToNat]
  | cons b l ih =>
    unfold bitsToNat
    cases n with
    | zero => cases b <;> simp [Nat.testBit_zero]
    | succ n =>
      rw [Nat.testBit_succ]
      have : (b.toNat + 2 * bitsToNat l) / 2 = bitsToNat l := by cases b <;> simp; omega
      rw [this, ih]; simp

/-- Two states read the same at an address when they agree on the window it falls in. -/
theorem memRead_congr {s t : State} (a : Addr) (h1 : a.toNat < 16 → readCsr t a.toNat = readCsr s a.toNat)
    (h2 : 0x100 ≤ a.toNat → a.toNat < 0x200 → freqOf (BitVec.ofNat 8 (a.toNat - 0x100)) t.nodes = freqOf (BitVec.ofNat 8 (a.toNat - 0x100)) s.nodes)
    (h3 : 0x400 ≤ a.toNat → a.toNat < 0x7FE → readNode t.nodes (a.toNat - 0x400) = readNode s.nodes (a.toNat - 0x400))
    (h4 : 0x1000 ≤ a.toNat → a.toNat < 0x2000 → readLut t.lut (a.toNat - 0x1000) = readLut s.lut (a.toNat - 0x1000)) : memRead t a = memRead s a := by
  unfold memRead; simp only
  split_ifs with c1 c2 c3 c4
  · exact h1 c1
  · exact h2 c2.1 c2.2
  · exact h3 c3.1 c3.2
  · exact h4 c4.1 c4.2
  · rfl

/-- Two states agree on a CSR when they agree on what it shows. -/
theorem readCsr_congr {s t : State} {n : Nat} (hn : n < 16) (h1 : n = 1 → t.statusWord = s.statusWord) (h2 : n = 2 → t.err = s.err) (h3 : n = 3 → t.errinfo = s.errinfo)
   (h4 : n = 4 → t.total = s.total) (h5 : n = 5 → t.ndist = s.ndist) (h6 : n = 6 → t.nnodes = s.nnodes) (h7 : n = 7 → t.root = s.root) (h8 : n = 8 → t.nent = s.nent)
   (h9 : n = 9 → t.buf.length = s.buf.length) (hb : n = 0xB → t.mappos = s.mappos) (hc : n = 0xC → t.collide = s.collide) (hd : n = 0xD → t.curent = s.curent) : readCsr t n = readCsr s n := by
  interval_cases n <;> simp_all [readCsr]

/-- Internal nodes count nothing. -/
theorem freqOf_append_internal (sym : Byte) (l inner : List Node) (h : ∀ n ∈ inner, n.isLeaf = false) : freqOf sym (l ++ inner) = freqOf sym l := by
  induction l with
  | nil =>
    apply freqOf_not_mem
    rw [mem_leafSyms]; rintro ⟨w, hw⟩; have := h _ hw; simp [Node.isLeaf] at this
  | cons n l ih => cases n <;> simp [freqOf, ih]

/-- FREQ of one symbol leaves the counts of the others. -/
theorem freqOf_countSym (y z : Byte) (hz : z ≠ y) (l : List Node) : freqOf z (countSym y l) = freqOf z l := by
  induction l with
  | nil => simp [countSym, freqOf, Ne.symm hz]
  | cons n l ih =>
    cases n with
    | leaf t w =>
      by_cases ht : t = y
      · subst ht; simp [countSym, freqOf, Ne.symm hz]
      · simp [countSym, ht, freqOf, ih]
    | internal w a b => simp [countSym, freqOf, ih]

end Sys2Proof.Machine
end

