-- ==== Sys2Proof/Laws/Runs.lean ====
section
/-! SUPPORT. Runs of one command kind: FREQ over a text, PACK over a text, LDMAP over a map string, BIT over the bits of codes
(30_encoding.md R95, R96), as equations on `afterAll`. -/

namespace Sys2Proof.Machine

/-- The distinct symbols are the symbols of the text. -/
theorem mem_firstOccurrences (p : List Byte) (c : Byte) : c ∈ firstOccurrences p ↔ c ∈ p := by
  induction p with
  | nil => simp [firstOccurrences]
  | cons d p ih =>
    simp only [firstOccurrences, List.mem_cons, List.mem_filter, ih, decide_eq_true_eq]
    tauto

/-- One more symbol is new or changes nothing. -/
theorem firstOccurrences_append (p : List Byte) (c : Byte) : firstOccurrences (p ++ [c]) = if c ∈ p then firstOccurrences p else firstOccurrences p ++ [c] := by
  induction p with
  | nil => simp [firstOccurrences]
  | cons d p ih =>
    simp only [List.cons_append, firstOccurrences, ih, List.mem_cons]
    by_cases hp : c ∈ p
    · simp [hp]
    · by_cases hd : c = d
      · subst hd; simp [hp]
      · simp [hp, hd]

theorem firstOccurrences_nodup (p : List Byte) : (firstOccurrences p).Nodup := by
  induction p with
  | nil => simp [firstOccurrences]
  | cons d p ih =>
    simp only [firstOccurrences, List.nodup_cons]
    exact ⟨by simp, ih.filter _⟩

/-- The leaf FREQ makes of a symbol over a text (41_tree_builder.md R111). -/
def countedLeaf (p : List Byte) (c : Byte) : Node := .leaf c (BitVec.ofNat 32 (p.count c))

theorem leafSyms_countedLeaf (l p : List Byte) : leafSyms (l.map (countedLeaf p)) = l := by
  induction l with
  | nil => rfl
  | cons c l ih => simp [countedLeaf] at ih ⊢; exact ih

/-- FREQ of the next symbol of a text. -/
theorem countSym_text (p : List Byte) (c : Byte) : countSym c ((firstOccurrences p).map (countedLeaf p)) = (firstOccurrences (p ++ [c])).map (countedLeaf (p ++ [c])) := by
  have hcnt : ∀ d, d ≠ c → countedLeaf (p ++ [c]) d = countedLeaf p d := by
    intro d hd; unfold countedLeaf; rw [List.count_append]; simp [Ne.symm hd]
  rw [firstOccurrences_append]
  by_cases hp : c ∈ p
  · rw [if_pos hp]
    obtain ⟨a, w, b, h1, h2, h3⟩ := countSym_of_mem (sym := c) (nodes := (firstOccurrences p).map (countedLeaf p)) (by rw [leafSyms_countedLeaf, mem_firstOccurrences]; exact hp)
    rw [h3]
    obtain ⟨l1, l2, e1, e2, e3⟩ := List.map_eq_append_iff.mp h1
    obtain ⟨d, l3, e4, e5, e6⟩ := List.map_eq_cons_iff.mp e3
    have hd : d = c ∧ BitVec.ofNat 32 (p.count d) = w := by unfold countedLeaf at e5; cases e5; exact ⟨rfl, rfl⟩
    obtain ⟨rfl, hw⟩ := hd
    subst e4
    rw [e1, List.map_append, List.map_cons]
    have hnd := firstOccurrences_nodup p
    rw [e1, List.nodup_append] at hnd
    have hl1 : ∀ x ∈ l1, x ≠ d := fun x hx => hnd.2.2 x hx d (by simp)
    have hl3 : ∀ x ∈ l3, x ≠ d := fun x hx e => (List.nodup_cons.mp hnd.2.1).1 (e ▸ hx)
    rw [← e2, ← e6, List.map_congr_left (fun x hx => hcnt x (hl1 x hx)), List.map_congr_left (fun x hx => hcnt x (hl3 x hx))]
    congr 2
    unfold countedLeaf; rw [List.count_append]
    rw [← hw]; simp
    rw [BitVec.ofNat_add]
  · rw [if_neg hp, countSym_of_not_mem (by rw [leafSyms_countedLeaf, mem_firstOccurrences]; exact hp), List.map_append]
    rw [List.map_congr_left (fun x hx => hcnt x (fun e => hp (by rw [← mem_firstOccurrences, ← e]; exact hx)))]
    simp [countedLeaf, List.count_eq_zero.mpr hp]

/-- CLR and FREQ over a text (41_tree_builder.md R111). -/
theorem freq_run (s : State) (text : List Byte) (hl : text.length < 2 ^ 32) :
    afterAll (text.map .freq) (clearState s) = { clearState s with nodes := (firstOccurrences text).map (countedLeaf text), total := BitVec.ofNat 32 text.length, phase := if text = [] then .idle else .count } := by
  induction text using List.reverseRecOn with
  | nil => simp [firstOccurrences]; rfl
  | append_singleton p c ih =>
    simp only [List.length_append, List.length_singleton] at hl
    have ih := ih (by omega)
    rw [List.map_append, afterAll_append, ih]
    simp only [List.map_cons, List.map_nil, afterAll_cons, afterAll_nil]
    rw [after_of_mem (by by_cases hpn : p = [] <;> simp [legalPhases, hpn])]
    simp only [own]
    have ht : BitVec.ofNat 32 p.length ≠ Config.totalMax := by
      intro e
      have := congrArg BitVec.toNat e
      rw [BitVec.toNat_ofNat, Nat.mod_eq_of_lt (by omega)] at this
      have h2 : Config.totalMax.toNat = 4294967295 := rfl
      omega
    unfold freqOwn
    rw [if_neg ht]
    simp only [countSym_text]
    have : BitVec.ofNat 32 p.length + 1 = BitVec.ofNat 32 (p ++ [c]).length := by
      rw [List.length_append, BitVec.ofNat_add]; rfl
    rw [this]
    simp

/-- In READY and DONE the table is prefix-free, whatever its size (10_state.md R38 item 7). -/
theorem State.Inv.prefixFree {s : State} (h : s.Inv) (hp : s.phase = .ready ∨ s.phase = .done) : PrefixFree s.lut := by
  by_cases h1 : 1 < s.nent
  · exact (h.r38.table hp).2 h1
  · have : s.lut.length ≤ 1 := by have : s.nent = s.lut.length := rfl; omega
    match hL : s.lut, this with
    | [], _ => simp [PrefixFree]
    | [x], _ => simp [PrefixFree]

/-- BIT in READY. -/
theorem after_bit {s : State} (hp : s.phase = .ready) (ch : Byte) : after (.bit ch) s = bitOwn ch s := after_of_mem (by simpa [legalPhases] using hp)

/-- BIT over the bits of one code, from a buffer that holds the ones already seen. -/
theorem bit_run_entry {lut : List Entry} (hok : TableOk lut) (hpf : PrefixFree lut) {e : Entry} (he : e ∈ lut) :
    ∀ (rest pre : Code) (s : State), s.lut = lut → s.phase = .ready → pre ++ rest = e.code → s.buf = pre → rest ≠ [] →
      afterAll (rest.map (fun b => .bit (chr b))) s = { s with textOut := s.textOut ++ [e.sym], buf := [] } := by
  intro rest
  induction rest with
  | nil => intro pre s _ _ _ _ h; exact absurd rfl h
  | cons b rest ih =>
    intro pre s hl hp hc hb _
    have hlen := (hok.2 e he).2
    simp only [Config.codeLenMax] at hlen
    rw [← hc] at hlen
    simp at hlen
    rw [List.map_cons, afterAll_cons, after_bit hp]
    have hlt : s.buf.length ≠ Config.codeLenMax := by rw [hb]; simp [Config.codeLenMax]; omega
    have hcase := bitOwn_cases (chr b) s
    rcases hcase with ⟨h | h, _⟩ | ⟨b', hb', _, h⟩
    · simp at h
    · exact absurd h hlt
    · have : b' = b := by cases b <;> cases b' <;> first | rfl | (exact absurd hb' (by decide))
      subst this
      by_cases hr : rest = []
      · subst hr
        rcases h with ⟨e', hl', h⟩ | ⟨hl', h⟩ <;> rw [hl, hb] at hl'
        · obtain ⟨hm, hc'⟩ := lookupCode_mem hl'
          have : e' = e := hpf.eq_of_prefix hm he (by rw [hc', hc])
          rw [h, this]; rfl
        · exact absurd hc.symm (lookupCode_eq_none.mp hl' e he)
      · rcases h with ⟨e', hl', h⟩ | ⟨hl', h⟩ <;> rw [hl, hb] at hl'
        · exfalso
          obtain ⟨hm, hc'⟩ := lookupCode_mem hl'
          have : e' = e := hpf.eq_of_prefix hm he (by rw [hc', ← hc]; exact ⟨rest, by simp⟩)
          rw [this, ← hc] at hc'
          simp at hc'; exact hr hc'
        · rw [h, hb, ih (pre ++ [b']) { s with buf := pre ++ [b'] } hl hp (by simpa using hc) rfl hr]

/-- BIT over the codes of a sequence of entries emits their symbols (45_bit_stream_decoder.md R189). -/
theorem bit_run {lut : List Entry} (hok : TableOk lut) (hpf : PrefixFree lut) (es : List Entry) (hes : ∀ e ∈ es, e ∈ lut) :
    ∀ (s : State), s.lut = lut → s.phase = .ready → s.buf = [] →
      afterAll ((es.flatMap (fun e => e.code)).map (fun b => .bit (chr b))) s = { s with textOut := s.textOut ++ es.map Entry.sym } := by
  induction es with
  | nil => intro s _ _ _; simp
  | cons e es ih =>
    intro s hl hp hb
    have he := hes e (by simp)
    rw [List.flatMap_cons, List.map_append, afterAll_append, bit_run_entry hok hpf he e.code [] s hl hp (by simp) hb (hok.code_ne_nil e he)]
    rw [ih (fun f hf => hes f (List.mem_cons_of_mem _ hf)) { s with textOut := s.textOut ++ [e.sym], buf := [] } hl hp rfl]
    simp [← hb]

/-- The codes of a prefix-free table are uniquely decodable. -/
theorem codes_injective {lut : List Entry} (hok : TableOk lut) (hpf : PrefixFree lut) : ∀ (es fs : List Entry), (∀ e ∈ es, e ∈ lut) → (∀ f ∈ fs, f ∈ lut) →
    fs.flatMap (fun f => f.code) = es.flatMap (fun e => e.code) → fs = es := by
  intro es
  induction es with
  | nil =>
    intro fs _ hf h
    cases fs with
    | nil => rfl
    | cons f fs =>
      simp at h; exact absurd h.1 (hok.code_ne_nil f (hf f (by simp)))
  | cons e es ih =>
    intro fs he hf h
    cases fs with
    | nil => simp at h; exact absurd h.1 (hok.code_ne_nil e (he e (by simp)))
    | cons f fs =>
      simp only [List.flatMap_cons] at h
      have he0 := he e (by simp)
      have hf0 := hf f (by simp)
      have : f = e := by
        rcases List.append_eq_append_iff.mp h with ⟨x, h1, _⟩ | ⟨x, h1, _⟩
        · exact hpf.eq_of_prefix hf0 he0 ⟨x, h1.symm⟩
        · exact (hpf.eq_of_prefix he0 hf0 ⟨x, h1.symm⟩).symm
      subst this
      rw [ih fs (fun g hg => he g (List.mem_cons_of_mem _ hg)) (fun g hg => hf g (List.mem_cons_of_mem _ hg)) (List.append_cancel_left h)]

/-- LDMAP in its phases. -/
theorem after_ldmap {s : State} (hp : s.phase = .idle ∨ s.phase = .mapload) (ch : Byte) : after (.ldmap ch) s = ldmapOwn ch s :=
  after_of_mem (by simpa [legalPhases] using hp)

/-- LDMAP of an accepted character. -/
theorem after_ldmap_of_ok {s t : State} (hp : s.phase = .idle ∨ s.phase = .mapload) {ch : Byte} (h : parseStep ch s = .ok t) :
    after (.ldmap ch) s = { t with mappos := s.mappos + 1, phase := .mapload } := by
  rw [after_ldmap hp]; unfold ldmapOwn; rw [h]

/-- A symbol not in the table is taken (45_bit_stream_decoder.md R185). -/
theorem takeSymbol_of_new {s : State} {y : Byte} (h : ∀ e ∈ s.lut, e.sym ≠ y) : takeSymbol y s = .ok { s with cursym := y, curcode := [], pstate := .colon } := by
  unfold takeSymbol; rw [lookupSym_eq_none.mpr h]

/-- LDMAP over the spelling of a symbol. -/
theorem ldmap_symbol {s : State} (hp : s.phase = .idle ∨ s.phase = .mapload) (hps : s.pstate = .start ∨ s.pstate = .sym) (y : Byte) (h : ∀ e ∈ s.lut, e.sym ≠ y) :
    ∃ m, afterAll ((esc y).map .ldmap) s = { s with cursym := y, curcode := [], pstate := .colon, mappos := m, phase := .mapload } := by
  have hstep : ∀ ch, parseStep ch s = parseSym ch s := by intro ch; unfold parseStep; rcases hps with h | h <;> rw [h]
  unfold esc
  by_cases hs : isSpecial y = true
  · rw [if_pos hs]
    simp only [List.map_cons, List.map_nil, afterAll_cons, afterAll_nil]
    have h1 : parseStep chBackslash s = .ok { s with pstate := .esc } := by rw [hstep]; rfl
    rw [after_ldmap_of_ok hp h1]
    have h2 : parseStep y { s with pstate := .esc, mappos := s.mappos + 1, phase := .mapload } = .ok { s with cursym := y, curcode := [], pstate := .colon, mappos := s.mappos + 1, phase := .mapload } := by
      unfold parseStep parseEsc; simp only; rw [if_pos hs]; exact takeSymbol_of_new h
    rw [after_ldmap_of_ok (.inr rfl) h2]
    exact ⟨_, rfl⟩
  · rw [if_neg hs]
    simp only [List.map_cons, List.map_nil, afterAll_cons, afterAll_nil]
    have h1 : parseStep y s = .ok { s with cursym := y, curcode := [], pstate := .colon } := by
      rw [hstep]; unfold parseSym
      have : y ≠ chBackslash := by rintro rfl; exact hs rfl
      rw [if_neg this, if_neg hs]; exact takeSymbol_of_new h
    rw [after_ldmap_of_ok hp h1]
    exact ⟨_, rfl⟩

/-- LDMAP over the further bits of a code. -/
theorem ldmap_code : ∀ (rest : Code) (s : State), s.phase = .mapload → s.pstate = .code → s.curcode.length + rest.length ≤ 255 →
    ∃ m, afterAll ((str rest).map .ldmap) s = { s with curcode := s.curcode ++ rest, mappos := m } := by
  intro rest
  induction rest with
  | nil => intro s _ _ _; exact ⟨s.mappos, by simp [str]⟩
  | cons b rest ih =>
    intro s hp hps hl
    simp only [List.length_cons] at hl
    have h1 : parseStep (chr b) s = .ok { s with curcode := s.curcode ++ [b] } := by
      rw [show parseStep (chr b) s = parseCode (chr b) s by unfold parseStep; rw [hps]]; unfold parseCode; rw [bitOf_chr]; simp only
      rw [if_neg (by simp only [Config.codeLenMax]; omega)]
    have : str (b :: rest) = chr b :: str rest := rfl
    rw [this, List.map_cons, afterAll_cons, after_ldmap_of_ok (.inr hp) h1]
    obtain ⟨m, hm⟩ := ih { s with curcode := s.curcode ++ [b], mappos := s.mappos + 1, phase := .mapload } rfl hps (by simp; omega)
    refine ⟨m, ?_⟩
    rw [hm]; simp [hp]

/-- LDMAP over the spelling of an entry. -/
theorem ldmap_entry {s : State} (hp : s.phase = .idle ∨ s.phase = .mapload) (hps : s.pstate = .start ∨ s.pstate = .sym) (e : Entry) (h : ∀ f ∈ s.lut, f.sym ≠ e.sym)
    (hc : 1 ≤ e.code.length ∧ e.code.length ≤ 255) :
    ∃ m, afterAll ((serEntry e).map .ldmap) s = { s with cursym := e.sym, curcode := e.code, pstate := .code, mappos := m, phase := .mapload } := by
  obtain ⟨m1, h1⟩ := ldmap_symbol hp hps e.sym h
  unfold serEntry
  rw [List.map_append, afterAll_append, h1, List.map_cons, afterAll_cons]
  have h2 : parseStep chColon { s with cursym := e.sym, curcode := [], pstate := .colon, mappos := m1, phase := .mapload } = .ok { s with cursym := e.sym, curcode := [], pstate := .code0, mappos := m1, phase := .mapload } := rfl
  rw [after_ldmap_of_ok (.inr rfl) h2]
  match hcode : e.code with
  | [] => rw [hcode] at hc; simp at hc
  | b :: rest =>
    rw [hcode] at hc
    simp only [List.length_cons] at hc
    have : str (b :: rest) = chr b :: str rest := rfl
    rw [this, List.map_cons, afterAll_cons]
    have h3 : parseStep (chr b) { s with cursym := e.sym, curcode := [], pstate := .code0, mappos := m1 + 1, phase := .mapload } = .ok { s with cursym := e.sym, curcode := [b], pstate := .code, mappos := m1 + 1, phase := .mapload } := by
      unfold parseStep parseCode0; simp only [bitOf_chr]
    rw [after_ldmap_of_ok (.inr rfl) h3]
    obtain ⟨m, hm⟩ := ldmap_code rest { s with cursym := e.sym, curcode := [b], pstate := .code, mappos := m1 + 1 + 1, phase := .mapload } rfl rfl (by simp; omega)
    exact ⟨m, by rw [hm]; simp⟩

/-- LDMAP over the map string of a table: all entries but the last are committed, the last is in progress. -/
theorem ldmap_map : ∀ (es : List Entry) (e : Entry) (s : State), (s.phase = .idle ∨ s.phase = .mapload) → (s.pstate = .start ∨ s.pstate = .sym) →
    TableOk (s.lut ++ e :: es) → ∃ m,
    afterAll ((serialize (e :: es)).map .ldmap) s = { s with lut := s.lut ++ (e :: es).dropLast, cursym := ((e :: es).getLast (by simp)).sym, curcode := ((e :: es).getLast (by simp)).code, pstate := .code, mappos := m, phase := .mapload } := by
  intro es
  induction es with
  | nil =>
    intro e s hp hps hok
    have hne : ∀ f ∈ s.lut, f.sym ≠ e.sym := by
      have := hok.1; rw [List.map_append, List.nodup_append] at this
      intro f hf; exact this.2.2 _ (List.mem_map_of_mem hf) _ (by simp)
    obtain ⟨m, hm⟩ := ldmap_entry hp hps e hne (hok.2 e (by simp))
    exact ⟨m, by rw [show serialize [e] = serEntry e from rfl, hm]; simp⟩
  | cons f es ih =>
    intro e s hp hps hok
    have hne : ∀ f ∈ s.lut, f.sym ≠ e.sym := by
      have := hok.1; rw [List.map_append, List.nodup_append] at this
      intro f hf; exact this.2.2 _ (List.mem_map_of_mem hf) _ (by simp)
    obtain ⟨m, hm⟩ := ldmap_entry hp hps e hne (hok.2 e (by simp))
    rw [show serialize (e :: f :: es) = serEntry e ++ chComma :: serialize (f :: es) from rfl, List.map_append, afterAll_append, hm, List.map_cons, afterAll_cons]
    have h3 : parseStep chComma { s with cursym := e.sym, curcode := e.code, pstate := .code, mappos := m, phase := .mapload } =
        .ok { s with lut := s.lut ++ [e], cursym := 0, curcode := [], pstate := .sym, mappos := m, phase := .mapload } := by
      have : parseStep chComma { s with cursym := e.sym, curcode := e.code, pstate := .code, mappos := m, phase := .mapload } = .ok { commit { s with cursym := e.sym, curcode := e.code, pstate := .code, mappos := m, phase := .mapload } with pstate := .sym } := rfl
      rw [this, commit_eq]
    rw [after_ldmap_of_ok (.inr rfl) h3]
    obtain ⟨m', hm'⟩ := ih f { s with lut := s.lut ++ [e], cursym := 0, curcode := [], pstate := .sym, mappos := m + 1, phase := .mapload } (.inr rfl) (.inr rfl) (by simpa using hok)
    exact ⟨m', by rw [hm']; simp⟩

/-- ENDMAP in its phases. -/
theorem after_endmap {s : State} (hp : s.phase = .idle ∨ s.phase = .mapload) : after .endmap s = endmapOwn s := after_of_mem (by simpa [legalPhases] using hp)

/-- The table check passes a prefix-free table. -/
theorem finishMap_of_prefixFree {s : State} (h : PrefixFree s.lut) : finishMap s = { s with pstate := .start, buf := [], phase := .ready } := by
  rcases finishMap_cases s with ⟨_, h1⟩ | ⟨i, j, h0, _⟩
  · exact h1
  · rcases prefixCheck_spec s.lut with ⟨h1, _⟩ | ⟨_, _, _, h2⟩
    · rw [h1] at h0; cases h0
    · exact absurd h h2.not_prefixFree

/-- A good table's map string is read back into the table (42_code_table_generator.md R136). -/
theorem map_run (u : State) {lut : List Entry} (hok : TableOk lut) (hpf : PrefixFree lut) : ∃ m,
    afterAll ((serialize lut).map .ldmap ++ [.endmap]) (clearState u) = { clearState u with lut := lut, mappos := m, phase := .ready } := by
  match lut with
  | [] =>
    refine ⟨0, ?_⟩
    simp only [serialize, List.map_nil, List.nil_append, afterAll_cons, afterAll_nil]
    rw [after_endmap (.inl rfl)]
    rfl
  | e :: es =>
    obtain ⟨m, hm⟩ := ldmap_map es e (clearState u) (.inl rfl) (.inl rfl) (by simpa using hok)
    rw [afterAll_append, hm, afterAll_cons, afterAll_nil, after_endmap (.inr rfl)]
    refine ⟨m, ?_⟩
    rcases endmapOwn_cases { clearState u with lut := (clearState u).lut ++ (e :: es).dropLast, cursym := ((e :: es).getLast (by simp)).sym, curcode := ((e :: es).getLast (by simp)).code, pstate := .code, mappos := m, phase := .mapload } with ⟨h, _⟩ | ⟨_, h⟩ | ⟨_, h, _⟩
    · cases h
    · rw [h]
      have : (clearState u).lut ++ (e :: es).dropLast ++ [(⟨((e :: es).getLast (by simp)).sym, ((e :: es).getLast (by simp)).code⟩ : Entry)] = e :: es := by
        rw [clearState_lut, List.nil_append]; exact List.dropLast_append_getLast (by simp)
      simp only [this]
      rw [finishMap_of_prefixFree hpf]
      rfl
    · exact absurd rfl h

/-- An error in FAILED changes nothing (60_exceptions.md R219). -/
theorem raise_of_failed {s : State} (he : s.err ≠ none) (hp : s.phase = .failed) (e w) : raise e w s = s := by
  rw [raise_of_err_some _ _ _ he, ← hp]

/-- Commands that are illegal in FAILED change nothing there. -/
theorem afterAll_of_failed {s : State} (he : s.err ≠ none) (hp : s.phase = .failed) (is : List Instr) (h : ∀ i ∈ is, Phase.failed ∉ legalPhases i) : afterAll is s = s := by
  induction is with
  | nil => rfl
  | cons i is ih =>
    rw [afterAll_cons, after_of_not_mem (by rw [hp]; exact h i (by simp)), raise_of_failed he hp]
    exact ih (fun j hj => h j (List.mem_cons_of_mem _ hj))

/-- The characters of the entry in progress (45_bit_stream_decoder.md R183). -/
def partialText (p : PState) (y : Byte) (c : Code) : List Byte :=
  match p with
  | .start | .sym => []
  | .esc => [chBackslash]
  | .colon => esc y
  | .code0 => esc y ++ [chColon]
  | .code => esc y ++ chColon :: str c

/-- The characters of the committed entries. -/
def committedText (lut : List Entry) : List Byte := lut.flatMap (fun e => serEntry e ++ [chComma])

/-- The map string of a table with its last entry apart. -/
theorem serialize_append (lut : List Entry) (e : Entry) : serialize (lut ++ [e]) = committedText lut ++ serEntry e := by
  induction lut with
  | nil => simp [serialize, committedText]
  | cons f lut ih =>
    cases lut with
    | nil => simp [serialize, committedText]
    | cons g lut =>
      simp only [List.cons_append] at ih ⊢
      rw [serialize, ih]; simp [committedText]

/-- The parser has read exactly the string `m`. -/
def Reads (m : List Byte) (s : State) : Prop :=
  (s.phase = .idle ∧ s.pstate = .start ∧ s.lut = [] ∧ m = []) ∨
  (s.phase = .mapload ∧ s.pstate ≠ .start ∧ m = committedText s.lut ++ partialText s.pstate s.cursym s.curcode)

/-- One more character. -/
theorem Reads.step {m : List Byte} {s : State} (h : Reads m s) (ch : Byte) : Reads (m ++ [ch]) (after (.ldmap ch) s) ∨ (after (.ldmap ch) s).phase = .failed := by
  have hp : s.phase = .idle ∨ s.phase = .mapload := by rcases h with h | h; exacts [.inl h.1, .inr h.1]
  rw [after_ldmap hp]
  rcases ldmapOwn_cases ch s with ⟨e, _, h1⟩ | ⟨t, ht, h1⟩ <;> rw [h1]
  · right; simp
  left
  have hsym : s.pstate = .start ∨ s.pstate = .sym → m = committedText s.lut := by
    intro hps
    rcases h with ⟨_, h2, h3, h4⟩ | ⟨_, h2, h3⟩
    · rw [h3, h4]; rfl
    · rcases hps with h | h
      · exact absurd h h2
      · rw [h3, h]; simp [partialText]
  have hin : s.pstate ≠ .start → m = committedText s.lut ++ partialText s.pstate s.cursym s.curcode := by
    intro hne
    rcases h with ⟨_, h2, h3, h4⟩ | ⟨_, h2, h3⟩
    · exact absurd h2 hne
    · exact h3
  right
  rcases parseStep_ok ht with ⟨hps, rfl, rfl⟩ | ⟨hps, _, rfl⟩ | ⟨hps, rfl, rfl⟩ | ⟨b, rfl, ⟨hps, rfl⟩ | ⟨hps, _, rfl⟩⟩ | ⟨hps, rfl, rfl⟩
  · exact ⟨rfl, by simp, by rw [hsym hps]; rfl⟩
  · refine ⟨rfl, by simp, ?_⟩
    show m ++ [ch] = committedText s.lut ++ esc ch
    rcases hps with ⟨hps, hs⟩ | ⟨hps, hs⟩
    · rw [hsym hps]; simp [esc, hs]
    · rw [hin (by simp [hps]), hps]; simp [esc, hs, partialText]
  · refine ⟨rfl, by simp, ?_⟩
    show m ++ [chColon] = committedText s.lut ++ (esc s.cursym ++ [chColon])
    rw [hin (by simp [hps]), hps]; simp [partialText]
  · refine ⟨rfl, by simp, ?_⟩
    show m ++ [chr b] = committedText s.lut ++ (esc s.cursym ++ chColon :: str [b])
    rw [hin (by simp [hps]), hps]; simp [partialText, str]
  · refine ⟨rfl, by simp [hps], ?_⟩
    show m ++ [chr b] = committedText s.lut ++ partialText s.pstate s.cursym (s.curcode ++ [b])
    rw [hin (by simp [hps]), hps]; simp [partialText, str]
  · refine ⟨rfl, by simp, ?_⟩
    show m ++ [chComma] = committedText (s.lut ++ [⟨s.cursym, s.curcode⟩]) ++ []
    rw [hin (by simp [hps]), hps]; simp [partialText, committedText, serEntry]

/-- Commands that are illegal in FAILED do not leave it. -/
theorem afterAll_stays_failed {s : State} (hp : s.phase = .failed) (is : List Instr) (h : ∀ i ∈ is, Phase.failed ∉ legalPhases i) : (afterAll is s).phase = .failed := by
  induction is generalizing s with
  | nil => exact hp
  | cons i is ih =>
    rw [afterAll_cons]
    apply ih
    · rw [after_of_not_mem (by rw [hp]; exact h i (by simp))]; simp
    · exact fun j hj => h j (List.mem_cons_of_mem _ hj)

/-- The parser has read what LDMAP gave it, or has failed. -/
theorem Reads.run (m' : List Byte) : ∀ (m : List Byte) (s : State), Reads m s → Reads (m ++ m') (afterAll (m'.map .ldmap) s) ∨ (afterAll (m'.map .ldmap) s).phase = .failed := by
  induction m' with
  | nil => intro m s h; left; simpa using h
  | cons c m' ih =>
    intro m s h
    rw [List.map_cons, afterAll_cons]
    rcases Reads.step h c with h1 | h1
    · have := ih _ _ h1
      simpa using this
    · right; apply afterAll_stays_failed h1
      intro i hi; simp only [List.mem_map] at hi; obtain ⟨_, _, rfl⟩ := hi; simp [legalPhases]

/-- PACK over a text whose symbols all have entries (44_bit_packer.md R170). -/
theorem pack_run {lut : List Entry} (hok : TableOk lut) (text : List Byte) (h : ∀ c ∈ text, c ∈ lut.map Entry.sym) :
    ∃ es : List Entry, (∀ e ∈ es, e ∈ lut) ∧ es.map Entry.sym = text ∧
    ∀ s : State, s.lut = lut → s.phase = .ready →
      afterAll (text.map .pack) s = { s with dataOut := s.dataOut ++ str (es.flatMap (fun e => e.code)) } := by
  induction text with
  | nil => exact ⟨[], by simp, rfl, fun s _ _ => by simp [str]⟩
  | cons c text ih =>
    obtain ⟨es, h1, h2, h3⟩ := ih (fun d hd => h d (List.mem_cons_of_mem _ hd))
    obtain ⟨e, he, rfl⟩ := List.mem_map.mp (h c (by simp))
    refine ⟨e :: es, ?_, by simp [h2], ?_⟩
    · intro f hf; rcases List.mem_cons.mp hf with rfl | hf
      · exact he
      · exact h1 f hf
    · intro s hl hp
      rw [List.map_cons, afterAll_cons, after_of_mem (by simpa [legalPhases] using hp)]
      have : own (.pack e.sym) s = { s with dataOut := s.dataOut ++ str e.code } := by
        show packOwn e.sym s = _
        unfold packOwn; rw [hl, lookupSym_of_mem hok.1 he]
      rw [this, h3 { s with dataOut := s.dataOut ++ str e.code } hl hp]
      simp [str]

end Sys2Proof.Machine
end

