-- ==== Sys2Proof/Tests/Slice0.lean ====
section
/-! SUPPORT. Tests, each on at most one step of a small state, with the expected value from the spec (95_test_vectors.md, or the rule
named), and a witness for the hypotheses of every statement of Obligations.lean. -/

namespace Sys2Proof.Tests

open Sys2Proof.Machine

/-! ### WellFormed: an ill-formed word for each check, refused (30_encoding.md R83) -/

/-- V55: an `op` value not in the table. -/
theorem test_wf_unknown_op : opKnown 0x02000000 = false ∧ wellFormedWord 0x02000000 = false ∧
    decodeWord 0x02000000 = .error .unknownOp := by decide
/-- V58: `rsv != 0`. -/
theorem test_wf_reserved : rsvZero 0x00010000 = false ∧ wellFormedWord 0x00010000 = false ∧
    decodeWord 0x00010000 = .error .reservedNonZero := by decide
/-- V60: an operand where there is none. -/
theorem test_wf_no_operand : operandOk 0x11000001 = false ∧ wellFormedWord 0x11000001 = false ∧
    decodeWord 0x11000001 = .error .operandNonZero := by decide
/-- V59: bits 15:8 of a symbol operand. -/
theorem test_wf_byte_operand : operandOk 0x10000161 = false ∧ wellFormedWord 0x10000161 = false ∧
    decodeWord 0x10000161 = .error .operandNonZero := by decide
/-- The good words of V50, V63 and V53 pass. -/
theorem test_wf_good : wellFormedWord 0x00000000 = true ∧ wellFormedWord 0x100000FF = true ∧ wellFormedWord 0x3000FFFF = true := by
  decide

/-! ### Decode: a word for every command, written out from 30_encoding.md R80 to R82 (`op`, `rsv`, `arg`) -/

theorem test_decode_nop : decode 0b00000000_00000000_0000000000000000 = some .nop := by decide
theorem test_decode_clr : decode 0b00000001_00000000_0000000000000000 = some .clr := by decide
theorem test_decode_freq : decode 0b00010000_00000000_0000000001100001 = some (.freq 0x61) := by decide
theorem test_decode_build : decode 0b00010001_00000000_0000000000000000 = some .build := by decide
theorem test_decode_assign : decode 0b00010010_00000000_0000000000000000 = some .assign := by decide
theorem test_decode_sermap : decode 0b00010011_00000000_0000000000000000 = some .sermap := by decide
theorem test_decode_pack : decode 0b00010100_00000000_0000000001100001 = some (.pack 0x61) := by decide
theorem test_decode_ldmap : decode 0b00100000_00000000_0000000000111010 = some (.ldmap 0x3A) := by decide
theorem test_decode_endmap : decode 0b00100001_00000000_0000000000000000 = some .endmap := by decide
theorem test_decode_bit : decode 0b00100010_00000000_0000000000110001 = some (.bit 0x31) := by decide
theorem test_decode_enddata : decode 0b00100011_00000000_0000000000000000 = some .enddata := by decide
theorem test_decode_rdreg : decode 0b00110000_00000000_1111111111111111 = some (.rdreg 0xFFFF) := by decide
/-- V55, V56, V57, V61, V62: illegal words. -/
theorem test_decode_illegal : [0x02000000, 0xFFFFFFFF, 0x00000001, 0x30010000, 0x15000000, 0x24000000, 0x31000000].map decode =
    List.replicate 7 none := by decide
/-- The encoder gives the words of V63, V66, V70, V54. -/
theorem test_encode_words : encode (.freq 0xFF) = 0x100000FF ∧ encode (.pack 0x61) = 0x14000061 ∧ encode (.ldmap 0x61) = 0x20000061 ∧
    encode (.rdreg 0x000A) = 0x3000000A := by decide
/-- The table's numbering of the bits is the word's own. -/
theorem test_table_word : decodeTableWord 32 0x10000061 = some (.freq 0x61) ∧
    step (State.reset.withFetchWord 32 0x10000061) = exec (.freq 0x61) State.reset := ⟨by decide, rfl⟩

/-! ### Small states: the stages of P1 and P2 (95_test_vectors.md part 3) -/

/-- P1 after the seven FREQ. -/
def counted : State :=
  { State.reset with phase := .count, total := 7, nodes := [.leaf 0x61 2, .leaf 0x62 3, .leaf 0x63 2] }
/-- P1 after BUILD. -/
def built : State := { counted with phase := .built, nodes := counted.nodes ++ [.internal 4 0 2, .internal 7 1 3], root := some 4 }
/-- P1 after ASSIGN. -/
def ready : State := { built with phase := .ready, lut := [⟨0x61, [true, false]⟩, ⟨0x62, [false]⟩, ⟨0x63, [true, true]⟩] }
/-- P2 after ENDMAP. -/
def loaded : State := { State.reset with phase := .ready, mappos := 13, lut := ready.lut }
/-- P2 at its end. -/
def ended : State := { loaded with phase := .done, textOut := [0x61, 0x61, 0x62, 0x62, 0x62, 0x63, 0x63] }
/-- One distinct symbol, counted and built (P4, V2). -/
def single : State := { State.reset with phase := .built, total := 4, nodes := [.leaf 0x61 4], root := some 0 }
/-- The empty text, built (P5, V25). -/
def empty : State := { State.reset with phase := .built }
/-- The map parser after `m` characters, in state `p`, with nothing committed. -/
def parsing (p : PState) (y : Byte) (c : Code) (m : Word) : State :=
  { State.reset with phase := .mapload, pstate := p, cursym := y, curcode := c, mappos := m }
/-- V40 before its ENDMAP: `a:0,` loaded. -/
def afterComma : State := { parsing .sym 0 [] 4 with lut := [⟨0x61, [false]⟩] }
/-- V82 and V83 before their ENDMAP. -/
def colliding (c : Code) : State := { parsing .code 0x62 c (BitVec.ofNat 32 (6 + c.length)) with lut := [⟨0x61, [false]⟩] }
/-- V24's start: FREQ at its limit. -/
def full : State := { State.reset with phase := .count, total := 0xFFFFFFFF, nodes := [.leaf 0x61 0xFFFFFFFF] }
/-- V107: 255 bits that match nothing. -/
def stuffed : State := { State.reset with phase := .ready, buf := List.replicate 255 false }
/-- V83 after its ENDMAP. -/
def collided : State := { State.reset with
  phase := .failed, err := some .codetbl, errinfo := 0x21000000, collide := 0x00010000, mappos := 8,
  lut := [⟨0x61, [false]⟩, ⟨0x62, [false, true]⟩] }
/-- V65: an error was raised. -/
def failed : State := { State.reset with phase := .failed, err := some .seq, errinfo := 0x12000000 }

/-! ### One step each, the result from the vectors -/

/-- V77. -/
theorem test_nop : exec .nop counted = .next counted := rfl
/-- V115: CLR keeps the output lists. -/
theorem test_clr : exec .clr { ready with mapOut := [0x61], dataOut := [0x31] } =
    .next { State.reset with mapOut := [0x61], dataOut := [0x31] } := rfl
/-- V21: a symbol seen before. -/
theorem test_freq_again : exec (.freq 0x62) counted =
    .next { counted with total := 8, nodes := [.leaf 0x61 2, .leaf 0x62 4, .leaf 0x63 2] } := rfl
/-- V24: the limit. -/
theorem test_freq_limit : exec (.freq 0x62) full =
    .next { full with phase := .failed, err := some .capacity, errinfo := 0x10000062 } := rfl
/-- V1: the two merges, with the tie of `a` and `c` broken by index. -/
theorem test_build : exec .build counted = .next built := rfl
/-- V7: the leaf `c` is lighter than the merged node, so it is the left child. -/
theorem test_build_left : exec .build { counted with total := 3, nodes := [.leaf 0x61 1, .leaf 0x62 1, .leaf 0x63 1] } =
    .next { counted with phase := .built, total := 3, root := some 4,
                         nodes := [.leaf 0x61 1, .leaf 0x62 1, .leaf 0x63 1, .internal 2 0 1, .internal 3 2 3] } := rfl
/-- V1: the codes. -/
theorem test_assign : exec .assign built = .next ready := rfl
/-- V2: the synthetic code of one symbol. -/
theorem test_assign_one : exec .assign single = .next { single with phase := .ready, lut := [⟨0x61, [false]⟩] } := rfl
/-- V1: `a:10,b:0,c:11`. -/
theorem test_sermap : exec .sermap ready = .next { ready with
    mapOut := [0x61, 0x3A, 0x31, 0x30, 0x2C, 0x62, 0x3A, 0x30, 0x2C, 0x63, 0x3A, 0x31, 0x31] } := rfl
/-- V34: the escapes `\,:0,\::10,\\:11`. -/
theorem test_sermap_escapes :
    serialize [⟨0x2C, [false]⟩, ⟨0x3A, [true, false]⟩, ⟨0x5C, [true, true]⟩] =
      [0x5C, 0x2C, 0x3A, 0x30, 0x2C, 0x5C, 0x3A, 0x3A, 0x31, 0x30, 0x2C, 0x5C, 0x5C, 0x3A, 0x31, 0x31] := by decide
/-- V29c: PACK `a`. -/
theorem test_pack : exec (.pack 0x61) ready = .next { ready with dataOut := [0x31, 0x30] } := rfl
/-- P6: a symbol that has no code. -/
theorem test_pack_nosym : exec (.pack 0x7A) ready =
    .next { ready with phase := .failed, err := some .nosym, errinfo := 0x1400007A } := rfl
/-- The parser table of 2.5: `a:10` then the delimiter. -/
theorem test_ldmap_comma : exec (.ldmap 0x2C) (parsing .code 0x61 [true, false] 4) =
    .next { parsing .sym 0 [] 5 with lut := [⟨0x61, [true, false]⟩] } := rfl
/-- V80: a symbol that is already committed. -/
theorem test_ldmap_twice : exec (.ldmap 0x61) afterComma =
    .next { afterComma with phase := .failed, err := some .mapfmt, errinfo := 0x20000061 } := rfl
/-- P2: the last entry is committed and the table passes. -/
theorem test_endmap : exec .endmap { parsing .code 0x63 [true, true] 13 with lut := ready.lut.take 2 } = .next loaded := rfl
/-- V83: `a:0,b:01`, with `COLLIDE` and the entry committed. -/
theorem test_endmap_collision : exec .endmap (colliding [false, true]) = .next collided := rfl
/-- V96's trace: the second bit of `10` emits `a`. -/
theorem test_bit_emits : exec (.bit 0x30) { loaded with buf := [true] } = .next { loaded with textOut := [0x61] } := rfl
set_option maxRecDepth 4000 in
/-- V108: the buffer limit. -/
theorem test_bit_limit : exec (.bit 0x30) stuffed =
    .next { stuffed with phase := .failed, err := some .bitseq, errinfo := 0x22000030 } := rfl
/-- V90. -/
theorem test_enddata : exec .enddata loaded = .next { loaded with phase := .done } := rfl
/-- V97: a bit is left. -/
theorem test_enddata_left : exec .enddata { loaded with buf := [true] } =
    .next { loaded with buf := [true], phase := .failed, err := some .bitseq, errinfo := 0x23000000 } := rfl
/-- P1: `RDREG 0x0409`. -/
theorem test_rdreg : exec (.rdreg 0x0409) ready = .next { ready with rsp := [0x80000601] } := by
  have h : memRead ready 0x0409 = 0x80000601 := by decide
  show Host.Outcome.next { ready with rsp := [] ++ [memRead ready 0x0409] } = _
  rw [h]; rfl
/-- Part 2.3: the words of V1's windows. -/
theorem test_rdreg_words : [0x0001, 0x0004, 0x0005, 0x0006, 0x0007, 0x0008].map (memRead ready) =
      [0x00000004, 7, 3, 5, 0x80000004, 3] ∧
    [0x0161, 0x0164, 0x0400, 0x0401, 0x0406, 0x0407, 0x040A].map (memRead ready) =
      [2, 0, 0x00000002, 0xC0000061, 0x00000004, 0x80000400, 0] ∧
    [0x1000, 0x1001, 0x1010, 0x1020, 0x1021, 0x1030].map (memRead ready) =
      [0x80000261, 0x00000001, 0x80000162, 0x80000263, 0x00000003, 0] := by decide
/-- The error numbers of 60_exceptions.md R210, as RDREG reads them. -/
theorem test_error_numbers : [ErrCode.mapfmt, .codetbl, .bitseq, .illcmd, .seq, .capacity, .nosym].map
    (fun e => memRead { failed with err := some e } 0x0002) = [1, 2, 3, 8, 9, 10, 11] := by decide
/-- The `PHASE` numbers of 10_state.md R22 with `DSTATE` and the pins, and the `PSTATE` numbers of R24, as `STATUS` words. -/
theorem test_status_numbers :
    [Phase.idle, .count, .built, .mapload, .ready, .done, .failed].map (fun p => memRead { State.reset with phase := p } 0x0001) =
      [0, 1, 2, 3, 4, 0x00010025, 0x00020036] ∧
    [PState.start, .sym, .esc, .colon, .code0, .code].map (fun p => memRead (parsing p 0 [] 0) 0x0001) =
      [0x003, 0x103, 0x203, 0x303, 0x403, 0x503] := by decide
/-- The `STATUS` and `CURENT` words of 2.5's intermediate states and of P2's end. -/
theorem test_status_words : memRead (parsing .colon 0x61 [] 1) 0x0001 = 0x00000303 ∧
    memRead (parsing .code 0x61 [true] 3) 0x000D = 0x80000161 ∧ memRead ended 0x0001 = 0x00010025 ∧
    memRead failed 0x0001 = 0x00020036 := by decide

/-! ### The assembler syntax (30_encoding.md R85) -/

theorem test_asm_char : assembleLine "FREQ 'a'".toList = .command (.freq 0x61) := by decide
theorem test_asm_number : assembleLine "  LDMAP 0x3A ; separator".toList = .command (.ldmap 0x3A) := by decide
theorem test_asm_csr : assembleLine "RDREG STATUS".toList = .command (.rdreg 0x0001) := by decide
theorem test_asm_blank : assembleLine "; nothing".toList = .blank ∧ assembleLine "FREQ".toList = .malformed := by decide

/-! ### The invariant holds of the small states -/

theorem inv_reset : State.reset.Inv := by refine ⟨⟨?_, ?_, ?_, ?_, ?_, ?_, ?_, ?_, ?_, ?_⟩, ?_, ?_, ?_, ?_, ?_⟩ <;> decide
theorem inv_counted : counted.Inv := by refine ⟨⟨?_, ?_, ?_, ?_, ?_, ?_, ?_, ?_, ?_, ?_⟩, ?_, ?_, ?_, ?_, ?_⟩ <;> decide
theorem inv_built : built.Inv := by refine ⟨⟨?_, ?_, ?_, ?_, ?_, ?_, ?_, ?_, ?_, ?_⟩, ?_, ?_, ?_, ?_, ?_⟩ <;> decide
theorem inv_ready : ready.Inv := by refine ⟨⟨?_, ?_, ?_, ?_, ?_, ?_, ?_, ?_, ?_, ?_⟩, ?_, ?_, ?_, ?_, ?_⟩ <;> decide
theorem inv_loaded : loaded.Inv := by refine ⟨⟨?_, ?_, ?_, ?_, ?_, ?_, ?_, ?_, ?_, ?_⟩, ?_, ?_, ?_, ?_, ?_⟩ <;> decide
theorem inv_ended : ended.Inv := by refine ⟨⟨?_, ?_, ?_, ?_, ?_, ?_, ?_, ?_, ?_, ?_⟩, ?_, ?_, ?_, ?_, ?_⟩ <;> decide
theorem inv_single : single.Inv := by refine ⟨⟨?_, ?_, ?_, ?_, ?_, ?_, ?_, ?_, ?_, ?_⟩, ?_, ?_, ?_, ?_, ?_⟩ <;> decide
theorem inv_empty : empty.Inv := by refine ⟨⟨?_, ?_, ?_, ?_, ?_, ?_, ?_, ?_, ?_, ?_⟩, ?_, ?_, ?_, ?_, ?_⟩ <;> decide
theorem inv_afterComma : afterComma.Inv := by refine ⟨⟨?_, ?_, ?_, ?_, ?_, ?_, ?_, ?_, ?_, ?_⟩, ?_, ?_, ?_, ?_, ?_⟩ <;> decide
theorem inv_colliding : (colliding [false, true]).Inv := by
  refine ⟨⟨?_, ?_, ?_, ?_, ?_, ?_, ?_, ?_, ?_, ?_⟩, ?_, ?_, ?_, ?_, ?_⟩ <;> decide
theorem inv_esc : (parsing .esc 0 [] 1).Inv := by refine ⟨⟨?_, ?_, ?_, ?_, ?_, ?_, ?_, ?_, ?_, ?_⟩, ?_, ?_, ?_, ?_, ?_⟩ <;> decide
theorem inv_full : full.Inv := by refine ⟨⟨?_, ?_, ?_, ?_, ?_, ?_, ?_, ?_, ?_, ?_⟩, ?_, ?_, ?_, ?_, ?_⟩ <;> decide
set_option maxRecDepth 4000 in
theorem inv_stuffed : stuffed.Inv := by refine ⟨⟨?_, ?_, ?_, ?_, ?_, ?_, ?_, ?_, ?_, ?_⟩, ?_, ?_, ?_, ?_, ?_⟩ <;> decide
theorem inv_failed : failed.Inv := by refine ⟨⟨?_, ?_, ?_, ?_, ?_, ?_, ?_, ?_, ?_, ?_⟩, ?_, ?_, ?_, ?_, ?_⟩ <;> decide
theorem inv_collided : collided.Inv := by refine ⟨⟨?_, ?_, ?_, ?_, ?_, ?_, ?_, ?_, ?_, ?_⟩, ?_, ?_, ?_, ?_, ?_⟩ <;> decide
/-- A state with each error but `E_CODETBL` (`inv_collided` has that one). -/
theorem inv_failed_with (e : ErrCode) (he : e ≠ .codetbl) : ({ failed with err := some e } : State).Inv := by
  cases e <;> first | exact absurd rfl he | (refine ⟨⟨?_, ?_, ?_, ?_, ?_, ?_, ?_, ?_, ?_, ?_⟩, ?_, ?_, ?_, ?_, ?_⟩ <;> decide)

/-! ### A witness for the hypotheses of every statement that has some, clause by clause -/

theorem witness_EncodeOfDecode : decode 0x3000FFFF = some (.rdreg 0xFFFF) := by decide
theorem witness_DecodeFollowsTheOpcodeMap : (⟨"FREQ", 0x10000000, 0xFFFFFF00⟩ : OpcodeRow) ∈ opcodeMap ∧
    (⟨"FREQ", 0x10000000, 0xFFFFFF00⟩ : OpcodeRow).selects 0x100000FF = true := by decide
theorem witness_StepExecutesTheDecodedCommand :
    (State.reset.withFetchWord 32 0x10000061).input = .cmd 0x10000061 :: [] ∧ decode 0x10000061 = some (.freq 0x61) := by decide
theorem witness_IllegalWordRaisesIllcmd :
    (∀ r ∈ opcodeMap, (0x15000000 : Word) &&& r.mask ≠ r.pattern) ∧ (State.reset.withFetchWord 32 0x15000000).err = none ∧
    (failed.withFetchWord 32 0x15000000).err ≠ none ∧
    (failed.withFetchWord 32 0x15000000).input = .cmd 0x15000000 :: [] := by decide
theorem witness_ResetPulseIsClrPlusEmptyOutputs : ({ ready with input := [.rst] } : State).input = .rst :: [] := rfl
theorem witness_StepWaitsWhenNothingIsPresented : ready.input = [] := rfl
theorem witness_PhaseTable : (counted.Inv ∧ counted.phase ∉ legalPhases (.bit 0x30) ∧ counted.phase ≠ .failed) ∧
    (failed.Inv ∧ failed.phase ∉ legalPhases (.bit 0x30) ∧ failed.phase = .failed) ∧
    (ready.Inv ∧ ready.phase ∈ legalPhases (.bit 0x30)) :=
  ⟨⟨inv_counted, by decide, by decide⟩, ⟨inv_failed, by decide, rfl⟩, inv_ready, by decide⟩
theorem witness_PhaseTable_outcomes :
    (∃ t, exec (.bit 0x30) ready = .next t ∧ t.err = none) ∧ (∃ t, exec (.bit 0x78) ready = .next t ∧ t.err ≠ none) :=
  ⟨⟨_, rfl, rfl⟩, ⟨_, rfl, by decide⟩⟩
theorem witness_ClrResetsAllButTheOutputs : State.reset.Inv ∧ State.reset.phase = .idle := ⟨inv_reset, rfl⟩
theorem witness_CsrWords : (counted.Inv ∧ counted.root = none ∧ counted.err = none) ∧ (ready.Inv ∧ ready.root = some 4) ∧
    (collided.Inv ∧ collided.err = some .codetbl) ∧
    (∀ e : ErrCode, e ≠ .codetbl → ({ failed with err := some e } : State).Inv) :=
  ⟨⟨inv_counted, rfl, rfl⟩, ⟨inv_ready, rfl⟩, ⟨inv_collided, rfl⟩, inv_failed_with⟩
theorem witness_FreqWindowReadsTheCounts : counted.Inv ∧ Node.leaf 0x63 2 ∈ counted.nodes ∧ ∀ w, Node.leaf 0xFF w ∉ counted.nodes :=
  ⟨inv_counted, by decide, by simp [counted]⟩
theorem witness_NodeWindowReadsTheArena : built.nnodes ≤ 511 ∧ built.nodes[510]? = none ∧
    built.nodes[0]? = some (.leaf 0x61 2) ∧ built.nodes[4]? = some (.internal 7 1 3) := by decide
theorem witness_LutWindowReadsTheTable : ready.Inv ∧ ready.lut[255]? = none ∧ ready.lut[0]? = some ⟨0x61, [true, false]⟩ :=
  ⟨inv_ready, by decide, by decide⟩
/-- The first and the last address of each gap of R61's table. -/
theorem witness_UnlistedAddressesReadZero : ∀ n ∈ [0x0010, 0x00FF, 0x0200, 0x03FF, 0x0800, 0x0FFF, 0x2000, 0xFFFF],
    (BitVec.ofNat 16 n).toNat = n ∧ ¬ n ≤ 0x000F ∧ ¬ (0x0100 ≤ n ∧ n ≤ 0x01FF) ∧ ¬ (0x0400 ≤ n ∧ n ≤ 0x07FF) ∧
    ¬ (0x1000 ≤ n ∧ n ≤ 0x1FFF) := by simp
/-- Commands that append to an output list or decode a bit. -/
theorem witness_ReadSpaceFrames_outputs : ready.Inv ∧ ready.err = none ∧
    exec (.pack 0x61) ready = .next { ready with dataOut := [0x31, 0x30] } ∧
    exec (.bit 0x31) ready = .next { ready with buf := [true] } ∧ exec .enddata ready = .next { ready with phase := .done } ∧
    (0xFFFF : Addr) ≠ 0x0009 ∧ (0x000A : Addr) ≠ 0x0009 ∧ (0x0002 : Addr) ≠ 0x0001 :=
  ⟨inv_ready, rfl, rfl, rfl, rfl, by decide, by decide, by decide⟩
/-- ASSIGN, at the last address below the LUT window. -/
theorem witness_ReadSpaceFrames_assign : built.Inv ∧ built.err = none ∧ exec .assign built = .next ready ∧ ready.err = none ∧
    (0x0FFF : Addr) ≠ 0x0001 ∧ (0x0FFF : Addr) ≠ 0x0008 ∧ (0x0FFF : Addr).toNat < 0x1000 :=
  ⟨inv_built, rfl, rfl, rfl, by decide, by decide, by decide⟩
/-- BUILD, on both sides of the words of the slots it fills. -/
theorem witness_ReadSpaceFrames_build : counted.Inv ∧ counted.err = none ∧ exec .build counted = .next built ∧ built.err = none ∧
    counted.ndist = 3 ∧ ((0x0405 : Addr) ≠ 0x0001 ∧ (0x0405 : Addr) ≠ 0x0006 ∧ (0x0405 : Addr) ≠ 0x0007) ∧
    ¬ (0x0400 + 2 * 3 ≤ (0x0405 : Addr).toNat) ∧ ¬ ((0x07FE : Addr).toNat < 0x07FE) :=
  ⟨inv_counted, rfl, rfl, rfl, rfl, by decide, by decide, by decide⟩
/-- FREQ of the symbol in slot 1, on both sides of that slot's words. -/
theorem witness_ReadSpaceFrames_freq : counted.Inv ∧ counted.err = none ∧
    exec (.freq 0x62) counted = .next { counted with total := 8, nodes := [.leaf 0x61 2, .leaf 0x62 4, .leaf 0x63 2] } ∧
    ((0x0401 : Addr).toNat ≠ 0x0400 + 2 * 1 ∧ (0x0404 : Addr).toNat ≠ 0x0400 + 2 * 1 + 1) ∧
    (0x0161 : Addr) ≠ 0x0100 + BitVec.zeroExtend 16 (0x62 : Byte) ∧ (0x0404 : Addr) ≠ 0x0006 :=
  ⟨inv_counted, rfl, rfl, by decide, by decide, by decide⟩
/-- LDMAP and ENDMAP, on both sides of the words of the next entry. -/
theorem witness_ReadSpaceFrames_map : afterComma.Inv ∧ afterComma.err = none ∧
    exec (.ldmap 0x62) afterComma = .next { parsing .colon 0x62 [] 5 with lut := [⟨0x61, [false]⟩] } ∧ State.reset.Inv ∧
    exec .endmap State.reset = .next { State.reset with phase := .ready } ∧ afterComma.nent = 1 ∧
    ¬ (0x1000 + 16 * 1 ≤ (0x100F : Addr).toNat) ∧ ¬ ((0x1020 : Addr).toNat < 0x1000 + 16 * 1 + 16) :=
  ⟨inv_afterComma, rfl, rfl, inv_reset, rfl, rfl, by decide, by decide⟩
theorem witness_FreqCountsOneSymbol : (full.Inv ∧ full.phase = .count ∧ full.total = 0xFFFFFFFF) ∧
    (counted.Inv ∧ counted.phase = .count ∧ counted.total ≠ 0xFFFFFFFF ∧ 2 < counted.ndist ∧
      counted.nodes[2]? = some (.leaf 0x63 2)) ∧ (State.reset.Inv ∧ State.reset.phase = .idle ∧ State.reset.total ≠ 0xFFFFFFFF) :=
  ⟨⟨inv_full, rfl, rfl⟩, ⟨inv_counted, rfl, by decide, by decide, rfl⟩, inv_reset, rfl, by decide⟩
theorem witness_FreqCountsOneSymbol_new : ∀ (i : Nat) (w : Word), i < counted.ndist → counted.nodes[i]? ≠ some (.leaf 0xFF w) := by
  intro i w hi
  have hi : i < 3 := hi
  match i, hi with
  | 0, _ | 1, _ | 2, _ => simp [counted]
theorem witness_FreqRunCountsTheText : ([] : List Byte).length < 2 ^ 32 ∧ [0x61#8, 0x62, 0x61].length < 2 ^ 32 := by decide
theorem witness_BuildMergesTheTwoLeast : counted.Inv ∧ counted.phase = .count ∧ counted.ndist ≤ 4 ∧
    built.nodes[4]? = some (.internal 7 1 3) ∧ State.reset.Inv ∧ State.reset.phase = .idle :=
  ⟨inv_counted, rfl, by decide, rfl, inv_reset, rfl⟩
/-- `single` before its BUILD: one leaf counted. -/
def one : State := { single with phase := .count, root := none }
theorem witness_BuildSizes : (counted.Inv ∧ counted.phase = .count ∧ 2 ≤ counted.ndist) ∧ (State.reset.Inv ∧ State.reset.ndist = 0) ∧
    (one.Inv ∧ one.phase = .count ∧ one.ndist = 1) :=
  ⟨⟨inv_counted, rfl, by decide⟩, ⟨inv_reset, rfl⟩,
    by refine ⟨⟨?_, ?_, ?_, ?_, ?_, ?_, ?_, ?_, ?_, ?_⟩, ?_, ?_, ?_, ?_, ?_⟩ <;> decide, rfl, by decide⟩
theorem witness_RootWeightIsTotal : counted.Inv ∧ counted.phase = .count ∧ 1 ≤ counted.ndist ∧ (2 : Nat) < built.ndist ∧
    built.nodes[3]? = some (.internal 4 0 2) := ⟨inv_counted, rfl, by decide, by decide, rfl⟩
theorem witness_BuildIsDeterminedByTheText :
    (∃ t, runCommands State.reset (.clr :: [0x61, 0x62].map .freq ++ [.build]) = .next t) ∧
    (∃ t, runCommands ready (.clr :: [0x61, 0x62].map .freq ++ [.build]) = .next t) := ⟨⟨_, rfl⟩, ⟨_, rfl⟩⟩
theorem witness_ArenaFrozenOnceBuilt : ready.phase = .ready ∧ ∃ t, exec (.freq 0x61) ready = .next t := ⟨rfl, _, rfl⟩
theorem witness_AssignWritesPathCodes : built.Inv ∧ built.phase = .built ∧ built.root = some 4 ∧ 2 ≤ built.ndist :=
  ⟨inv_built, rfl, rfl, by decide⟩
theorem witness_AssignOfOneOrNoSymbol : (single.Inv ∧ single.phase = .built ∧ single.ndist = 1) ∧
    (empty.Inv ∧ empty.phase = .built ∧ empty.ndist = 0) := ⟨⟨inv_single, rfl, by decide⟩, inv_empty, rfl, by decide⟩
theorem witness_AssignGuarantees : built.Inv ∧ built.phase = .built ∧ 1 < ready.nent ∧ ready.lut[0]? = some ⟨0x61, [true, false]⟩ ∧
    ready.lut[2]? = some ⟨0x63, [true, true]⟩ := ⟨inv_built, rfl, by decide, rfl, rfl⟩
theorem witness_SermapAppendsTheMap : ready.phase = .ready ∧ ready.Inv := ⟨rfl, inv_ready⟩
theorem witness_SerializedLength : ready.phase = .ready ∧ 1 ≤ ready.nent ∧ ∃ t, exec .sermap ready = .next t := ⟨rfl, by decide, _, rfl⟩
theorem witness_EscapeIsABijection : SymbolText 0x61 [0x61] ∧ SymbolText 0x2C [0x5C, 0x2C] :=
  ⟨.plain _ (by decide) (by decide) (by decide), .special _ (by decide)⟩
theorem witness_PackAppendsTheCode : ready.Inv ∧ ready.phase = .ready ∧ (⟨0x61, [true, false]⟩ : Entry) ∈ ready.lut ∧
    ∀ c, (⟨0x7A, c⟩ : Entry) ∉ ready.lut := ⟨inv_ready, rfl, by decide, by simp [ready]⟩
theorem witness_PayloadLength : [0x61#8, 0x61, 0x62].length < 2 ^ 32 := by decide
theorem witness_LdmapFollowsTheParserTable_symbol :
    (State.reset.err = none ∧ State.reset.phase = .idle ∧ State.reset.pstate = .start) ∧
    (afterComma.err = none ∧ afterComma.phase = .mapload ∧ afterComma.pstate = .sym) ∧ (∃ e ∈ afterComma.lut, e.sym = 0x61) ∧
    (∀ e ∈ afterComma.lut, e.sym ≠ 0x62) ∧ (0x62 : Byte) ≠ 0x5C ∧ (0x62 : Byte) ≠ 0x2C ∧ (0x62 : Byte) ≠ 0x3A := by decide
theorem witness_LdmapFollowsTheParserTable_others :
    (∀ p ∈ [PState.esc, .colon, .code0, .code], (parsing p 0x61 [] 1).err = none ∧ (parsing p 0x61 [] 1).phase = .mapload ∧
      (parsing p 0x61 [] 1).pstate = p) ∧
    (0x78 : Byte) ≠ 0x2C ∧ (0x78 : Byte) ≠ 0x3A ∧ (0x78 : Byte) ≠ 0x5C ∧ (0x78 : Byte) ≠ 0x30 ∧ (0x78 : Byte) ≠ 0x31 ∧
    (parsing .code 0x61 (List.replicate 254 true) 1).curcode.length ≠ 255 ∧
    (parsing .code 0x61 (List.replicate 255 true) 1).curcode.length = 255 :=
  ⟨by decide, by decide, by decide, by decide, by decide, by decide,
    fun h => by rw [show (parsing .code 0x61 (List.replicate 254 true) 1).curcode.length = 254 from List.length_replicate] at h
                exact absurd h (by decide),
    List.length_replicate⟩
theorem witness_EndmapChecksTheTable : (afterComma.Inv ∧ afterComma.phase = .mapload ∧ afterComma.pstate = .sym) ∧
    (State.reset.Inv ∧ State.reset.phase = .idle ∧ State.reset.pstate = .start ∧ ∀ i j, ¬ FirstCollision State.reset.lut i j) ∧
    ((colliding [false, true]).Inv ∧ (colliding [false, true]).phase = .mapload ∧ (colliding [false, true]).pstate = .code) :=
  ⟨⟨inv_afterComma, rfl, rfl⟩, ⟨inv_reset, rfl, rfl, fun i j h => by simp [FirstCollision, State.reset] at h⟩,
    inv_colliding, rfl, rfl⟩
/-- The two entries of V83 collide, and they are the first pair. -/
theorem witness_FirstCollision : FirstCollision [⟨0x61, [false]⟩, ⟨0x62, [false, true]⟩] 0 1 := by
  refine ⟨⟨by decide, _, _, rfl, rfl, .inl ⟨[true], rfl⟩⟩, fun i' j' e f hij _ hf _ => ?_⟩
  have := (List.getElem?_eq_some_iff.mp hf).1
  simp only [List.length_cons, List.length_nil] at this
  omega
theorem witness_PrefixCheckFindsTheFirstCollision : ([⟨0x61, []⟩] : List Entry).length ≤ 1 := by decide
theorem witness_LutInvariantsAndWriters : built.Inv ∧ ready.Inv ∧ ready.phase = .ready ∧ 1 < ready.nent ∧
    (∃ t, step (built.withFetchWord 32 0x12000000) = .next t ∧ t.lut ≠ built.lut) :=
  ⟨inv_built, inv_ready, rfl, by decide, _, rfl, by decide⟩
theorem witness_BitConsumesOneBit : (loaded.Inv ∧ loaded.phase = .ready ∧ loaded.buf.length ≠ 255) ∧
    (∃ e ∈ loaded.lut, e.code = loaded.buf ++ [decide ((0x30 : Byte) = 0x31)]) ∧
    (∀ e ∈ loaded.lut, e.code ≠ loaded.buf ++ [decide ((0x31 : Byte) = 0x31)]) ∧
    (stuffed.Inv ∧ stuffed.phase = .ready ∧ stuffed.buf.length = 255) ∧ (0x78 : Byte) ≠ 0x30 ∧ (0x78 : Byte) ≠ 0x31 :=
  ⟨⟨inv_loaded, rfl, by decide⟩, by decide, by decide, ⟨inv_stuffed, rfl, List.length_replicate⟩, by decide, by decide⟩
theorem witness_EnddataEndsTheDecode : (loaded.err = none ∧ loaded.phase = .ready ∧ loaded.buf = []) ∧
    (stuffed.err = none ∧ stuffed.phase = .ready ∧ stuffed.buf ≠ []) :=
  ⟨⟨rfl, rfl, rfl⟩, rfl, rfl, fun h => absurd ((List.length_replicate (n := 255) (a := false)).symm.trans (congrArg List.length h)) (by decide)⟩
theorem witness_CodesDecodeUniquely : loaded.Inv ∧ loaded.phase = .ready ∧ loaded.buf = [] ∧
    (∀ e ∈ [(⟨0x62, [false]⟩ : Entry), ⟨0x63, [true, true]⟩], e ∈ loaded.lut) := ⟨inv_loaded, rfl, rfl, by decide⟩
theorem witness_DecoderNeverInvents : (∃ t, exec .nop ready = .next t) ∧ ready.phase = .ready ∧
    (∃ t, exec .enddata loaded = .next t ∧ t.phase = .done) ∧ loaded.phase ≠ .done :=
  ⟨⟨_, rfl⟩, rfl, ⟨_, rfl, rfl⟩, by decide⟩
theorem witness_ErrorsArePrecise : (∃ t, exec (.pack 0x7A) ready = .next t ∧ t.err ≠ none) ∧
    (∃ t, exec .endmap (colliding [false]) = .next t ∧ t.err ≠ none) ∧ ready.err = none ∧ (colliding [false]).err = none :=
  ⟨⟨_, rfl, by decide⟩, ⟨_, rfl, by decide⟩, rfl, rfl⟩
theorem witness_ErrorsByCommand : ready.err = none ∧ ready.phase ∈ legalPhases (.pack 0x7A) ∧
    ∃ t, exec (.pack 0x7A) ready = .next t ∧ t.err = some .nosym := ⟨rfl, by decide, _, rfl, rfl⟩
theorem witness_FirstErrorSticks : (failed.withFetchWord 32 0x10000061).input = .cmd 0x10000061 :: [] ∧
    failed.Inv ∧ failed.phase = .failed ∧ (0x10000061 : Word) ≠ 0x01000000 ∧ (0x10000061 : Word) &&& 0xFFFF0000 ≠ 0x30000000 :=
  ⟨by decide, inv_failed, rfl, by decide, by decide⟩
theorem witness_OnlyClrAndResetLeaveFailed : failed.phase = .failed ∧
    (∃ t, step (failed.withFetchWord 32 0x01000000) = .next t ∧ t.phase ≠ .failed) ∧
    (∃ t, step { failed with input := [.rst] } = .next t ∧ t.phase ≠ .failed) := ⟨rfl, ⟨_, rfl, by decide⟩, ⟨_, rfl, by decide⟩⟩
theorem witness_OutputsOnlyGrow : ∃ t, exec (.pack 0x61) ready = .next t := ⟨_, rfl⟩
theorem witness_PinsRiseAndFall : loaded.Inv ∧ failed.Inv ∧ ended.Inv ∧
    (∃ t, step (loaded.withFetchWord 32 0x23000000) = .next t ∧ loaded.donePin = false ∧ t.donePin = true) ∧
    (∃ t, step (failed.withFetchWord 32 0x01000000) = .next t ∧ failed.failPin = true ∧ t.failPin = false) ∧
    (∃ t, step (ended.withFetchWord 32 0x22000030) = .next t ∧ ended.donePin = true ∧ t.donePin = false) :=
  ⟨inv_loaded, inv_failed, inv_ended, ⟨_, rfl, by decide, by decide⟩, ⟨_, rfl, by decide, by decide⟩, ⟨_, rfl, by decide, by decide⟩⟩
theorem witness_MapErrorsComeFirst :
    ∃ t, runCommands State.reset (.clr :: [0x61].map .ldmap ++ [.endmap]) = .next t ∧ t.phase = .failed := ⟨_, rfl, rfl⟩
theorem witness_StepKeepsTheInvariant : counted.Inv ∧ (∃ t, step (counted.withFetchWord 32 0x11000000) = .next t) ∧
    (∃ t, step (counted.withFetchWord 32 0x12000000) = .next t ∧ t.phase = .failed) := ⟨inv_counted, ⟨_, rfl⟩, ⟨_, rfl, rfl⟩⟩
theorem witness_MapposDoesNotOverflow : afterComma.Inv ∧ afterComma.err = none ∧
    (∃ t, exec (.ldmap 0x62) afterComma = .next t ∧ t.err = none) ∧ (∃ t, exec (.ldmap 0x61) afterComma = .next t ∧ t.err ≠ none) :=
  ⟨inv_afterComma, rfl, ⟨_, rfl, rfl⟩, ⟨_, rfl, by decide⟩⟩
theorem witness_MapRoundTrip : ready.Inv ∧ ready.phase = .ready := ⟨inv_ready, rfl⟩
theorem witness_AcceptedMapsAreSerialized :
    ∃ t, runCommands State.reset (.clr :: [0x61, 0x3A, 0x30].map .ldmap ++ [.endmap]) = .next t ∧ t.phase = .ready := ⟨_, rfl, rfl⟩
theorem witness_EncodeThenDecodeGivesTheText : [0x61#8, 0x62, 0x61].length < 2 ^ 32 := by decide

end Sys2Proof.Tests
end

section
/-! The CSRs of the read space (10_state.md R31, R32): which word each address reads, the bit fields of the composed words, the bounds
that make every count fit its field, and the read space after reset (R39). -/

namespace Sys2Proof.Machine

/-! ### The word at each CSR address -/

section words
variable (s : State)

theorem memRead_id : memRead s 0x0000 = csrId := memRead_csr s _ (by decide)
theorem memRead_status : memRead s 0x0001 = s.statusWord := memRead_csr s _ (by decide)
theorem memRead_err : memRead s 0x0002 = 0#28 ++ errCode s.err := memRead_csr s _ (by decide)
theorem memRead_errinfo : memRead s 0x0003 = s.errinfo := memRead_csr s _ (by decide)
theorem memRead_total : memRead s 0x0004 = s.total := memRead_csr s _ (by decide)
theorem memRead_ndist : memRead s 0x0005 = 0#23 ++ BitVec.ofNat 9 s.ndist := memRead_csr s _ (by decide)
theorem memRead_nnodes : memRead s 0x0006 = 0#22 ++ BitVec.ofNat 10 s.nnodes := memRead_csr s _ (by decide)
theorem memRead_root : memRead s 0x0007 = rootWord s.root := memRead_csr s _ (by decide)
theorem memRead_nent : memRead s 0x0008 = 0#23 ++ BitVec.ofNat 9 s.nent := memRead_csr s _ (by decide)
theorem memRead_buflen : memRead s 0x0009 = 0#24 ++ BitVec.ofNat 8 s.buf.length := memRead_csr s _ (by decide)
theorem memRead_padbits : memRead s 0x000A = csrPadbits := memRead_csr s _ (by decide)
theorem memRead_mappos : memRead s 0x000B = s.mappos := memRead_csr s _ (by decide)
theorem memRead_collide : memRead s 0x000C = s.collide := memRead_csr s _ (by decide)
theorem memRead_curent : memRead s 0x000D = s.curent := memRead_csr s _ (by decide)
theorem memRead_reserved_0E : memRead s 0x000E = 0 := memRead_csr s _ (by decide)
theorem memRead_reserved_0F : memRead s 0x000F = 0 := memRead_csr s _ (by decide)

end words

/-! ### The fields of the composed words -/

/-- A number below `2 ^ k` is read back from a `k`-bit field under zero bits. -/
theorem toNat_zero_append_ofNat {m k n : Nat} (h : n < 2 ^ k) : (0#m ++ BitVec.ofNat k n).toNat = n := by
  simp [BitVec.toNat_append, Nat.mod_eq_of_lt h]

/-- A bit that is a field of its own is read back as that bit. -/
theorem getLsbD_of_extractLsb'_eq_bit1 {n i : Nat} {w : BitVec n} {b : Bool} (h : w.extractLsb' i 1 = bit1 b) : w.getLsbD i = b := by
  rw [BitVec.getLsbD_eq_extractLsb', h]
  cases b <;> rfl

/-- The fields of STATUS, low bits first: each is the low field of what is left when the fields below it are passed over
(10_state.md R32). -/
theorem statusWord_fields (s : State) :
    s.statusWord.extractLsb' 0 4 = s.phase.bits ∧ s.statusWord.extractLsb' 4 2 = s.dstate.bits ∧
    s.statusWord.extractLsb' 6 2 = 0 ∧ s.statusWord.extractLsb' 8 3 = s.pstate.bits ∧ s.statusWord.extractLsb' 11 5 = 0 ∧
    s.statusWord.extractLsb' 16 1 = bit1 s.donePin ∧ s.statusWord.extractLsb' 17 1 = bit1 s.failPin ∧
    s.statusWord.extractLsb' 18 14 = 0 := by
  unfold State.statusWord
  refine ⟨BitVec.extractLsb'_append_eq_right, ?dstate, ?z7_6, ?pstate, ?z15_11, ?done, ?fail, ?z31_18⟩
  case dstate => rw [BitVec.extractLsb'_append_eq_of_le (by decide)]; exact BitVec.extractLsb'_append_eq_right
  case z7_6 =>
    iterate 2 rw [BitVec.extractLsb'_append_eq_of_le (by decide)]
    exact BitVec.extractLsb'_append_eq_right
  case pstate =>
    iterate 3 rw [BitVec.extractLsb'_append_eq_of_le (by decide)]
    exact BitVec.extractLsb'_append_eq_right
  case z15_11 =>
    iterate 4 rw [BitVec.extractLsb'_append_eq_of_le (by decide)]
    exact BitVec.extractLsb'_append_eq_right
  case done =>
    iterate 5 rw [BitVec.extractLsb'_append_eq_of_le (by decide)]
    exact BitVec.extractLsb'_append_eq_right
  case fail =>
    iterate 6 rw [BitVec.extractLsb'_append_eq_of_le (by decide)]
    exact BitVec.extractLsb'_append_eq_right
  case z31_18 =>
    iterate 7 rw [BitVec.extractLsb'_append_eq_of_le (by decide)]
    exact BitVec.extractLsb'_zero

/-- DSTATE by PHASE: 2 in DONE, 3 in FAILED, 0 in every other phase (10_state.md R23). -/
theorem dstate_bits (s : State) : s.dstate.bits = if s.phase = .done then 2 else if s.phase = .failed then 3 else 0 := by
  unfold State.dstate; cases s.phase <;> rfl

/-- The fields of a valid ROOT (10_state.md R31). -/
theorem rootWord_some_fields (k : NodeIdx) :
    (rootWord (some k)).extractLsb' 31 1 = bit1 true ∧ (rootWord (some k)).extractLsb' 9 22 = 0 ∧
    (rootWord (some k)).extractLsb' 0 9 = k := by
  unfold rootWord
  refine ⟨?valid, ?zero, BitVec.extractLsb'_append_eq_right⟩
  case valid => rw [BitVec.extractLsb'_append_eq_of_le (by decide)]; rfl
  case zero => rw [BitVec.extractLsb'_append_eq_of_le (by decide)]; rfl

/-- The fields of CURENT (10_state.md R31). -/
theorem curent_fields (s : State) :
    s.curent.extractLsb' 31 1 = bit1 s.pstate.inEntry ∧ s.curent.extractLsb' 16 15 = 0 ∧
    s.curent.extractLsb' 8 8 = BitVec.ofNat 8 s.curcode.length ∧ s.curent.extractLsb' 0 8 = s.cursym := by
  unfold State.curent
  refine ⟨?inEntry, ?zero, ?len, BitVec.extractLsb'_append_eq_right⟩
  case inEntry =>
    iterate 2 rw [BitVec.extractLsb'_append_eq_of_le (by decide)]
    exact BitVec.extractLsb'_append_eq_left
  case zero =>
    iterate 2 rw [BitVec.extractLsb'_append_eq_of_le (by decide)]
    exact BitVec.extractLsb'_append_eq_right
  case len => rw [BitVec.extractLsb'_append_eq_of_le (by decide)]; exact BitVec.extractLsb'_append_eq_right

/-- `CURENT[31]` as a proposition about PSTATE (10_state.md R31). -/
theorem inEntry_eq_decide (p : PState) : p.inEntry = decide (p = .colon ∨ p = .code0 ∨ p = .code) := by cases p <;> rfl

/-! ### Every count fits its field -/

section bounds
variable {s : State} (h : s.Inv)
include h

theorem State.Inv.ndist_le : s.ndist ≤ 256 := by
  obtain ⟨-, -, hdist, -⟩ := h.r38.counts
  exact hdist

theorem State.Inv.nnodes_le : s.nnodes ≤ 511 := by
  obtain ⟨-, hnodes, -, -⟩ := h.r38.counts
  exact hnodes

theorem State.Inv.nent_le : s.nent ≤ 256 := by
  obtain ⟨htable, -⟩ := h.lut
  exact htable.length_le

/-- CURCODE is empty outside PS_CODE, and in it holds at most `CODE_LEN_MAX` bits (45_bit_stream_decoder.md R187). -/
theorem State.Inv.curcode_length_le : s.curcode.length ≤ 255 := by
  obtain ⟨-, -, -, -, -, hcode, -⟩ := h.parse
  obtain ⟨-, hempty⟩ := h.r38.parser
  by_cases hp : s.pstate = .code
  · exact (hcode hp).2
  · simp [of_not_not (mt hempty hp)]

/-! ### COLLIDE -/

/-- COLLIDE has no bit set outside its two fields (10_state.md R25, R31). -/
theorem State.Inv.collide_zero_fields : s.collide.extractLsb' 25 7 = 0 ∧ s.collide.extractLsb' 9 7 = 0 := by
  obtain ⟨-, hzero, hpair⟩ := h.errs
  by_cases he : s.err = some .codetbl
  · obtain ⟨hhi, hlo, -⟩ := hpair he
    exact ⟨hhi, hlo⟩
  · rw [hzero he]
    exact ⟨BitVec.extractLsb'_zero, BitVec.extractLsb'_zero⟩

/-- After `E_CODETBL`, COLLIDE's two fields are the table's first colliding pair (10_state.md R25; 43_code_lut.md R154). -/
theorem State.Inv.collide_firstCollision (he : s.err = some .codetbl) :
    FirstCollision s.lut (s.collide.extractLsb' 0 9).toNat (s.collide.extractLsb' 16 9).toNat := by
  obtain ⟨-, -, hpair⟩ := h.errs
  obtain ⟨-, -, hcheck⟩ := hpair he
  exact prefixCheck_firstCollision hcheck

end bounds

/-! ### The read space after reset (10_state.md R39) -/

theorem readNode_nil (off : Nat) : readNode [] off = 0 := rfl

theorem readLut_nil (off : Nat) : readLut [] off = 0 := rfl

/-- Every CSR but ID is 0 after reset. -/
theorem readCsr_reset {n : Nat} (hn : n ≠ 0) : readCsr State.reset n = 0 := by
  unfold readCsr
  split
  · exact absurd rfl hn
  all_goals rfl

/-- After reset every address but ID's reads 0. -/
theorem memRead_reset {a : Addr} (ha : a ≠ 0) : memRead State.reset a = 0 := by
  have hn : a.toNat ≠ 0 := fun h0 => ha (BitVec.eq_of_toNat_eq h0)
  unfold memRead
  simp only
  split_ifs
  · exact readCsr_reset hn
  · rfl
  · exact readNode_nil _
  · exact readLut_nil _
  · rfl

/-! ### The obligations -/

/-- Settles O16: each address's word, then its fields, with the invariant's bounds for the counts. -/
theorem csrWords : Obligations.CsrWords := by
  intro s h
  rw [memRead_id, memRead_err, memRead_errinfo, memRead_total, memRead_ndist, memRead_nnodes, memRead_root, memRead_nent,
    memRead_buflen, memRead_padbits, memRead_mappos, memRead_collide, memRead_curent, memRead_reserved_0E, memRead_reserved_0F]
  have hnd := h.ndist_le
  have hnn := h.nnodes_le
  have hne := h.nent_le
  have hbuf : s.buf.length ≤ 255 := h.bits
  have hcode := h.curcode_length_le
  obtain ⟨-, hcollide, -⟩ := h.errs
  obtain ⟨hhi, hlo⟩ := h.collide_zero_fields
  obtain ⟨hin, hz, hlen, hsym⟩ := curent_fields s
  refine ⟨rfl, ?err, rfl, rfl, toNat_zero_append_ofNat (by omega), toNat_zero_append_ofNat (by omega), ?noRoot, ?root,
    toNat_zero_append_ofNat (by omega), toNat_zero_append_ofNat (by omega), rfl, rfl,
    ⟨rfl, hcollide, h.collide_firstCollision, hhi, hlo⟩, ⟨(getLsbD_of_extractLsb'_eq_bit1 hin).trans (inEntry_eq_decide _), hz, ?len, hsym⟩, rfl, rfl⟩
  case err => refine ⟨?_, ?_, ?_, ?_, ?_, ?_, ?_, ?_⟩ <;> intro he <;> rw [he] <;> rfl
  case noRoot => intro hr; rw [hr]; rfl
  case root =>
    intro k hk
    obtain ⟨hvalid, hzero, hidx⟩ := rootWord_some_fields k
    rw [hk]
    exact ⟨getLsbD_of_extractLsb'_eq_bit1 hvalid, hzero, hidx⟩
  case len => rw [hlen, BitVec.toNat_ofNat, Nat.mod_eq_of_lt (by omega)]

/-- Settles O17: the fields of STATUS, with the values of PHASE, DSTATE and PSTATE written out. -/
theorem statusWordFields : Obligations.StatusWordFields := by
  intro s
  obtain ⟨hphase, hdstate, h7_6, hpstate, h15_11, hdone, hfail, h31_18⟩ := statusWord_fields s
  rw [memRead_status, hphase, hpstate]
  refine ⟨?phase, hdstate.trans (dstate_bits s), h7_6, ?pstate, h15_11, (getLsbD_of_extractLsb'_eq_bit1 hdone).trans (beq_eq_decide _ _),
    (getLsbD_of_extractLsb'_eq_bit1 hfail).trans (beq_eq_decide _ _), h31_18⟩
  case phase => refine ⟨?_, ?_, ?_, ?_, ?_, ?_, ?_⟩ <;> intro hp <;> rw [hp] <;> rfl
  case pstate => refine ⟨?_, ?_, ?_, ?_, ?_, ?_⟩ <;> intro hp <;> rw [hp] <;> rfl

/-- Settles O8: the registers, lists and pins by their definition at reset, the read space by its four windows. -/
theorem resetValues : Obligations.ResetValues := by
  refine ⟨rfl, rfl, rfl, rfl, rfl, rfl, rfl, rfl, rfl, rfl, rfl, rfl, rfl, rfl, rfl, rfl, rfl, rfl, rfl, rfl, rfl,
    memRead_id State.reset, ?_⟩
  intro a ha
  exact memRead_reset ha

end Sys2Proof.Machine
end

section
/-! The windows of the read space (20_memory.md R61 to R65): the addresses of each window's words, what a slot of the arena and an entry
of the table show in them, and the addresses no window holds. -/

namespace Sys2Proof.Machine

/-! ### The word at each window address -/

/-- The count of a symbol (20_memory.md R62). -/
theorem memRead_freqAddr (s : State) (sym : Byte) : memRead s (0x0100 + sym.zeroExtend 16) = freqOf sym s.nodes := by
  have haddr := freqAddr_toNat sym
  have hsym := sym.isLt
  rw [memRead_freq s _ (by omega) (by omega), haddr, Nat.add_sub_cancel_left, BitVec.ofNat_toNat, BitVec.setWidth_eq]

/-- Word `off` of the NODE window (20_memory.md R63). -/
theorem memRead_nodeAddr (s : State) {off : Nat} (h : off < 1022) :
    memRead s (BitVec.ofNat 16 (0x0400 + off)) = readNode s.nodes off := by
  have haddr : (BitVec.ofNat 16 (0x0400 + off)).toNat = 0x0400 + off := Nat.mod_eq_of_lt (by omega)
  rw [memRead_node s _ (by omega) (by omega), haddr, Nat.add_sub_cancel_left]

/-- Word `off` of the LUT window (20_memory.md R64). -/
theorem memRead_lutAddr (s : State) {off : Nat} (h : off < 4096) :
    memRead s (BitVec.ofNat 16 (0x1000 + off)) = readLut s.lut off := by
  have haddr : (BitVec.ofNat 16 (0x1000 + off)).toNat = 0x1000 + off := Nat.mod_eq_of_lt (by omega)
  rw [memRead_lut s _ (by omega) (by omega), haddr, Nat.add_sub_cancel_left]

/-- An address outside the four windows reads 0 (20_memory.md R65); the NODE window ends at slot 510. -/
theorem memRead_unlisted (s : State) (a : Addr) (hcsr : ¬ a.toNat < 0x10) (hfreq : ¬ (0x100 ≤ a.toNat ∧ a.toNat < 0x200))
    (hnode : ¬ (0x400 ≤ a.toNat ∧ a.toNat < 0x7FE)) (hlut : ¬ (0x1000 ≤ a.toNat ∧ a.toNat < 0x2000)) : memRead s a = 0 := by
  unfold memRead; simp only
  rw [if_neg hcsr, if_neg hfreq, if_neg hnode, if_neg hlut]

/-! ### A slot of the arena in the NODE window (20_memory.md R63) -/

section slot
variable {nodes : List Node} {k : Nat}

/-- Both words of an invalid slot. -/
theorem readNode_invalid (h : nodes[k]? = none) : readNode nodes (2 * k) = 0 ∧ readNode nodes (2 * k + 1) = 0 := by
  unfold readNode
  rw [show 2 * k / 2 = k by omega, show (2 * k + 1) / 2 = k by omega, h]
  exact ⟨rfl, rfl⟩

/-- The weight word and the info word of a valid slot. -/
theorem readNode_valid {n : Node} (h : nodes[k]? = some n) :
    readNode nodes (2 * k) = n.weight ∧ readNode nodes (2 * k + 1) = nodeInfo n := by
  unfold readNode
  rw [show 2 * k / 2 = k by omega, show (2 * k + 1) / 2 = k by omega, h]
  exact ⟨if_pos (by omega), if_neg (by omega)⟩

end slot

/-- The info word of a leaf. -/
theorem nodeInfo_leaf_fields (sym : Byte) (w : Word) :
    (nodeInfo (.leaf sym w)).extractLsb' 31 1 = bit1 true ∧ (nodeInfo (.leaf sym w)).extractLsb' 30 1 = bit1 true ∧
    (nodeInfo (.leaf sym w)).extractLsb' 8 22 = 0 ∧ (nodeInfo (.leaf sym w)).extractLsb' 0 8 = sym := by
  unfold nodeInfo
  refine ⟨?valid, ?leaf, ?zero, BitVec.extractLsb'_append_eq_right⟩
  all_goals
    rw [BitVec.extractLsb'_append_eq_of_le (by decide)]
    rfl

/-- The info word of an internal node. -/
theorem nodeInfo_internal_fields (w : Word) (l r : NodeIdx) :
    (nodeInfo (.internal w l r)).extractLsb' 31 1 = bit1 true ∧ (nodeInfo (.internal w l r)).extractLsb' 30 1 = bit1 false ∧
    (nodeInfo (.internal w l r)).extractLsb' 18 12 = 0 ∧ (nodeInfo (.internal w l r)).extractLsb' 9 9 = r ∧
    (nodeInfo (.internal w l r)).extractLsb' 0 9 = l := by
  unfold nodeInfo
  refine ⟨?valid, ?leaf, ?zero, ?right, BitVec.extractLsb'_append_eq_right⟩
  case right => rw [BitVec.extractLsb'_append_eq_of_le (by decide)]; exact BitVec.extractLsb'_append_eq_right
  all_goals
    iterate 2 rw [BitVec.extractLsb'_append_eq_of_le (by decide)]
    rfl

/-! ### An entry of the table in the LUT window (20_memory.md R64) -/

section entry
variable {lut : List Entry} {i k : Nat} (hk : k < 16)
include hk

/-- A word of an invalid entry. -/
theorem readLut_invalid (h : lut[i]? = none) : readLut lut (16 * i + k) = 0 := by
  unfold readLut
  rw [show (16 * i + k) / 16 = i by omega, h]

/-- Word `k` of a valid entry. -/
theorem readLut_valid {e : Entry} (h : lut[i]? = some e) : readLut lut (16 * i + k) = entryWord e k := by
  unfold readLut
  rw [show (16 * i + k) / 16 = i by omega, h, show (16 * i + k) % 16 = k by omega]

end entry

/-- The fields of an entry's word 0. -/
theorem entryWord_zero_fields (e : Entry) :
    (entryWord e 0).extractLsb' 31 1 = bit1 true ∧ (entryWord e 0).extractLsb' 16 15 = 0 ∧
    (entryWord e 0).extractLsb' 8 8 = BitVec.ofNat 8 e.code.length ∧ (entryWord e 0).extractLsb' 0 8 = e.sym := by
  unfold entryWord
  rw [if_pos rfl]
  refine ⟨?valid, ?zero, ?len, BitVec.extractLsb'_append_eq_right⟩
  case len => rw [BitVec.extractLsb'_append_eq_of_le (by decide)]; exact BitVec.extractLsb'_append_eq_right
  all_goals
    iterate 2 rw [BitVec.extractLsb'_append_eq_of_le (by decide)]
    rfl

/-- Words 1 to 8 hold the code, 32 bits each. -/
theorem entryWord_succ (e : Entry) {q : Nat} (hq : q < 8) : entryWord e (1 + q) = codeWord e.code q := by
  unfold entryWord
  rw [if_neg (by omega), if_pos (by omega), Nat.add_sub_cancel_left]

/-- Words 9 to 15 hold nothing. -/
theorem entryWord_past_code (e : Entry) {k : Nat} (hk : 9 ≤ k) : entryWord e k = 0 := by
  unfold entryWord
  rw [if_neg (by omega), if_neg (by omega)]

/-- Bit `m` of 32-bit word `q` of a code is code bit `32q + m`, 0 past the code's end. -/
theorem codeWord_getLsbD (code : Code) (q : Nat) {m : Nat} (hm : m < 32) :
    (codeWord code q).getLsbD m = (code[32 * q + m]?).getD false := by
  unfold codeWord
  rw [BitVec.getLsbD_ofNat, bitsToNat_testBit, List.getElem?_take_of_lt hm, List.getElem?_drop, decide_eq_true hm, Bool.true_and]

/-- Code bit `n` stands at bit `n mod 32` of word `1 + floor(n / 32)`. -/
theorem entryWord_codeBit (e : Entry) {n : Nat} (hn : n < 256) :
    (entryWord e (1 + n / 32)).getLsbD (n % 32) = (e.code[n]?).getD false := by
  rw [entryWord_succ e (by omega), codeWord_getLsbD _ _ (by omega), Nat.div_add_mod]

/-- Every entry's code has at most `CODE_LEN_MAX` bits (43_code_lut.md R156). -/
theorem State.Inv.code_length_le {s : State} (h : s.Inv) {e : Entry} (he : e ∈ s.lut) : e.code.length ≤ 255 := by
  obtain ⟨⟨-, hcodes⟩, -⟩ := h.lut
  exact (hcodes e he).2

/-! ### The obligations -/

/-- Settles O18: the address reads FREQ of the symbol, which the distinct leaf symbols make the weight of its one leaf. -/
theorem freqWindowReadsTheCounts : Obligations.FreqWindowReadsTheCounts := by
  intro s h sym
  rw [memRead_freqAddr]
  refine ⟨fun w hw => freqOf_mem h.r38.leaves hw, fun hnone => freqOf_not_mem ?_⟩
  rw [mem_leafSyms]
  rintro ⟨w, hw⟩
  exact hnone w hw

/-- Settles O19: the two addresses of slot `k` read its weight word and its info word, by what the slot holds. -/
theorem nodeWindowReadsTheArena : Obligations.NodeWindowReadsTheArena := by
  intro s k _ hk
  simp only [Nat.add_assoc]
  rw [memRead_nodeAddr s (off := 2 * k) (by omega), memRead_nodeAddr s (off := 2 * k + 1) (by omega)]
  refine ⟨readNode_invalid, ?leaf, ?internal, ?no511, ?no511'⟩
  case leaf =>
    intro sym w hslot
    obtain ⟨hweight, hinfo⟩ := readNode_valid hslot
    obtain ⟨hvalid, hleaf, hzero, hsym⟩ := nodeInfo_leaf_fields sym w
    rw [hinfo]
    exact ⟨hweight, getLsbD_of_extractLsb'_eq_bit1 hvalid, getLsbD_of_extractLsb'_eq_bit1 hleaf, hzero, hsym⟩
  case internal =>
    intro w l r hslot
    obtain ⟨hweight, hinfo⟩ := readNode_valid hslot
    obtain ⟨hvalid, hleaf, hzero, hright, hleft⟩ := nodeInfo_internal_fields w l r
    rw [hinfo]
    exact ⟨hweight, getLsbD_of_extractLsb'_eq_bit1 hvalid, getLsbD_of_extractLsb'_eq_bit1 hleaf, hzero, hright, hleft⟩
  case no511 | no511' => exact memRead_unlisted s _ (by decide) (by decide) (by decide) (by decide)

/-- Settles O20: each of the sixteen addresses of entry `i` reads that word of the entry; the length fits its field by the invariant. -/
theorem lutWindowReadsTheTable : Obligations.LutWindowReadsTheTable := by
  intro s i h hi
  have hword : ∀ k < 16, memRead s (BitVec.ofNat 16 (0x1000 + 16 * i + k)) = readLut s.lut (16 * i + k) := fun k hk => by
    rw [Nat.add_assoc, memRead_lutAddr s (by omega)]
  refine ⟨fun hnone k hk => (hword k hk).trans (readLut_invalid hk hnone), fun e he => ?valid⟩
  have hentry : ∀ k < 16, memRead s (BitVec.ofNat 16 (0x1000 + 16 * i + k)) = entryWord e k := fun k hk =>
    (hword k hk).trans (readLut_valid hk he)
  have hlen := h.code_length_le (List.mem_of_getElem? he)
  obtain ⟨hvalid, hzero, hlenField, hsym⟩ := entryWord_zero_fields e
  simp only [hentry 0 (by decide)]
  refine ⟨getLsbD_of_extractLsb'_eq_bit1 hvalid, hzero, ?len, hsym, ?code, ?rest⟩
  case len => rw [hlenField, BitVec.toNat_ofNat, Nat.mod_eq_of_lt (by omega)]
  case code =>
    intro n hn
    rw [hentry _ (by omega), entryWord_codeBit e hn]
  case rest =>
    intro k h9 hk
    rw [hentry k hk, entryWord_past_code e h9]

/-- Settles O21: RDREG, legal in every phase, appends to RSP alone; an address in none of the four ranges is in no window. -/
theorem unlistedAddressesReadZero : Obligations.UnlistedAddressesReadZero := by
  refine ⟨fun s a => ⟨own (.rdreg a) s, ?_, rfl, rfl, rfl⟩, fun s a hcsr hfreq hnode hlut => ?_⟩
  · rw [exec_eq_next, after_of_legal rfl]
  · exact memRead_unlisted s a (by omega) (by omega) (by omega) (by omega)

end Sys2Proof.Machine
end

section
/-! The opcode map as a table of masks (30_encoding.md R82): what a word's fields are when it matches a row, and why no word matches
two rows. -/

namespace Sys2Proof

/-! ### A word and its three fields under a mask (30_encoding.md R80) -/

theorem opField_and (v w : Word) : opField (v &&& w) = opField v &&& opField w := BitVec.extractLsb'_and

theorem rsvField_and (v w : Word) : rsvField (v &&& w) = rsvField v &&& rsvField w := BitVec.extractLsb'_and

theorem argField_and (v w : Word) : argField (v &&& w) = argField v &&& argField w := BitVec.extractLsb'_and

/-- A word is the bare command word of an opcode exactly when its fields say so. -/
theorem eq_cmd32_zero_iff {w : Word} {op : Byte} : w = cmd32 op 0 ↔ opField w = op ∧ rsvField w = 0 ∧ argField w = 0 := by
  constructor
  · rintro rfl
    exact ⟨opField_cmd32 op 0, rsvField_cmd32 op 0, argField_cmd32 op 0⟩
  · rintro ⟨rfl, hrsv, harg⟩
    rw [← harg, cmd32_fields w hrsv]

/-- The mask 0xFF00 of `arg` keeps the high byte. -/
theorem and_highMask_eq_zero_iff (a : Addr) : a &&& 0xFF00 = 0 ↔ a.extractLsb' 8 8 = 0 := by
  have hkeep : a &&& 0xFF00 = a.extractLsb' 8 8 ++ 0#8 := calc
    a &&& 0xFF00 = (a.extractLsb' 8 8 ++ a.extractLsb' 0 8) &&& (BitVec.allOnes 8 ++ 0#8) := by
      rw [BitVec.extractLsb'_append_extractLsb' (w := 8)]; rfl
    _ = a.extractLsb' 8 8 ++ 0#8 := by rw [BitVec.and_append, BitVec.and_allOnes, BitVec.and_zero]
  rw [hkeep, show (0 : Addr) = 0#8 ++ 0#8 from rfl, BitVec.append_left_inj]
  rfl

/-! ### The three masks of the opcode map (30_encoding.md R81, R82), each with the match of opcode `op` -/

section rows
variable {w : Word} (op : Byte) (p : Word) (hp : cmd32 op 0 = p)
include hp

/-- Mask 0xFFFFFFFF, a command without operand. -/
theorem eq_pattern_iff : w = p ↔ (opField w).toNat = op.toNat ∧ rsvField w = 0 ∧ argField w = 0 := by
  rw [← hp, eq_cmd32_zero_iff, BitVec.toNat_inj]

/-- Mask 0xFFFFFF00, a command with a symbol or a character. -/
theorem and_byteMask_eq_pattern_iff :
    w &&& 0xFFFFFF00 = p ↔ (opField w).toNat = op.toNat ∧ rsvField w = 0 ∧ (argField w).extractLsb' 8 8 = 0 := by
  rw [← hp, eq_cmd32_zero_iff, opField_and, rsvField_and, argField_and, BitVec.toNat_inj, ← and_highMask_eq_zero_iff,
    show opField 0xFFFFFF00 = BitVec.allOnes 8 from rfl, show rsvField 0xFFFFFF00 = BitVec.allOnes 8 from rfl,
    show argField 0xFFFFFF00 = 0xFF00 from rfl, BitVec.and_allOnes, BitVec.and_allOnes]

/-- Mask 0xFFFF0000, a command with an address. -/
theorem and_addrMask_eq_pattern_iff : w &&& 0xFFFF0000 = p ↔ (opField w).toNat = op.toNat ∧ rsvField w = 0 := by
  rw [← hp, eq_cmd32_zero_iff, opField_and, rsvField_and, argField_and, BitVec.toNat_inj,
    show opField 0xFFFF0000 = BitVec.allOnes 8 from rfl, show rsvField 0xFFFF0000 = BitVec.allOnes 8 from rfl,
    show argField 0xFFFF0000 = 0#16 from rfl, BitVec.and_allOnes, BitVec.and_allOnes, BitVec.and_zero]
  exact and_congr_right fun _ => and_iff_left rfl

end rows

/-! ### The decoder by the fields of the word -/

theorem decode_of_rsvField_ne_zero {w : Word} (h : rsvField w ≠ 0) : decode w = none := by
  unfold decode decodeWord
  rw [if_neg h]

theorem decode_of_rsvField_eq_zero {w : Word} (h : rsvField w = 0) :
    decode w = (decodeOperand (opField w) (argField w)).toOption := by
  rw [← decode_cmd32, cmd32_fields w h]

theorem toOption_noOperand (arg : Addr) (i : Instr) : (noOperand arg i).toOption = if arg = 0 then some i else none :=
  apply_ite Except.toOption ..

theorem toOption_byteOperand (arg : Addr) (f : Byte → Instr) :
    (byteOperand arg f).toOption = if arg.extractLsb' 8 8 = 0 then some (f (arg.extractLsb' 0 8)) else none :=
  apply_ite Except.toOption ..

/-- `arg[7:0]` is bits 7:0 of the word (30_encoding.md R81). -/
theorem argField_low (w : Word) : (argField w).extractLsb' 0 8 = w.extractLsb' 0 8 :=
  BitVec.extractLsb'_extractLsb'_of_le (by decide)

/-! ### The rows of the opcode map are pairwise disjoint -/

/-- Every mask keeps `op` whole, so a word has the opcode of the row it selects. -/
theorem opField_of_selects {w : Word} {r : OpcodeRow} (hr : r ∈ opcodeMap) (h : r.selects w = true) :
    opField w = opField r.pattern := by
  have hmask : ∀ r ∈ opcodeMap, opField r.mask = BitVec.allOnes 8 := by decide
  rw [← eq_of_beq h, opField_and, hmask r hr, BitVec.and_allOnes]

/-- No two rows have the same opcode. -/
theorem opcodeMap_eq_of_opField_eq : ∀ r ∈ opcodeMap, ∀ q ∈ opcodeMap, opField r.pattern = opField q.pattern → r = q := by
  decide

/-! ### The obligations -/

/-- Settles O3: every row's test becomes a test of fields, and then `op` decides which arm of the decoder and which row apply. -/
theorem decodeFollowsTheOpcodeMap : Obligations.DecodeFollowsTheOpcodeMap := by
  refine ⟨fun w => ?map, fun w r hr q hq hrw hqw => ?disjoint⟩
  case map =>
    simp only [eq_pattern_iff 0x00 0x00000000 rfl, eq_pattern_iff 0x01 0x01000000 rfl, eq_pattern_iff 0x11 0x11000000 rfl,
      eq_pattern_iff 0x12 0x12000000 rfl, eq_pattern_iff 0x13 0x13000000 rfl, eq_pattern_iff 0x21 0x21000000 rfl,
      eq_pattern_iff 0x23 0x23000000 rfl, and_byteMask_eq_pattern_iff 0x10 0x10000000 rfl,
      and_byteMask_eq_pattern_iff 0x14 0x14000000 rfl, and_byteMask_eq_pattern_iff 0x20 0x20000000 rfl,
      and_byteMask_eq_pattern_iff 0x22 0x22000000 rfl, and_addrMask_eq_pattern_iff 0x30 0x30000000 rfl]
    by_cases hrsv : rsvField w = 0
    · rw [decode_of_rsvField_eq_zero hrsv]
      unfold decodeOperand
      split
      case h_13 => -- an `op` of no row
        simp only [imp_false] at *
        simp [Except.toOption, *]
      case h_12 => -- RDREG
        simp [Except.toOption, argField, *]
      all_goals simp [toOption_noOperand, toOption_byteOperand, argField_low, *]
    · rw [decode_of_rsvField_ne_zero hrsv]
      simp only [hrsv, false_and, and_false, if_false]
  case disjoint =>
    have hop : opField r.pattern = opField q.pattern := (opField_of_selects hr hrw).symm.trans (opField_of_selects hq hqw)
    exact opcodeMap_eq_of_opField_eq r hr q hq hop

/-- Settles O5, word by word. -/
theorem sampleWordsDecode : Obligations.SampleWordsDecode := by
  unfold Obligations.SampleWordsDecode
  decide

end Sys2Proof
end

section
/-! The control commands and the table of phases (40_control.md R100 to R103): NOP, CLR and RDREG by their own rules, and for every
command the phase it leaves behind. -/

namespace Sys2Proof.Machine

/-! ### NOP, CLR and RDREG -/

/-- A command that passes the phase check answers the state its own rule gives. -/
theorem exec_of_legal {i : Instr} {s : State} (h : legalIn i s.phase = true) : exec i s = .next (own i s) := by
  rw [exec_eq_next, after_of_legal h]

/-- Settles O13: NOP's own rule is the identity, and NOP is legal in every phase. -/
theorem nopChangesNothing : Obligations.NopChangesNothing := ⟨rfl, fun _ => exec_of_legal (i := .nop) rfl⟩

/-- The word of RDREG, opcode 0x30 over the address, decodes to RDREG of that address (30_encoding.md R82). -/
theorem decode_rdregWord (addr : Addr) : decode (0x30000000 ||| addr.zeroExtend 32) = some (.rdreg addr) := by
  rw [show (0x30000000 : Word) = cmd32 0x30 0 from rfl, ← cmd32_addr, decode_cmd32]
  rfl

/-- Settles O15: the word by `decode_rdregWord`, the effect by RDREG's own rule, legal in every phase. -/
theorem rdregAppendsTheWordRead : Obligations.RdregAppendsTheWordRead :=
  ⟨decode_rdregWord, fun _ addr => exec_of_legal (i := .rdreg addr) rfl⟩

/-- In IDLE the invariant leaves every register, the arena and the table at its reset value, so CLR finds nothing to clear: R38 items
4, 8 and 10 empty the arena, TOTAL, BUF and the parser, and ERR is 0 outside FAILED. -/
theorem State.Inv.clearState_eq_self {s : State} (h : s.Inv) (hp : s.phase = .idle) : clearState s = s := by
  have hpstate : s.pstate = .start := h.pstate_start (by simp [hp]) (by simp [hp])
  have herr : s.err = none := h.err_eq_none (by simp [hp])
  have hroot : s.root = none := h.root_none (.inl hp)
  obtain ⟨hearly, -⟩ := h.r38.early
  obtain ⟨-, hnodes, htotal⟩ := hearly (.inl hp)
  obtain ⟨hbuf, -⟩ := h.r38.buf
  obtain ⟨-, hcode⟩ := h.r38.parser
  obtain ⟨-, hlut⟩ := h.lut
  obtain ⟨-, hmappos, -, -, hcursym, -⟩ := h.parse
  obtain ⟨herrinfo, hcollide, -⟩ := h.errs
  have hcurcode : s.curcode = [] := of_not_not (mt hcode (by simp [hpstate]))
  cases s
  simp_all [clearState, State.reset, State.nnodes, PState.inEntry]

/-- Settles O14: CLR's own rule is `clearState`, legal in every phase, and `clearState` of a state in IDLE is that state. -/
theorem clrResetsAllButTheOutputs : Obligations.ClrResetsAllButTheOutputs := by
  have hclr (s : State) : exec .clr s = .next (clearState s) := exec_of_legal (i := .clr) rfl
  exact ⟨rfl, hclr, fun s h hp => (hclr s).trans (congrArg _ (h.clearState_eq_self hp))⟩

/-! ### The table of phases -/

/-- The commands that are legal in FAILED (NOP, CLR, RDREG) raise no error of their own (40_control.md R103; 60_exceptions.md R211). -/
theorem ownErrors_of_failed_mem {i : Instr} (h : .failed ∈ legalPhases i) : ownErrors i = [] := by
  cases i <;> simp [legalPhases] at h <;> rfl

/-- Under the invariant a command that raises an error of its own in one of its phases raises the first one: ERR was 0. -/
theorem State.Inv.err_eq_none_of_ownError {s : State} (h : s.Inv) {i : Instr} {e : ErrCode} (hi : s.phase ∈ legalPhases i)
    (he : e ∈ ownErrors i) : s.err = none := by
  refine h.err_eq_none fun hp => ?_
  rw [ownErrors_of_failed_mem (hp ▸ hi)] at he
  exact absurd he List.not_mem_nil

/-- Under the invariant a command in one of its phases raises nothing and ends in the phase of the table, or raises its first error
and ends in FAILED; CLR ends in the phase of the table whatever it finds. -/
theorem State.Inv.own_phase {s : State} (h : s.Inv) {i : Instr} (hi : s.phase ∈ legalPhases i) :
    ((own i s).err = s.err ∧ (own i s).phase = phaseAfter i s.phase) ∨
    (i = .clr ∧ (own i s).phase = phaseAfter i s.phase) ∨
    (i ≠ .clr ∧ (own i s).err ≠ s.err ∧ (own i s).phase = .failed) := by
  rcases own_outcome i s with hok | ⟨rfl, -⟩ | ⟨e, u, hraise, -, he, -⟩ | ⟨-, hill⟩
  · exact .inl hok
  · exact .inr (.inl ⟨rfl, rfl⟩)
  · have hclr : i ≠ .clr := by rintro rfl; exact absurd he List.not_mem_nil
    rw [hraise, h.err_eq_none_of_ownError hi he]
    exact .inr (.inr ⟨hclr, raise_err_ne_none _ _ _, raise_phase _ _ _⟩)
  · exact absurd hi hill

/-- Settles O12: out of its phases a command is `raise .seq`, in FAILED with ERR not 0 a change of nothing; in them `own_phase`. -/
theorem phaseTable : Obligations.PhaseTable := by
  intro i s h
  refine ⟨fun hill hp => ?seq, fun hill hp => ?seqFailed, fun hi => ⟨own i s, exec_of_mem hi, ?legal⟩⟩
  case seq => rw [exec_eq_next, after_of_not_mem hill, raise_of_err_none _ _ _ (h.err_eq_none hp)]
  case seqFailed => rw [exec_eq_next, after_of_not_mem hill, raise_of_err_some _ _ _ (h.err_ne_none hp), ← hp]
  case legal =>
    rcases h.own_phase hi with ⟨herr, hphase⟩ | ⟨hclr, hphase⟩ | ⟨hclr, herr, hphase⟩
    · exact ⟨fun _ => hphase, fun hne => absurd herr hne⟩
    · exact ⟨fun _ => hphase, fun _ hne => absurd hclr hne⟩
    · exact ⟨fun hor => (hor.elim herr hclr).elim, fun _ _ => hphase⟩

end Sys2Proof.Machine
end

section
/-! The arena BUILD leaves (41_tree_builder.md R112, R115): the leaves with internal nodes after them, how many slots that makes, and
where the root is. -/

namespace Sys2Proof.Machine

/-! ### What BUILD does to the arena and to ROOT -/

section build
variable {s : State} (h : s.Inv) (hp : s.phase = .idle ∨ s.phase = .count)

include hp in
/-- BUILD is legal in IDLE and COUNT (R112), so it answers the state its own rule gives. -/
theorem exec_build : exec .build s = .next (buildOwn s) :=
  exec_of_mem (i := .build) (by rcases hp with hp | hp <;> simp [legalPhases, hp])

include h hp

/-- BUILD keeps every slot and appends internal nodes only. -/
theorem buildOwn_nodes_append : ∃ inner, (buildOwn s).nodes = s.nodes ++ inner ∧ ∀ n ∈ inner, n.isLeaf = false := by
  obtain ⟨q, nodes, hloop, hforest, -⟩ := build_spec h hp
  obtain ⟨inner, hnodes, hinner⟩ := hforest.shape
  refine ⟨inner, ?_, hinner⟩
  rw [buildOwn_eq, hloop]
  exact hnodes

theorem buildOwn_ndist : (buildOwn s).ndist = s.ndist := by
  have hleaves := h.all_leaves (h.root_none hp)
  obtain ⟨inner, hnodes, hinner⟩ := buildOwn_nodes_append h hp
  obtain ⟨hlength, -⟩ := countsOk_of_append hleaves hinner hnodes
  exact hlength.trans (leafCount_eq_length_iff.mpr hleaves).symm

/-- The size and the validity of ROOT are R38 item 5 in the state BUILD leaves. -/
theorem buildOwn_nnodes_and_root_isSome :
    (buildOwn s).nnodes = (if 1 ≤ s.ndist then 2 * s.ndist - 1 else 0) ∧ (buildOwn s).root.isSome = decide (1 ≤ s.ndist) := by
  obtain ⟨hnnodes, hroot, -⟩ := (build_inv h hp).r38.built rfl
  rw [buildOwn_ndist h hp] at hnnodes hroot
  exact ⟨hnnodes, hroot⟩

theorem buildOwn_of_no_leaf (h0 : s.ndist = 0) : (buildOwn s).nnodes = 0 ∧ (buildOwn s).root = none := by
  simpa [h0] using buildOwn_nnodes_and_root_isSome h hp

/-- With a leaf, ROOT is the last of the `2n - 1` slots (R114). -/
theorem buildOwn_of_leaf (h1 : 1 ≤ s.ndist) :
    (buildOwn s).nnodes = 2 * s.ndist - 1 ∧ (buildOwn s).root = some (BitVec.ofNat 9 (2 * s.ndist - 2)) := by
  obtain ⟨hnnodes, hroot⟩ := buildOwn_nnodes_and_root_isSome h hp
  rw [if_pos h1] at hnnodes
  obtain ⟨r, hr⟩ := Option.isSome_iff_exists.mp (hroot.trans (decide_eq_true h1))
  obtain ⟨-, hlast, -⟩ := (build_inv h hp).arena
  obtain ⟨-, -, hslot, -⟩ := hlast r (by simp [hr])
  have hindex : r.toNat = 2 * s.ndist - 2 := by omega
  rw [hr, ← hindex, BitVec.ofNat_toNat, BitVec.setWidth_eq]
  exact ⟨hnnodes, rfl⟩

/-- With one leaf no slot is appended. -/
theorem buildOwn_nodes_of_one_leaf (h1 : s.ndist = 1) : (buildOwn s).nodes = s.nodes := by
  obtain ⟨hnnodes, -⟩ := buildOwn_of_leaf h hp h1.ge
  obtain ⟨inner, hnodes, -⟩ := buildOwn_nodes_append h hp
  have hlength : s.nodes.length = 1 := (leafCount_eq_length_iff.mpr (h.all_leaves (h.root_none hp))).symm.trans h1
  have hinner : inner = [] := by
    rw [State.nnodes, hnodes, List.length_append] at hnnodes
    exact List.eq_nil_of_length_eq_zero (by omega)
  rw [hnodes, hinner, List.append_nil]

end build

/-! ### The obligation -/

/-- Settles O26: BUILD's own rule raises nothing and keeps the leaves; with no leaf it makes no slot, with `n` leaves it fills `2n - 1`
slots and the last one is the root. That they fit the arena is R38 item 1 of the state BUILD leaves. -/
theorem buildSizes : Obligations.BuildSizes := by
  intro s h hp
  have herr : s.err = none := h.err_eq_none (by rcases hp with hp | hp <;> simp [hp])
  refine ⟨buildOwn s, exec_build hp, herr, buildOwn_ndist h hp, buildOwn_of_no_leaf h hp, fun h1 => ?one, fun h2 => ?more⟩
  case one =>
    obtain ⟨hnnodes, hroot⟩ := buildOwn_of_leaf h hp h1.ge
    rw [h1] at hnnodes hroot
    exact ⟨hnnodes, hroot, buildOwn_nodes_of_one_leaf h hp h1⟩
  case more =>
    obtain ⟨hnnodes, hroot⟩ := buildOwn_of_leaf h hp (by omega)
    exact ⟨hnnodes, hroot, (build_inv h hp).nnodes_le⟩

end Sys2Proof.Machine
end

section
/-! The code table ASSIGN makes (42_code_table_generator.md R130 to R133): which of its three cases applies, by the number of leaves, and
the state it leaves in each. -/

namespace Sys2Proof.Machine

/-! ### ASSIGN by ROOT -/

section assign
variable {s : State} (hp : s.phase = .built)
include hp

/-- ASSIGN is legal in BUILT (R130), so it answers the state its own rule gives. -/
theorem exec_assign : exec .assign s = .next (assignOwn s) :=
  exec_of_mem (i := .assign) (by simp [legalPhases, hp])

/-- With a root, ASSIGN replaces the table by the one it makes of the tree (R131, R132). -/
theorem exec_assign_of_root {r : NodeIdx} (hr : s.root = some r) :
    exec .assign s = .next { s with lut := assignTable s.nodes s.ndist r.toNat, phase := .ready } := by
  rw [exec_assign hp, assignOwn, hr]

/-- With no root, ASSIGN leaves the table (R133). -/
theorem exec_assign_of_no_root (hr : s.root = none) : exec .assign s = .next { s with phase := .ready } := by
  rw [exec_assign hp, assignOwn, hr]

/-- BUILD left a root exactly when there is a leaf (10_state.md R38 item 5). -/
theorem State.Inv.root_isSome_of_built (h : s.Inv) : s.root.isSome = decide (1 ≤ s.ndist) := by
  obtain ⟨-, hroot, -⟩ := h.r38.built hp
  exact hroot

end assign

/-- The table of a tree that is one leaf: its path is empty, so the code `0` stands in its place (R132). -/
theorem assignTable_single_leaf (sym : Byte) (w : Word) (n : Nat) : assignTable [.leaf sym w] n 0 = [⟨sym, [false]⟩] := rfl

/-! ### The obligations -/

/-- Settles O30: ASSIGN writes the table of the tree under ROOT, whose entry `i` is the path to leaf `i` by `assign_spec`. -/
theorem assignWritesPathCodes : Obligations.AssignWritesPathCodes := by
  intro s r h hp hr h2
  obtain ⟨hlength, hentry, -⟩ := assign_spec h hr
  refine ⟨assignTable s.nodes s.ndist r.toNat, exec_assign_of_root hp hr, hlength, fun i hi => ?_⟩
  obtain ⟨c, hc, -, -, hpath⟩ := hentry i hi
  exact ⟨c, hc, hpath h2⟩

/-- Settles O31: one leaf is its own root, in slot 0; no leaf means no root, and the table that was empty in BUILT stays. -/
theorem assignOfOneOrNoSymbol : Obligations.AssignOfOneOrNoSymbol := by
  intro s h hp
  have hroot := h.root_isSome_of_built hp
  refine ⟨fun h1 => ?one, fun h0 => ?none⟩
  case one =>
    obtain ⟨r, hr⟩ := Option.isSome_iff_exists.mp (hroot.trans (decide_eq_true h1.ge))
    rcases h.root_cases hr with ⟨-, rfl, sym, hnodes⟩ | ⟨h2, -⟩
    · have htable : assignTable s.nodes s.ndist (0 : NodeIdx).toNat = [⟨sym, [false]⟩] := by
        rw [hnodes]
        exact assignTable_single_leaf ..
      exact ⟨sym, hnodes, by rw [exec_assign_of_root hp hr, htable]⟩
    · omega
  case none =>
    obtain ⟨-, hlut⟩ := h.lut
    have hnone : s.root = none := by simpa [h0] using hroot
    exact ⟨hlut (.inr (.inr hp)), exec_assign_of_no_root hp hnone⟩

end Sys2Proof.Machine
end

section
/-! The prefix check (43_code_lut.md R154): what each of its two answers says of the table, as an equivalence. -/

namespace Sys2Proof.Machine

section check
variable {lut : List Entry}

/-- Prefix-freeness by indices; the order of the two entries does not matter, since a clash goes both ways. -/
theorem prefixFree_iff_not_prefix :
    PrefixFree lut ↔ ∀ (i j : Nat) (e f : Entry), i ≠ j → lut[i]? = some e → lut[j]? = some f → ¬ e.code <+: f.code := by
  refine ⟨fun h i j e f => h.not_prefix, fun h => List.pairwise_iff_getElem.mpr fun i j hi hj hij => clash_eq_false.mpr ⟨?_, ?_⟩⟩
  · exact h i j _ _ hij.ne (List.getElem?_eq_getElem hi) (List.getElem?_eq_getElem hj)
  · exact h j i _ _ hij.ne' (List.getElem?_eq_getElem hj) (List.getElem?_eq_getElem hi)

/-- The check answers `ok` on the prefix-free tables only: the pair it names otherwise is a collision. -/
theorem prefixCheck_eq_none_iff : prefixCheck lut = none ↔ PrefixFree lut := by
  rcases prefixCheck_spec lut with ⟨hnone, hfree⟩ | ⟨i, j, hsome, hfirst⟩
  · exact iff_of_true hnone hfree
  · exact iff_of_false (by simp [hsome]) hfirst.not_prefixFree

/-- The check names every first collision: there is only one, and a table that has it is not passed. -/
theorem prefixCheck_eq_some_iff {i j : Nat} : prefixCheck lut = some (i, j) ↔ FirstCollision lut i j := by
  refine ⟨prefixCheck_firstCollision, fun hij => ?_⟩
  rcases prefixCheck_spec lut with ⟨-, hfree⟩ | ⟨i', j', hsome, hfirst⟩
  · exact absurd hfree hij.not_prefixFree
  · obtain ⟨rfl, rfl⟩ := hij.unique hfirst
    exact hsome

/-- A collision needs two entries. -/
theorem prefixCheck_of_length_le_one (h : lut.length ≤ 1) : prefixCheck lut = none := by
  refine Option.eq_none_iff_forall_ne_some.mpr fun ⟨i, j⟩ hsome => ?_
  obtain ⟨hij, hj⟩ := (prefixCheck_firstCollision hsome).lt
  omega

end check

/-! ### The obligation -/

/-- Settles O40: `ok` by prefix-freeness, a pair by the uniqueness of the first collision. -/
theorem prefixCheckFindsTheFirstCollision : Obligations.PrefixCheckFindsTheFirstCollision := fun _ =>
  ⟨prefixCheck_eq_none_iff.trans prefixFree_iff_not_prefix, fun _ _ => prefixCheck_eq_some_iff, prefixCheck_of_length_le_one⟩

end Sys2Proof.Machine
end

section
/-! The map parser (45_bit_stream_decoder.md R182 to R187): LDMAP by the answer of the parser step, and the parser step row by row of
R183's table. -/

namespace Sys2Proof.Machine

/-! ### Characters -/

/-- The word of LDMAP (30_encoding.md R82). -/
theorem encode_ldmap (ch : Byte) : encode (.ldmap ch) = 0x20000000 ||| ch.zeroExtend 32 := cmd32_byte 0x20 ch

theorem isSpecial_iff {ch : Byte} : isSpecial ch = true ↔ ch = 0x2C ∨ ch = 0x3A ∨ ch = 0x5C := by
  simp [isSpecial, chComma, chColon, chBackslash, or_assoc]

theorem isSpecial_eq_false {ch : Byte} (h2C : ch ≠ 0x2C) (h3A : ch ≠ 0x3A) (h5C : ch ≠ 0x5C) : isSpecial ch = false :=
  Bool.eq_false_iff.mpr fun h => (isSpecial_iff.mp h).elim h2C fun h => h.elim h3A h5C

/-- `bit(ch)` of a character that is a bit (R183, R189). -/
theorem bitOf_of_bit {ch : Byte} (h : ch = 0x30 ∨ ch = 0x31) : bitOf ch = some (decide (ch = 0x31)) := by
  rcases h with rfl | rfl <;> decide

/-! ### The parser step by PSTATE (R183) -/

section rows
variable {s : State} (ch : Byte)

theorem parseStep_of_start_or_sym (h : s.pstate = .start ∨ s.pstate = .sym) : parseStep ch s = parseSym ch s := by
  rcases h with h | h <;> rw [parseStep, h]

theorem parseStep_of_esc (h : s.pstate = .esc) : parseStep ch s = parseEsc ch s := by rw [parseStep, h]

theorem parseStep_of_colon (h : s.pstate = .colon) : parseStep ch s = parseColon ch s := by rw [parseStep, h]

theorem parseStep_of_code0 (h : s.pstate = .code0) : parseStep ch s = parseCode0 ch s := by rw [parseStep, h]

theorem parseStep_of_code (h : s.pstate = .code) : parseStep ch s = parseCode ch s := by rw [parseStep, h]

end rows

section characters
variable {s : State} {ch : Byte}

/-- A symbol already committed is refused (R185). -/
theorem takeSymbol_of_mem (h : ∃ e ∈ s.lut, e.sym = ch) : takeSymbol ch s = .error .mapfmt := by
  obtain ⟨e, he, hsym⟩ := h
  rcases takeSymbol_cases ch s with ⟨-, herror⟩ | ⟨hnone, -⟩
  · exact herror
  · exact absurd hsym (lookupSym_eq_none.mp hnone e he)

/-- Between entries the escape character opens a symbol of two characters. -/
theorem parseSym_backslash : parseSym 0x5C s = .ok { s with pstate := .esc } := rfl

/-- The other special characters do not stand for themselves. -/
theorem parseSym_of_delimiter (h : ch = 0x2C ∨ ch = 0x3A) : parseSym ch s = .error .mapfmt := by
  rcases h with rfl | rfl <;> rfl

theorem parseSym_of_plain (h : isSpecial ch = false) : parseSym ch s = takeSymbol ch s := by
  have hbackslash : ch ≠ chBackslash := by rintro rfl; exact absurd h (by decide)
  simp [parseSym, hbackslash, h]

theorem parseEsc_of_special (h : isSpecial ch = true) : parseEsc ch s = takeSymbol ch s := if_pos h

theorem parseEsc_of_plain (h : isSpecial ch = false) : parseEsc ch s = .error .mapfmt := by simp [parseEsc, h]

/-- The row of a code's first bit. -/
theorem parseCode0_of_bit {b : Bool} (h : bitOf ch = some b) : parseCode0 ch s = .ok { s with curcode := [b], pstate := .code } := by
  rw [parseCode0, h]

theorem parseCode0_of_other (h : bitOf ch = none) : parseCode0 ch s = .error .mapfmt := by rw [parseCode0, h]

/-- The row of a code's further bits: the 256th is refused (R187). -/
theorem parseCode_of_bit {b : Bool} (h : bitOf ch = some b) :
    parseCode ch s = if s.curcode.length = 255 then .error .capacity else .ok { s with curcode := s.curcode ++ [b] } := by
  rw [parseCode, h]
  rfl

/-- The delimiter commits the entry (R184). -/
theorem parseCode_comma :
    parseCode 0x2C s = .ok { s with lut := s.lut ++ [⟨s.cursym, s.curcode⟩], cursym := 0, curcode := [], pstate := .sym } := by
  rw [parseCode, show bitOf 0x2C = none from rfl, commit_eq]
  rfl

/-- Within a code, every other character is refused. -/
theorem parseCode_of_other (hbit : bitOf ch = none) (hcomma : ch ≠ 0x2C) : parseCode ch s = .error .mapfmt := by
  rw [parseCode, hbit]
  exact if_neg hcomma

end characters

/-! ### LDMAP by the answer of the parser step (R182) -/

section ldmap
variable {s : State} (hp : s.phase = .idle ∨ s.phase = .mapload) {ch : Byte}
include hp

theorem exec_ldmap_of_ok {t : State} (h : parseStep ch s = .ok t) :
    exec (.ldmap ch) s = .next { t with mappos := s.mappos + 1, phase := .mapload } := by
  rw [exec_eq_next, after_ldmap_of_ok hp h]

theorem exec_ldmap_of_error (hs : s.err = none) {e : ErrCode} (h : parseStep ch s = .error e) :
    exec (.ldmap ch) s = .next { s with err := some e, errinfo := 0x20000000 ||| ch.zeroExtend 32, phase := .failed } := by
  rw [exec_eq_next, after_ldmap hp, ldmapOwn, h]
  exact congrArg _ ((raise_of_err_none _ _ _ hs).trans (by rw [encode_ldmap]))

end ldmap

/-! ### The obligation -/

/-- Settles O38: LDMAP does what the parser step answers, and the parser step answers by the rows `parseSym` to `parseCode`. -/
theorem ldmapFollowsTheParserTable : Obligations.LdmapFollowsTheParserTable := by
  intro s ch hs hp bad ok takes
  have hbad {e : ErrCode} : parseStep ch s = .error e → bad e := exec_ldmap_of_error hp hs
  have hok {t : State} : parseStep ch s = .ok t → ok t := exec_ldmap_of_ok hp
  have htakes (h : parseStep ch s = takeSymbol ch s) : takes :=
    ⟨fun hmem => hbad (h.trans (takeSymbol_of_mem hmem)), fun hnew => hok (h.trans (takeSymbol_of_new hnew))⟩
  refine ⟨fun hps => ?sym, fun hps => ?esc, fun hps => ?colon, fun hps => ?code0, fun hps => ?code⟩
  case sym =>
    rw [parseStep_of_start_or_sym ch hps] at hbad hok htakes
    refine ⟨?backslash, fun h => hbad (parseSym_of_delimiter h),
      fun h5C h2C h3A => htakes (parseSym_of_plain (isSpecial_eq_false h2C h3A h5C))⟩
    case backslash => rintro rfl; exact hok parseSym_backslash
  case esc =>
    rw [parseStep_of_esc ch hps] at hbad htakes
    exact ⟨fun h => htakes (parseEsc_of_special (isSpecial_iff.mpr h)),
      fun h2C h3A h5C => hbad (parseEsc_of_plain (isSpecial_eq_false h2C h3A h5C))⟩
  case colon =>
    rw [parseStep_of_colon ch hps] at hbad hok
    exact ⟨fun h => hok (if_pos h), fun h => hbad (if_neg h)⟩
  case code0 =>
    rw [parseStep_of_code0 ch hps] at hbad hok
    refine ⟨?zero, ?one, fun h0 h1 => hbad (parseCode0_of_other (bitOf_eq_none.mpr ⟨h0, h1⟩))⟩
    case zero => rintro rfl; exact hok (parseCode0_of_bit rfl)
    case one => rintro rfl; exact hok (parseCode0_of_bit rfl)
  case code =>
    rw [parseStep_of_code ch hps] at hbad hok
    refine ⟨fun hbit hfull => hbad ((parseCode_of_bit (bitOf_of_bit hbit)).trans (if_pos hfull)),
      fun hbit hroom => hok ((parseCode_of_bit (bitOf_of_bit hbit)).trans (if_neg hroom)), ?comma,
      fun h0 h1 hcomma => hbad (parseCode_of_other (bitOf_eq_none.mpr ⟨h0, h1⟩) hcomma)⟩
    case comma => rintro rfl; exact hok parseCode_comma

end Sys2Proof.Machine
end

section
/-! The decode buffer (45_bit_stream_decoder.md R189 to R192): what BIT does with a bit and with every other character. -/

namespace Sys2Proof.Machine

/-- The word of BIT (30_encoding.md R82). -/
theorem encode_bit (ch : Byte) : encode (.bit ch) = 0x22000000 ||| ch.zeroExtend 32 := cmd32_byte 0x22 ch

/-- In a prefix-free table, looking up an entry's code finds that entry. -/
theorem lookupCode_of_mem {lut : List Entry} (h : PrefixFree lut) {e : Entry} (he : e ∈ lut) : lookupCode lut e.code = some e := by
  cases hl : lookupCode lut e.code with
  | none => exact absurd rfl (lookupCode_eq_none.mp hl e he)
  | some f =>
    obtain ⟨hf, hcode⟩ := lookupCode_mem hl
    exact congrArg some (h.eq_of_prefix hf he (hcode ▸ List.prefix_refl _))

section rule
variable {s : State} {ch : Byte}

theorem bitOwn_of_not_bit (h : bitOf ch = none) : bitOwn ch s = raise .bitseq (encode (.bit ch)) s := by rw [bitOwn, h]

variable {b : Bool} (hb : bitOf ch = some b)
include hb

/-- A bit past `CODE_LEN_MAX` unmatched ones is refused (R191). -/
theorem bitOwn_of_full (hfull : s.buf.length = 255) : bitOwn ch s = raise .bitseq (encode (.bit ch)) s := by
  rw [bitOwn, hb]
  exact if_pos hfull

variable (hroom : s.buf.length ≠ 255)
include hroom

/-- A bit that completes a code emits its symbol and empties the buffer (R189). -/
theorem bitOwn_of_match {e : Entry} (he : lookupCode s.lut (s.buf ++ [b]) = some e) :
    bitOwn ch s = { s with textOut := s.textOut ++ [e.sym], buf := [] } := by
  simp [bitOwn, hb, Config.codeLenMax, hroom, he]

/-- A bit that completes no code stays in the buffer (R189). -/
theorem bitOwn_of_no_match (he : lookupCode s.lut (s.buf ++ [b]) = none) : bitOwn ch s = { s with buf := s.buf ++ [b] } := by
  simp [bitOwn, hb, Config.codeLenMax, hroom, he]

end rule

/-- Settles O42: BIT by its own rule; where the buffer is an entry's code, the lookup finds that entry, since the table in READY is
prefix-free. -/
theorem bitConsumesOneBit : Obligations.BitConsumesOneBit := by
  intro s ch h hp bad buf
  have hexec : exec (.bit ch) s = .next (bitOwn ch s) := by rw [exec_eq_next, after_bit hp]
  have hbad (hraise : bitOwn ch s = raise .bitseq (encode (.bit ch)) s) : bad := by
    have herr : s.err = none := h.err_eq_none (by simp [hp])
    exact hexec.trans (by rw [hraise, raise_of_err_none _ _ _ herr, encode_bit])
  refine ⟨fun h0 h1 => hbad (bitOwn_of_not_bit (bitOf_eq_none.mpr ⟨h0, h1⟩)),
    fun hbit hfull => hbad (bitOwn_of_full (bitOf_of_bit hbit) hfull),
    fun hbit hroom => ⟨fun e he hcode => ?emits, fun hnone => ?keeps⟩⟩
  case emits =>
    have hlookup : lookupCode s.lut buf = some e := hcode ▸ lookupCode_of_mem (h.prefixFree (.inl hp)) he
    rw [hexec, bitOwn_of_match (bitOf_of_bit hbit) hroom hlookup]
  case keeps => rw [hexec, bitOwn_of_no_match (bitOf_of_bit hbit) hroom (lookupCode_eq_none.mpr hnone)]

end Sys2Proof.Machine
end

section
/-! What the decoder cannot do (45_bit_stream_decoder.md R196): which commands can change the table, append to TEXTOUT or end in DONE. -/

namespace Sys2Proof.Machine

section frames
variable (s : State)

/-- The parser writes no output. -/
theorem ldmapOwn_textOut (ch : Byte) : (ldmapOwn ch s).textOut = s.textOut := by
  rcases ldmapOwn_cases ch s with ⟨e, -, h⟩ | ⟨t, ht, h⟩ <;> rw [h]
  · exact raise_textOut ..
  · rcases parseStep_ok ht with ⟨-, -, rfl⟩ | ⟨-, -, rfl⟩ | ⟨-, -, rfl⟩ | ⟨b, -, ⟨-, rfl⟩ | ⟨-, -, rfl⟩⟩ | ⟨-, -, rfl⟩ <;> rfl

theorem finishMap_textOut : (finishMap s).textOut = s.textOut := by
  rcases finishMap_cases s with ⟨-, h⟩ | ⟨i, j, -, h⟩ <;> rw [h]
  exact raise_textOut ..

theorem endmapOwn_textOut : (endmapOwn s).textOut = s.textOut := by
  rcases endmapOwn_cases s with ⟨-, h⟩ | ⟨-, h⟩ | ⟨-, -, h⟩ <;> rw [h]
  · exact finishMap_textOut s
  · exact finishMap_textOut _
  · exact raise_textOut ..

theorem bitOwn_lut (ch : Byte) : (bitOwn ch s).lut = s.lut := by
  rcases bitOwn_cases ch s with ⟨-, h⟩ | ⟨b, -, -, ⟨e, -, h⟩ | ⟨-, h⟩⟩ <;> rw [h]
  exact raise_lut ..

/-- A symbol BIT emits is that of the entry the lookup found. -/
theorem bitOwn_textOut (ch : Byte) :
    (bitOwn ch s).textOut = s.textOut ∨ ∃ e ∈ s.lut, (bitOwn ch s).textOut = s.textOut ++ [e.sym] := by
  rcases bitOwn_cases ch s with ⟨-, h⟩ | ⟨b, -, -, ⟨e, he, h⟩ | ⟨-, h⟩⟩ <;> rw [h]
  · exact .inl (raise_textOut ..)
  · exact .inr ⟨e, (lookupCode_mem he).1, rfl⟩
  · exact .inl rfl

theorem packOwn_frame (sym : Byte) : (packOwn sym s).lut = s.lut ∧ (packOwn sym s).textOut = s.textOut := by
  rcases packOwn_cases sym s with ⟨-, h⟩ | ⟨e, -, h⟩ <;> simp [h]

theorem freqOwn_textOut (sym : Byte) : (freqOwn sym s).textOut = s.textOut := by
  rcases freqOwn_cases sym s with ⟨-, h⟩ | ⟨-, h⟩ <;> simp [h]

theorem assignOwn_textOut : (assignOwn s).textOut = s.textOut := by
  rcases assignOwn_cases s with ⟨-, h⟩ | ⟨r, -, h⟩ <;> rw [h]

theorem enddataOwn_frame : (enddataOwn s).lut = s.lut ∧ (enddataOwn s).textOut = s.textOut := by
  rcases enddataOwn_cases s with ⟨-, h⟩ | ⟨-, h⟩ <;> simp [h]

end frames

/-! ### The three parts of R196, for a command's own rule -/

/-- From READY on, CLR is the only legal command whose rule writes the table. -/
theorem own_lut_of_decoding {i : Instr} {s : State} (hp : s.phase = .ready ∨ s.phase = .done ∨ s.phase = .failed)
    (hi : s.phase ∈ legalPhases i) (hclr : i ≠ .clr) : (own i s).lut = s.lut := by
  cases i with
  | nop | sermap | rdreg => rfl
  | clr => exact absurd rfl hclr
  | pack sym => exact (packOwn_frame s sym).1
  | bit ch => exact bitOwn_lut s ch
  | enddata => exact (enddataOwn_frame s).1
  | freq | build | assign | ldmap | endmap => rcases hp with hp | hp | hp <;> simp [hp, legalPhases] at hi

/-- Every rule but BIT's leaves TEXTOUT. -/
theorem own_textOut (i : Instr) (s : State) :
    (own i s).textOut = s.textOut ∨ ∃ e ∈ s.lut, (own i s).textOut = s.textOut ++ [e.sym] := by
  cases i with
  | bit ch => exact bitOwn_textOut s ch
  | nop | clr | build | sermap | rdreg => exact .inl rfl
  | freq sym => exact .inl (freqOwn_textOut s sym)
  | assign => exact .inl (assignOwn_textOut s)
  | pack sym => exact .inl (packOwn_frame s sym).2
  | ldmap ch => exact .inl (ldmapOwn_textOut s ch)
  | endmap => exact .inl (endmapOwn_textOut s)
  | enddata => exact .inl (enddataOwn_frame s).2

theorem phaseAfter_eq_done {i : Instr} {p : Phase} (h : phaseAfter i p = .done) : p = .done ∨ i = .enddata := by
  cases i <;> simp_all [phaseAfter]

/-- The move into DONE is ENDDATA's. -/
theorem eq_enddata_of_own_phase_done {i : Instr} {s : State} (hi : s.phase ∈ legalPhases i) (hdone : (own i s).phase = .done)
    (hs : s.phase ≠ .done) : i = .enddata := by
  rcases own_outcome i s with ⟨-, hphase⟩ | ⟨-, hclear⟩ | ⟨e, u, hraise, -⟩ | ⟨-, hill⟩
  · exact (phaseAfter_eq_done (hphase ▸ hdone)).resolve_left hs
  · simp [hclear] at hdone
  · simp [hraise] at hdone
  · exact absurd hi hill

/-- ENDDATA moves to DONE from an empty buffer only, and leaves it (R193). -/
theorem enddataOwn_of_done {s : State} (hdone : (enddataOwn s).phase = .done) : s.buf = [] ∧ (enddataOwn s).buf = [] := by
  rcases enddataOwn_cases s with ⟨hbuf, h⟩ | ⟨-, h⟩
  · rw [h]
    exact ⟨hbuf, hbuf⟩
  · simp [h] at hdone

/-! ### The obligation -/

/-- Settles O45: out of its phases a command only raises E_SEQ, which keeps the table and TEXTOUT and ends in FAILED; in them, the
three parts for its own rule. -/
theorem decoderNeverInvents : Obligations.DecoderNeverInvents := by
  intro i s t hexec
  obtain rfl := exec_next_iff.mp hexec
  by_cases hi : s.phase ∈ legalPhases i
  · rw [after_of_mem hi]
    refine ⟨fun hp hclr => own_lut_of_decoding hp hi hclr, own_textOut i s, fun hdone hs => ?_⟩
    obtain rfl := eq_enddata_of_own_phase_done hi hdone hs
    exact enddataOwn_of_done hdone
  · rw [after_of_not_mem hi]
    exact ⟨fun _ _ => raise_lut .., .inl (raise_textOut ..), fun hdone => by simp at hdone⟩

end Sys2Proof.Machine
end

section
/-! The encoder and the decoder undo each other (30_encoding.md R80 to R83): a command's word decodes to it, no other word does, and the
words that decode are the well-formed ones and those that select a row of the opcode map. -/

namespace Sys2Proof

/-! ### The operand checks -/

theorem noOperand_eq_ok_iff {arg : Addr} {i j : Instr} : noOperand arg i = .ok j ↔ arg = 0 ∧ i = j := by
  unfold noOperand; split_ifs <;> simp_all

theorem byteOperand_eq_ok_iff {arg : Addr} {f : Byte → Instr} {j : Instr} :
    byteOperand arg f = .ok j ↔ arg.extractLsb' 8 8 = 0 ∧ f (arg.extractLsb' 0 8) = j := by
  unfold byteOperand; split_ifs <;> simp_all

/-- A symbol or a character is read back from the low byte of `arg` (R81). -/
theorem byteOperand_zeroByte (b : Byte) (f : Byte → Instr) : byteOperand (0#8 ++ b) f = .ok (f b) :=
  byteOperand_eq_ok_iff.mpr ⟨hi_zeroByte b, by rw [lo_zeroByte]⟩

/-! ### Encoding after decoding -/

/-- The operand part of the decoder, undone by the encoder: in every row of R82, `arg` is the operand `encode` writes. -/
theorem encode_of_decodeOperand {op : Byte} {arg : Addr} {i : Instr} (h : decodeOperand op arg = .ok i) : encode i = cmd32 op arg := by
  have row {n : Nat} (hop : op.toNat = n) : op = BitVec.ofNat 8 n := by rw [← hop, BitVec.ofNat_toNat, BitVec.setWidth_eq]
  unfold decodeOperand at h
  split at h
  case h_1 hop | h_2 hop | h_4 hop | h_5 hop | h_6 hop | h_9 hop | h_11 hop => -- no operand
    obtain ⟨rfl, rfl⟩ := noOperand_eq_ok_iff.mp h
    rw [row hop]
    rfl
  case h_3 hop | h_7 hop | h_8 hop | h_10 hop => -- a symbol or a character
    obtain ⟨hhi, rfl⟩ := byteOperand_eq_ok_iff.mp h
    rw [row hop, encode, zeroByte_lo _ hhi]
    rfl
  case h_12 hop => -- an address
    cases h
    rw [row hop]
    rfl
  case h_13 => cases h

/-- Settles O2: the fields of the word are the command's own, and a word with `rsv` 0 is its fields. -/
theorem encodeOfDecode : Obligations.EncodeOfDecode := by
  intro w i h
  obtain ⟨hrsv, hoperand⟩ := decode_eq_some h
  rw [encode_of_decodeOperand hoperand, cmd32_fields w hrsv]

/-! ### Decoding after encoding -/

/-- A word decodes to what its operand part decodes to. -/
theorem decode_cmd32_of_operand {op : Byte} {arg : Addr} {i : Instr} (h : decodeOperand op arg = .ok i) :
    decode (cmd32 op arg) = some i := by
  rw [decode_cmd32, h]; rfl

/-- Settles O1: the word of every command has `rsv` 0, its own opcode, and its operand where the decoder reads it. -/
theorem decodeOfEncode : Obligations.DecodeOfEncode := by
  intro i
  cases i with
  | nop | clr | build | assign | sermap | endmap | enddata | rdreg => exact decode_cmd32_of_operand rfl
  | freq b | pack b | ldmap b | bit b => exact decode_cmd32_of_operand (byteOperand_zeroByte b _)

/-! ### The words that decode -/

/-- Every command's word passes the checks and selects its row. -/
theorem encodesInItsRow (i : Instr) : Laws.EncodesInItsRow.Statement i := by
  cases i with
  | nop => exact Laws.EncodesInItsRow.nop
  | clr => exact Laws.EncodesInItsRow.clr
  | freq y => exact Laws.EncodesInItsRow.freq y
  | build => exact Laws.EncodesInItsRow.build
  | assign => exact Laws.EncodesInItsRow.assign
  | sermap => exact Laws.EncodesInItsRow.sermap
  | pack y => exact Laws.EncodesInItsRow.pack y
  | ldmap c => exact Laws.EncodesInItsRow.ldmap c
  | endmap => exact Laws.EncodesInItsRow.endmap
  | bit c => exact Laws.EncodesInItsRow.bit c
  | enddata => exact Laws.EncodesInItsRow.enddata
  | rdreg a => exact Laws.EncodesInItsRow.rdreg a

/-- A well-formed word decodes: its opcode has a row, and the row's operand check passes. -/
theorem decode_isSome_of_wellFormedWord {w : Word} (h : wellFormedWord w = true) : (decode w).isSome = true := by
  simp only [wellFormedWord, Bool.and_eq_true, opKnown, rsvZero, operandOk, beq_iff_eq] at h
  obtain ⟨⟨hop, hrsv⟩, hoperand⟩ := h
  have hhi : (argField w).extractLsb' 8 8 = w.extractLsb' 8 8 := BitVec.extractLsb'_extractLsb'_of_le (by decide)
  rw [show w.extractLsb' 24 8 = opField w from rfl] at hop hoperand
  rw [decode_of_rsvField_eq_zero hrsv]
  unfold decodeOperand
  split
  case h_13 => -- an `op` of no row
    unfold operandKindOf at hop
    split at hop <;> simp_all
  case h_12 => rfl
  all_goals simp_all [operandKindOf, toOption_noOperand, toOption_byteOperand, argField]

/-- A word that selects the row of a command with a symbol or a character decodes. -/
theorem decode_isSome_of_byteRow {w : Word} (op : Byte) (p : Word) (hp : cmd32 op 0 = p) (f : Byte → Instr)
    (hop : ∀ arg, decodeOperand op arg = byteOperand arg f) (h : w &&& 0xFFFFFF00 = p) : (decode w).isSome = true := by
  obtain ⟨hopcode, hrsv, hhi⟩ := (and_byteMask_eq_pattern_iff op p hp).mp h
  rw [decode_of_rsvField_eq_zero hrsv, BitVec.eq_of_toNat_eq hopcode, hop, toOption_byteOperand, if_pos hhi]
  rfl

/-- A word that selects RDREG's row decodes. -/
theorem decode_isSome_of_addrRow {w : Word} (h : w &&& 0xFFFF0000 = 0x30000000) : (decode w).isSome = true := by
  obtain ⟨hopcode, hrsv⟩ := (and_addrMask_eq_pattern_iff 0x30 _ rfl).mp h
  rw [decode_of_rsvField_eq_zero hrsv, BitVec.eq_of_toNat_eq hopcode]
  rfl

/-- A word that selects a row of the opcode map decodes. -/
theorem decode_isSome_of_selects {w : Word} {r : OpcodeRow} (hr : r ∈ opcodeMap) (h : r.selects w = true) :
    (decode w).isSome = true := by
  have hplain {p : Word} (hp : (decode p).isSome = true) (h : w &&& 0xFFFFFFFF = p) : (decode w).isSome = true := by
    rw [show w = p from BitVec.and_allOnes.symm.trans h]
    exact hp
  replace h : w &&& r.mask = r.pattern := eq_of_beq h
  simp only [opcodeMap, List.mem_cons, List.not_mem_nil, or_false] at hr
  rcases hr with rfl | rfl | rfl | rfl | rfl | rfl | rfl | rfl | rfl | rfl | rfl | rfl
  · exact hplain rfl h
  · exact hplain rfl h
  · exact decode_isSome_of_byteRow 0x10 _ rfl .freq (fun _ => rfl) h
  · exact hplain rfl h
  · exact hplain rfl h
  · exact hplain rfl h
  · exact decode_isSome_of_byteRow 0x14 _ rfl .pack (fun _ => rfl) h
  · exact decode_isSome_of_byteRow 0x20 _ rfl .ldmap (fun _ => rfl) h
  · exact hplain rfl h
  · exact decode_isSome_of_byteRow 0x22 _ rfl .bit (fun _ => rfl) h
  · exact hplain rfl h
  · exact decode_isSome_of_addrRow h

/-- Settles O4: a word that decodes is its command's own word, which passes the checks and selects a row; a word that does either
decodes. -/
theorem decodeAcceptsExactlyWellFormedWords : Obligations.DecodeAcceptsExactlyWellFormedWords := by
  intro w
  have hown (h : (decode w).isSome = true) : wellFormedWord w = true ∧ opcodeMap.any (fun r => r.selects w) = true := by
    obtain ⟨i, hi⟩ := Option.isSome_iff_exists.mp h
    obtain ⟨hwf, r, hr, -, hsel⟩ := encodesInItsRow i
    rw [encodeOfDecode w i hi] at hwf hsel
    exact ⟨hwf, List.any_eq_true.mpr ⟨r, hr, hsel⟩⟩
  refine ⟨Bool.eq_iff_iff.mpr ⟨fun h => (hown h).1, decode_isSome_of_wellFormedWord⟩,
    Bool.eq_iff_iff.mpr ⟨fun h => (hown h).2, fun h => ?_⟩⟩
  obtain ⟨r, hr, hsel⟩ := List.any_eq_true.mp h
  exact decode_isSome_of_selects hr hsel

end Sys2Proof
end

section
/-! One step by what is presented next (40_control.md R104; 70_reset_and_hazards.md R240): a command, an illegal word, a reset pulse or
nothing. -/

namespace Sys2Proof.Machine

section step
variable {s : State}

theorem step_of_no_input (h : s.input = []) : step s = .next s := by rw [step, h]

variable {w : Word} {rest : List HostEvent}

theorem step_of_decode {i : Instr} (h : s.input = .cmd w :: rest) (hi : decode w = some i) :
    step s = exec i { s with input := rest } := by
  rw [step, h]
  simp only [execWord, hi]

theorem step_of_illegal (h : s.input = .cmd w :: rest) (hw : decode w = none) :
    step s = .next (raise .illcmd w { s with input := rest }) := by
  rw [step, h]
  simp only [execWord, hw, illegalWord]

theorem step_of_rst (h : s.input = .rst :: rest) : step s = .next (resetState { s with input := rest }) := by rw [step, h]

end step

/-- Settles O6: the step takes the word and executes what it decodes to. -/
theorem stepExecutesTheDecodedCommand : Obligations.StepExecutesTheDecodedCommand := fun _ _ _ _ => step_of_decode

/-- Settles O10. -/
theorem stepWaitsWhenNothingIsPresented : Obligations.StepWaitsWhenNothingIsPresented := fun _ => step_of_no_input

/-- Settles O9: a reset sets every field but `input`; CLR is legal in every phase and leaves the output lists besides. -/
theorem resetPulseIsClrPlusEmptyOutputs : Obligations.ResetPulseIsClrPlusEmptyOutputs := fun s _ h =>
  ⟨step_of_rst h, clearState s, exec_of_legal (i := .clr) rfl, rfl⟩

/-- Settles O11: each of the four things that can be presented, nothing included, has its next state. -/
theorem stepAlwaysAnswersNext : Obligations.StepAlwaysAnswersNext := by
  intro s
  match h : s.input with
  | [] => exact ⟨_, step_of_no_input h⟩
  | .rst :: rest => exact ⟨_, step_of_rst h⟩
  | .cmd w :: rest =>
    cases hw : decode w with
    | none => exact ⟨_, step_of_illegal h hw⟩
    | some i => exact ⟨_, (step_of_decode h hw).trans (exec_eq_next i _)⟩

/-- A word that no row of the opcode map matches does not decode. -/
theorem decode_eq_none_of_no_row {w : Word} (h : ∀ r ∈ opcodeMap, w &&& r.mask ≠ r.pattern) : decode w = none := by
  rw [← Option.isSome_eq_false_iff.trans Option.isNone_iff_eq_none, (decodeAcceptsExactlyWellFormedWords w).2, List.any_eq_false]
  exact fun r hr hsel => h r hr (eq_of_beq hsel)

/-- Settles O7: the word does not decode, so the step is `raise .illcmd`, by whether an error was recorded before. -/
theorem illegalWordRaisesIllcmd : Obligations.IllegalWordRaisesIllcmd := by
  intro s w rest h hrows
  have hstep := step_of_illegal h (decode_eq_none_of_no_row hrows)
  exact ⟨fun herr => hstep.trans (congrArg _ (raise_of_err_none _ _ _ herr)),
    fun herr => hstep.trans (congrArg _ (raise_of_err_some _ _ _ herr))⟩

end Sys2Proof.Machine
end

section
/-! The invariant along every run (10_state.md R38): what each command's own rule keeps, then every command, then every step, then every
run. -/

namespace Sys2Proof.Machine

/-! ### Commands -/

/-- A command in one of its phases keeps the invariant. -/
theorem State.Inv.own {s : State} (h : s.Inv) {i : Instr} (hi : s.phase ∈ legalPhases i) : (own i s).Inv := by
  cases i with
  | nop => exact h
  | clr => exact clearState_inv s
  | freq y => exact freq_inv h (by simpa [legalPhases] using hi) y
  | build => exact build_inv h (by simpa [legalPhases] using hi)
  | assign => exact assign_inv h (by simpa [legalPhases] using hi)
  | sermap => exact h.outputs _ s.dataOut s.textOut s.rsp s.input
  | pack y => exact pack_inv h y
  | ldmap c => exact ldmap_inv h (by simpa [legalPhases] using hi) c
  | endmap => exact endmap_inv h (by simpa [legalPhases] using hi)
  | bit c => exact bit_inv h (by simpa [legalPhases] using hi) c
  | enddata => exact enddata_inv h (by simpa [legalPhases] using hi)
  | rdreg a => exact h.outputs s.mapOut s.dataOut s.textOut _ s.input

/-- Every command keeps the invariant, in whatever phase it comes: out of its phases it only raises E_SEQ. -/
theorem State.Inv.after {s : State} (h : s.Inv) (i : Instr) : (after i s).Inv := by
  by_cases hi : s.phase ∈ legalPhases i
  · rw [after_of_mem hi]; exact h.own hi
  · rw [after_of_not_mem hi]; exact h.raise _ _

theorem State.Inv.afterAll {s : State} (h : s.Inv) (is : List Instr) : (afterAll is s).Inv := by
  induction is generalizing s with
  | nil => exact h
  | cons i is ih => exact ih (h.after i)

/-- The invariant does not speak of what the host has yet to present. -/
theorem State.Inv.with_input {s : State} (h : s.Inv) (l : List HostEvent) : ({ s with input := l } : State).Inv :=
  h.outputs s.mapOut s.dataOut s.textOut s.rsp l

/-- Of the commands that raise nothing, NOP and RDREG alone can end in FAILED, by staying there (40_control.md R103). -/
theorem phaseAfter_eq_failed {i : Instr} {p : Phase} (h : phaseAfter i p = .failed) : i = .nop ∨ ∃ a, i = .rdreg a := by
  cases i <;> simp_all [phaseAfter]

/-- A command that ends in FAILED has left BUF as it was (10_state.md R38 item 8): raising does not touch it, ENDMAP clears it only
where it moves to READY, and CLR ends in IDLE. -/
theorem after_buf_of_failed {i : Instr} {s : State} (hf : (after i s).phase = .failed) : (after i s).buf = s.buf := by
  by_cases hi : s.phase ∈ legalPhases i
  case neg => rw [after_of_not_mem hi]; exact raise_buf ..
  rw [after_of_mem hi] at hf ⊢
  rcases own_outcome i s with ⟨-, hphase⟩ | ⟨-, hclear⟩ | ⟨e, u, hraise, -, -, rfl | ⟨-, -, hu⟩⟩ | ⟨-, hill⟩
  · rcases phaseAfter_eq_failed (hphase.symm.trans hf) with rfl | ⟨a, rfl⟩ <;> rfl
  · rw [hclear] at hf; cases hf
  · rw [hraise]; exact raise_buf ..
  · rw [hraise, hu]; exact raise_buf ..
  · exact absurd hi hill

/-! ### Steps and runs -/

/-- Settles O53: reset is a reset of any state. -/
theorem resetMeetsTheInvariant : Obligations.ResetMeetsTheInvariant := resetState_inv State.reset

/-- Settles O54: by what is presented; the commands by `State.Inv.after`, an illegal word as any error. -/
theorem stepKeepsTheInvariant : Obligations.StepKeepsTheInvariant := by
  intro s t h hstep
  rcases step_cases hstep with ⟨-, rfl⟩ | ⟨w, rest, i, -, -, rfl⟩ | ⟨w, rest, -, -, rfl⟩ | ⟨rest, -, rfl⟩
  · exact ⟨h, fun _ => rfl⟩
  · exact ⟨(h.with_input rest).after i, after_buf_of_failed⟩
  · exact ⟨(h.with_input rest).raise _ _, fun _ => raise_buf ..⟩
  · exact ⟨resetState_inv _, fun hf => by cases hf⟩

/-- What holds of a state and is kept by every step holds after every run, which always answers a next state. -/
theorem run_induction {P : State → Prop} (hP : ∀ s t, P s → step s = .next t → P t) (k : Nat) {s : State} (hs : P s) :
    ∃ t, Host.Core.run Sys2Proof.core k s = .next t ∧ P t := by
  induction k generalizing s with
  | zero => exact ⟨s, rfl, hs⟩
  | succ k ih =>
    obtain ⟨t, hstep⟩ := stepAlwaysAnswersNext s
    rw [run_of_step hstep]
    exact ih (hP s t hs hstep)

/-- Settles O55: the invariant holds at reset, whatever is presented, and every step keeps it. -/
theorem reachableStatesMeetR38 : Obligations.ReachableStatesMeetR38 := by
  intro events k
  obtain ⟨t, hrun, ht⟩ := run_induction (P := State.Inv) (fun s t hs hstep => (stepKeepsTheInvariant s t hs hstep).1) k
    (resetMeetsTheInvariant.with_input events)
  exact ⟨t, hrun, ht.r38⟩

/-- An LDMAP that is accepted raises nothing, and one that is not leaves MAPPOS (45_bit_stream_decoder.md R182). -/
theorem ldmapOwn_mappos (ch : Byte) (s : State) :
    ((ldmapOwn ch s).err ≠ none ∧ (ldmapOwn ch s).mappos = s.mappos) ∨
    ((ldmapOwn ch s).err = s.err ∧ (ldmapOwn ch s).mappos = s.mappos + 1) := by
  rcases ldmapOwn_cases ch s with ⟨e, -, h⟩ | ⟨t, ht, h⟩ <;> rw [h]
  · exact .inl ⟨raise_err_ne_none _ _ _, raise_mappos ..⟩
  · refine .inr ⟨?_, rfl⟩
    rcases parseStep_ok ht with ⟨-, -, rfl⟩ | ⟨-, -, rfl⟩ | ⟨-, -, rfl⟩ | ⟨b, -, ⟨-, rfl⟩ | ⟨-, -, rfl⟩⟩ | ⟨-, -, rfl⟩ <;> rfl

/-- Settles O56: the bound is the longest map's, and leaves room for one more character. -/
theorem mapposDoesNotOverflow : Obligations.MapposDoesNotOverflow := by
  intro s h
  refine ⟨h.mappos_le, fun ch t hs hexec => ?_⟩
  obtain rfl := exec_next_iff.mp hexec
  by_cases hi : s.phase ∈ legalPhases (.ldmap ch)
  · rw [after_of_mem hi]
    rcases ldmapOwn_mappos ch s with ⟨herr, hpos⟩ | ⟨herr, hpos⟩
    · exact ⟨fun hnone => absurd hnone herr, fun _ => hpos⟩
    · exact ⟨fun _ => (congrArg _ hpos).trans h.mappos_succ, fun hne => absurd (herr.trans hs) hne⟩
  · rw [after_of_not_mem hi]
    exact ⟨fun hnone => absurd hnone (raise_err_ne_none _ _ _), fun _ => raise_mappos ..⟩

end Sys2Proof.Machine
end

section
/-! What each command's own rule leaves unchanged, one equation a rule: the state it answers is the state before it but for the fields
named. A field that is not named is read off with `congrArg`. -/

namespace Sys2Proof.Machine

section frames
variable (s : State)

theorem raise_frame_eq (e : ErrCode) (w : Word) :
    raise e w s = { s with phase := .failed, err := (raise e w s).err, errinfo := (raise e w s).errinfo } := by
  unfold raise; split <;> rfl

theorem freqOwn_frame_eq (y : Byte) : freqOwn y s =
    { s with nodes := (freqOwn y s).nodes, total := (freqOwn y s).total, phase := (freqOwn y s).phase,
             err := (freqOwn y s).err, errinfo := (freqOwn y s).errinfo } := by
  rcases freqOwn_cases y s with ⟨-, h⟩ | ⟨-, h⟩ <;> rw [h]
  rw [raise_frame_eq]

theorem assignOwn_frame_eq : assignOwn s = { s with lut := (assignOwn s).lut, phase := .ready } := by
  rcases assignOwn_cases s with ⟨-, h⟩ | ⟨r, -, h⟩ <;> rw [h]

theorem packOwn_frame_eq (y : Byte) : packOwn y s =
    { s with dataOut := (packOwn y s).dataOut, phase := (packOwn y s).phase, err := (packOwn y s).err,
             errinfo := (packOwn y s).errinfo } := by
  rcases packOwn_cases y s with ⟨-, h⟩ | ⟨e, -, h⟩ <;> rw [h]
  rw [raise_frame_eq]

theorem ldmapOwn_frame_eq (ch : Byte) : ldmapOwn ch s =
    { s with pstate := (ldmapOwn ch s).pstate, lut := (ldmapOwn ch s).lut, cursym := (ldmapOwn ch s).cursym,
             curcode := (ldmapOwn ch s).curcode, mappos := (ldmapOwn ch s).mappos, phase := (ldmapOwn ch s).phase,
             err := (ldmapOwn ch s).err, errinfo := (ldmapOwn ch s).errinfo } := by
  rcases ldmapOwn_cases ch s with ⟨e, -, h⟩ | ⟨t, ht, h⟩ <;> rw [h]
  · rw [raise_frame_eq]
  · rcases parseStep_ok ht with ⟨-, -, rfl⟩ | ⟨-, -, rfl⟩ | ⟨-, -, rfl⟩ | ⟨b, -, ⟨-, rfl⟩ | ⟨-, -, rfl⟩⟩ | ⟨-, -, rfl⟩ <;> rfl

theorem finishMap_frame_eq : finishMap s =
    { s with pstate := .start, buf := (finishMap s).buf, collide := (finishMap s).collide, phase := (finishMap s).phase,
             err := (finishMap s).err, errinfo := (finishMap s).errinfo } := by
  rcases finishMap_cases s with ⟨-, h⟩ | ⟨i, j, -, h⟩ <;> rw [h]
  rw [raise_frame_eq]

theorem endmapOwn_frame_eq : endmapOwn s =
    { s with pstate := (endmapOwn s).pstate, lut := (endmapOwn s).lut, cursym := (endmapOwn s).cursym,
             curcode := (endmapOwn s).curcode, buf := (endmapOwn s).buf, collide := (endmapOwn s).collide,
             phase := (endmapOwn s).phase, err := (endmapOwn s).err, errinfo := (endmapOwn s).errinfo } := by
  rcases endmapOwn_cases s with ⟨-, h⟩ | ⟨-, h⟩ | ⟨-, -, h⟩ <;> rw [h]
  · rw [finishMap_frame_eq]
  · rw [finishMap_frame_eq]
  · rw [raise_frame_eq]

theorem bitOwn_frame_eq (ch : Byte) : bitOwn ch s =
    { s with textOut := (bitOwn ch s).textOut, buf := (bitOwn ch s).buf, phase := (bitOwn ch s).phase,
             err := (bitOwn ch s).err, errinfo := (bitOwn ch s).errinfo } := by
  rcases bitOwn_cases ch s with ⟨-, h⟩ | ⟨b, -, -, ⟨e, -, h⟩ | ⟨-, h⟩⟩ <;> rw [h]
  rw [raise_frame_eq]

theorem enddataOwn_frame_eq : enddataOwn s =
    { s with phase := (enddataOwn s).phase, err := (enddataOwn s).err, errinfo := (enddataOwn s).errinfo } := by
  rcases enddataOwn_cases s with ⟨-, h⟩ | ⟨-, h⟩ <;> rw [h]
  rw [raise_frame_eq]

end frames

/-! ### The arena (41_tree_builder.md R120) -/

/-- From BUILT on, no legal command but CLR writes the arena, ROOT or TOTAL. -/
theorem own_arena_of_built {i : Instr} {s : State} (hp : s.phase = .built ∨ s.phase = .ready ∨ s.phase = .done ∨ s.phase = .failed)
    (hi : s.phase ∈ legalPhases i) (hclr : i ≠ .clr) :
    (own i s).nodes = s.nodes ∧ (own i s).root = s.root ∧ (own i s).total = s.total := by
  cases i with
  | nop | sermap | rdreg => exact ⟨rfl, rfl, rfl⟩
  | clr => exact absurd rfl hclr
  | assign => rw [own, assignOwn_frame_eq]; exact ⟨rfl, rfl, rfl⟩
  | pack y => rw [own, packOwn_frame_eq]; exact ⟨rfl, rfl, rfl⟩
  | bit ch => rw [own, bitOwn_frame_eq]; exact ⟨rfl, rfl, rfl⟩
  | enddata => rw [own, enddataOwn_frame_eq]; exact ⟨rfl, rfl, rfl⟩
  | freq | build | ldmap | endmap => rcases hp with hp | hp | hp | hp <;> simp [hp, legalPhases] at hi

/-- Settles O29: out of its phases a command only raises E_SEQ; in them, its own rule. -/
theorem arenaFrozenOnceBuilt : Obligations.ArenaFrozenOnceBuilt := by
  intro i s t hp hclr hexec
  obtain rfl := exec_next_iff.mp hexec
  have harena : (after i s).nodes = s.nodes ∧ (after i s).root = s.root ∧ (after i s).total = s.total := by
    by_cases hi : s.phase ∈ legalPhases i
    · rw [after_of_mem hi]; exact own_arena_of_built hp hi hclr
    · rw [after_of_not_mem hi]; exact ⟨raise_nodes .., raise_root .., raise_total ..⟩
  obtain ⟨hnodes, hroot, htotal⟩ := harena
  exact ⟨hnodes, congrArg leafCount hnodes, congrArg List.length hnodes, hroot, htotal⟩

/-! ### The output lists (10_state.md R34) -/

/-- The characters of a code are bits (00_scope.md R10). -/
theorem mem_str {c : Code} {ch : Byte} (h : ch ∈ str c) : ch = 0x30 ∨ ch = 0x31 := by
  obtain ⟨b, -, rfl⟩ := List.mem_map.mp h
  cases b
  · exact .inl rfl
  · exact .inr rfl

/-- The command appends to the output lists, and to none but its own. -/
def AppendsOwn (i : Instr) (s t : State) : Prop :=
  ∃ m d x r, t.mapOut = s.mapOut ++ m ∧ t.dataOut = s.dataOut ++ d ∧ t.textOut = s.textOut ++ x ∧ t.rsp = s.rsp ++ r ∧
    (i ≠ .sermap → m = []) ∧ ((∀ y, i ≠ .pack y) → d = []) ∧ (∀ c ∈ d, c = 0x30 ∨ c = 0x31) ∧ ((∀ c, i ≠ .bit c) → x = []) ∧
    ((∀ a, i ≠ .rdreg a) → r = [])

theorem AppendsOwn.of_same {i : Instr} {s t : State} (hm : t.mapOut = s.mapOut) (hd : t.dataOut = s.dataOut)
    (hx : t.textOut = s.textOut) (hr : t.rsp = s.rsp) : AppendsOwn i s t :=
  ⟨[], [], [], [], by simp [hm, hd, hx, hr]⟩

theorem own_appendsOwn (i : Instr) (s : State) : AppendsOwn i s (own i s) := by
  cases i with
  | nop | clr | build => exact .of_same rfl rfl rfl rfl
  | sermap => exact ⟨serialize s.lut, [], [], [], by simp [own]⟩
  | rdreg a => exact ⟨[], [], [], [memRead s a], by simp [own]⟩
  | freq y => rw [own, freqOwn_frame_eq]; exact .of_same rfl rfl rfl rfl
  | assign => rw [own, assignOwn_frame_eq]; exact .of_same rfl rfl rfl rfl
  | ldmap c => rw [own, ldmapOwn_frame_eq]; exact .of_same rfl rfl rfl rfl
  | endmap => rw [own, endmapOwn_frame_eq]; exact .of_same rfl rfl rfl rfl
  | enddata => rw [own, enddataOwn_frame_eq]; exact .of_same rfl rfl rfl rfl
  | pack y =>
    rcases packOwn_cases y s with ⟨-, h⟩ | ⟨e, -, h⟩ <;> rw [own, h]
    · rw [raise_frame_eq]; exact .of_same rfl rfl rfl rfl
    · exact ⟨[], str e.code, [], [], by simpa using fun c => mem_str⟩
  | bit c =>
    rcases bitOwn_cases c s with ⟨-, h⟩ | ⟨b, -, -, ⟨e, -, h⟩ | ⟨-, h⟩⟩ <;> rw [own, h]
    · rw [raise_frame_eq]; exact .of_same rfl rfl rfl rfl
    · exact ⟨[], [], [e.sym], [], by simp⟩
    · exact .of_same rfl rfl rfl rfl

/-- Settles O50: a command out of its phases appends nothing, and in them to its own list only. -/
theorem outputsOnlyGrow : Obligations.OutputsOnlyGrow := by
  intro i s t hexec
  obtain rfl := exec_next_iff.mp hexec
  have happends : AppendsOwn i s (after i s) := by
    by_cases hi : s.phase ∈ legalPhases i
    · rw [after_of_mem hi]; exact own_appendsOwn i s
    · rw [after_of_not_mem hi]; exact .of_same (raise_mapOut ..) (raise_dataOut ..) (raise_textOut ..) (raise_rsp ..)
  obtain ⟨m, d, x, r, hm, hd, hx, hr, hm', hd', hbits, hx', hr'⟩ := happends
  rw [hm, hd, hx, hr]
  simp only [List.append_right_eq_self, List.prefix_append, true_and]
  exact ⟨hm', ⟨hd', d, rfl, hbits⟩, hx', hr'⟩

/-! ### The table and its writers (43_code_lut.md R156) -/

theorem ldmapOwn_lut (ch : Byte) (s : State) :
    (ldmapOwn ch s).lut = s.lut ∨ (s.pstate = .code ∧ (ldmapOwn ch s).lut = s.lut ++ [⟨s.cursym, s.curcode⟩]) := by
  rcases ldmapOwn_cases ch s with ⟨e, -, h⟩ | ⟨t, ht, h⟩ <;> rw [h]
  · exact .inl (raise_lut ..)
  · rcases parseStep_ok ht with ⟨-, -, rfl⟩ | ⟨-, -, rfl⟩ | ⟨-, -, rfl⟩ | ⟨b, -, ⟨-, rfl⟩ | ⟨-, -, rfl⟩⟩ | ⟨hps, -, rfl⟩
    case inr.inr.inr.inr => exact .inr ⟨hps, rfl⟩
    all_goals exact .inl rfl

theorem endmapOwn_lut (s : State) :
    (endmapOwn s).lut = s.lut ∨ (s.pstate = .code ∧ (endmapOwn s).lut = s.lut ++ [⟨s.cursym, s.curcode⟩]) := by
  rcases endmapOwn_cases s with ⟨-, h⟩ | ⟨hps, h⟩ | ⟨-, -, h⟩ <;> rw [h]
  · rw [finishMap_frame_eq]; exact .inl rfl
  · rw [finishMap_frame_eq]; exact .inr ⟨hps, rfl⟩
  · exact .inl (raise_lut ..)

/-- The commands that write the table: ASSIGN, CLR, and LDMAP and ENDMAP at the end of an entry. -/
theorem own_lut (i : Instr) (s : State) :
    (own i s).lut = s.lut ∨ i = .assign ∨ (i = .clr ∧ (own i s).lut = []) ∨
    (((∃ ch, i = .ldmap ch) ∨ i = .endmap) ∧ s.pstate = .code ∧ s.lut <+: (own i s).lut) := by
  cases i with
  | nop | build | sermap | rdreg => exact .inl rfl
  | assign => exact .inr (.inl rfl)
  | clr => exact .inr (.inr (.inl ⟨rfl, rfl⟩))
  | freq y => rw [own, freqOwn_frame_eq]; exact .inl rfl
  | pack y => exact .inl (packOwn_frame s y).1
  | bit ch => exact .inl (bitOwn_lut s ch)
  | enddata => exact .inl (enddataOwn_frame s).1
  | ldmap ch =>
    rcases ldmapOwn_lut ch s with h | ⟨hps, h⟩
    · exact .inl h
    · exact .inr (.inr (.inr ⟨.inl ⟨ch, rfl⟩, hps, h ▸ List.prefix_append _ _⟩))
  | endmap =>
    rcases endmapOwn_lut s with h | ⟨hps, h⟩
    · exact .inl h
    · exact .inr (.inr (.inr ⟨.inr rfl, hps, h ▸ List.prefix_append _ _⟩))

/-- A map entry is in progress in MAPLOAD only, FAILED apart (10_state.md R38 item 10). -/
theorem State.Inv.mapload_of_code {s : State} (h : s.Inv) (hps : s.pstate = .code) (hf : s.phase ≠ .failed) : s.phase = .mapload :=
  (h.r38.parser.1 (by simp [hps])).resolve_right hf

/-- Settles O41: the bounds are items of the invariant; a step that changes the table is a reset, or a command by `own_lut`. -/
theorem lutInvariantsAndWriters : Obligations.LutInvariantsAndWriters := by
  intro s t h hstep
  obtain ⟨⟨hsyms, hcodes⟩, -⟩ := h.lut
  refine ⟨h.nent_le, hsyms, hcodes, fun hp _ => prefixFree_iff_not_prefix.mp (h.prefixFree hp), fun hne => ?writers⟩
  rcases step_cases hstep with ⟨-, rfl⟩ | ⟨w, rest, i, hin, hw, rfl⟩ | ⟨w, rest, -, -, rfl⟩ | ⟨rest, hin, rfl⟩
  · exact absurd rfl hne
  · obtain rfl := encodeOfDecode w i hw
    by_cases hi : s.phase ∈ legalPhases i
    case neg => exact absurd ((congrArg State.lut (after_of_not_mem (s := { s with input := rest }) hi)).trans (raise_lut ..)) hne
    rw [after_of_mem (s := { s with input := rest }) hi] at hne ⊢
    rcases own_lut i { s with input := rest } with hsame | rfl | ⟨rfl, hnil⟩ | ⟨hmap, hps, hprefix⟩
    · exact absurd hsame hne
    · exact .inl ⟨rest, hin, by simpa [legalPhases] using hi, congrArg State.phase (assignOwn_frame_eq _)⟩
    · exact .inr (.inr (.inr (.inl ⟨rest, hin, hnil⟩)))
    · have hf : s.phase ≠ .failed := by
        intro hf
        rcases hmap with ⟨ch, rfl⟩ | rfl <;> simp [legalPhases, hf] at hi
      have hload := h.mapload_of_code hps hf
      rcases hmap with ⟨ch, rfl⟩ | rfl
      · exact .inr (.inl ⟨ch, rest, by rw [hin, encode_ldmap], hload, hprefix⟩)
      · exact .inr (.inr (.inl ⟨rest, hin, hload, hprefix⟩))
  · exact absurd (raise_lut ..) hne
  · exact .inr (.inr (.inr (.inr ⟨rest, hin, rfl⟩)))

end Sys2Proof.Machine
end

section
/-! Errors (60_exceptions.md): what a command that raises changes, which errors it may raise, and how the machine leaves FAILED. -/

namespace Sys2Proof.Machine

/-- A command that ends with the first error of a run: the error is E_SEQ out of its phases and one of its own in them, and all else is
the state before it, but for what ENDMAP commits before E_CODETBL (R211, R216). -/
theorem after_error {i : Instr} {s : State} (hs : s.err = none) (ht : (after i s).err ≠ none) :
    ∃ e u, after i s = { u with err := some e, errinfo := encode i, phase := .failed } ∧ (s.phase ∈ legalPhases i → e ∈ ownErrors i) ∧
      (u = s ∨ (i = .endmap ∧ e = .codetbl ∧
        u = { s with lut := u.lut, pstate := u.pstate, cursym := u.cursym, curcode := u.curcode, collide := u.collide })) := by
  by_cases hi : s.phase ∈ legalPhases i
  case neg => exact ⟨.seq, s, (after_of_not_mem hi).trans (raise_of_err_none _ _ _ hs), fun h => absurd h hi, .inl rfl⟩
  rw [after_of_mem hi] at ht ⊢
  rcases own_outcome i s with ⟨herr, -⟩ | ⟨-, hclear⟩ | ⟨e, u, hraise, hu, he, hsame⟩ | ⟨-, hill⟩
  · exact absurd (herr.trans hs) ht
  · exact absurd (congrArg State.err hclear) ht
  · exact ⟨e, u, hraise.trans (raise_of_err_none _ _ _ (hu.trans hs)), fun _ => he, hsame⟩
  · exact absurd hi hill

/-- Settles O46: the two cases of `after_error`. -/
theorem errorsArePrecise : Obligations.ErrorsArePrecise := by
  intro i s t hs hexec ht
  obtain rfl := exec_next_iff.mp hexec
  obtain ⟨e, u, hafter, -, hsame⟩ := after_error hs ht
  rw [hafter]
  refine ⟨e, rfl, rfl, rfl, ?_⟩
  rcases hsame with rfl | ⟨rfl, rfl, hu⟩
  · exact .inl rfl
  · exact .inr ⟨rfl, rfl, by rw [hu]⟩

/-- Settles O47: the same, read for the error. -/
theorem errorsByCommand : Obligations.ErrorsByCommand := by
  intro i s t e hs hi hexec ht
  obtain rfl := exec_next_iff.mp hexec
  have hne : (after i s).err ≠ none := by simp [ht]
  obtain ⟨e', u, hafter, hown, -⟩ := after_error hs hne
  rw [hafter] at ht
  obtain rfl := Option.some.inj ht
  exact hown hi

/-! ### FAILED -/

/-- In FAILED every command but CLR and RDREG changes nothing: NOP by its rule, the others because E_SEQ is not the first error. -/
theorem State.Inv.after_of_failed {s : State} (h : s.Inv) (hp : s.phase = .failed) {i : Instr} (hclr : i ≠ .clr)
    (hrdreg : ∀ a, i ≠ .rdreg a) : Machine.after i s = s := by
  by_cases hi : s.phase ∈ legalPhases i
  · rw [after_of_mem hi]
    cases i with
    | nop => rfl
    | clr => exact absurd rfl hclr
    | rdreg a => exact absurd rfl (hrdreg a)
    | freq | build | assign | sermap | pack | ldmap | endmap | bit | enddata => simp [hp, legalPhases] at hi
  · rw [after_of_not_mem hi, raise_of_failed (h.err_ne_none hp) hp]

/-- Settles O48: the word decodes to neither CLR nor RDREG, whose words are excluded, or it is illegal and not the first error. -/
theorem firstErrorSticks : Obligations.FirstErrorSticks := by
  intro s w rest h hp hin hclr hrdreg
  have hrest : ({ s with input := rest } : State).Inv := h.with_input rest
  cases hw : decode w with
  | none => rw [step_of_illegal hin hw, raise_of_failed (hrest.err_ne_none hp) hp]
  | some i =>
    obtain rfl := encodeOfDecode w i hw
    rw [step_of_decode hin hw, exec_eq_next, hrest.after_of_failed hp]
    · rintro rfl; exact hclr rfl
    · rintro a rfl
      exact hrdreg ((and_addrMask_eq_pattern_iff 0x30 _ rfl).mpr ⟨congrArg _ (opField_cmd32 0x30 a), rsvField_cmd32 0x30 a⟩)

/-- CLR is the only command that leaves FAILED. -/
theorem eq_clr_of_leaves_failed {i : Instr} {s : State} (hp : s.phase = .failed) (ht : (after i s).phase ≠ .failed) : i = .clr := by
  by_cases hi : s.phase ∈ legalPhases i
  · cases i with
    | clr => rfl
    | nop | rdreg => exact absurd ((congrArg State.phase (after_of_mem hi)).trans hp) ht
    | freq | build | assign | sermap | pack | ldmap | endmap | bit | enddata => simp [hp, legalPhases] at hi
  · exact absurd ((congrArg State.phase (after_of_not_mem hi)).trans (raise_phase ..)) ht

/-- Settles O49: of what can be presented, a command leaves FAILED only if it is CLR, and a reset pulse always does. -/
theorem onlyClrAndResetLeaveFailed : Obligations.OnlyClrAndResetLeaveFailed := by
  intro s t hp hstep ht
  rcases step_cases hstep with ⟨-, rfl⟩ | ⟨w, rest, i, hin, hw, rfl⟩ | ⟨w, rest, -, -, rfl⟩ | ⟨rest, hin, rfl⟩
  · exact absurd hp ht
  · obtain rfl := eq_clr_of_leaves_failed (s := { s with input := rest }) hp ht
    obtain rfl := encodeOfDecode w _ hw
    exact .inl ⟨rest, hin, after_of_legal rfl⟩
  · exact absurd (raise_phase ..) ht
  · exact .inr ⟨rest, hin, rfl⟩

/-! ### The pins (R213; 10_state.md R36) -/

theorem donePin_iff {s : State} : s.donePin = true ↔ s.phase = .done := beq_iff_eq

theorem failPin_iff {s : State} : s.failPin = true ↔ s.phase = .failed := beq_iff_eq

theorem donePin_eq_false_iff {s : State} : s.donePin = false ↔ s.phase ≠ .done := beq_eq_false_iff_ne

theorem failPin_eq_false_iff {s : State} : s.failPin = false ↔ s.phase ≠ .failed := beq_eq_false_iff_ne

/-- A step into DONE is an ENDDATA in READY with BUF empty (45_bit_stream_decoder.md R193). -/
theorem step_into_done {s t : State} (hstep : step s = .next t) (hs : s.phase ≠ .done) (ht : t.phase = .done) :
    ∃ rest, s.input = .cmd 0x23000000 :: rest ∧ s.phase = .ready ∧ s.buf = [] := by
  rcases step_cases hstep with ⟨-, rfl⟩ | ⟨w, rest, i, hin, hw, rfl⟩ | ⟨w, rest, -, -, rfl⟩ | ⟨rest, hin, rfl⟩
  · exact absurd ht hs
  · obtain rfl := encodeOfDecode w i hw
    by_cases hi : s.phase ∈ legalPhases i
    · rw [after_of_mem (s := { s with input := rest }) hi] at ht
      obtain rfl := eq_enddata_of_own_phase_done (s := { s with input := rest }) hi ht hs
      exact ⟨rest, hin, by simpa [legalPhases] using hi, (enddataOwn_of_done ht).1⟩
    · rw [after_of_not_mem (s := { s with input := rest }) hi, raise_phase] at ht
      cases ht
  · rw [raise_phase] at ht; cases ht
  · cases ht

/-- A step out of DONE executes CLR, takes a reset pulse, or ends in FAILED: NOP and RDREG, the other legal commands, stay. -/
theorem step_out_of_done {s t : State} (hstep : step s = .next t) (hs : s.phase = .done) (ht : t.phase ≠ .done) :
    t.phase = .failed ∨ ∃ rest, s.input = .cmd 0x01000000 :: rest ∨ s.input = .rst :: rest := by
  rcases step_cases hstep with ⟨-, rfl⟩ | ⟨w, rest, i, hin, hw, rfl⟩ | ⟨w, rest, -, -, rfl⟩ | ⟨rest, hin, rfl⟩
  · exact absurd hs ht
  · obtain rfl := encodeOfDecode w i hw
    by_cases hi : s.phase ∈ legalPhases i
    · rw [after_of_mem (s := { s with input := rest }) hi] at ht
      cases i with
      | clr => exact .inr ⟨rest, .inl hin⟩
      | nop | rdreg => exact absurd hs ht
      | freq | build | assign | sermap | pack | ldmap | endmap | bit | enddata => simp [hs, legalPhases] at hi
    · rw [after_of_not_mem (s := { s with input := rest }) hi]
      exact .inl (raise_phase ..)
  · exact .inl (raise_phase ..)
  · exact .inr ⟨rest, .inr hin⟩

/-- Settles O51: the pins are PHASE's, so they rise and fall as DONE and FAILED are entered and left; in the invariant FAILED is entered
exactly when ERR becomes other than 0. -/
theorem pinsRiseAndFall : Obligations.PinsRiseAndFall := by
  intro s t h hstep
  obtain ⟨hinv, -⟩ := stepKeepsTheInvariant s t h hstep
  simp only [donePin_iff, failPin_iff, donePin_eq_false_iff, failPin_eq_false_iff]
  refine ⟨?exclusive, step_into_done hstep, ?failFalls, ?failRises, step_out_of_done hstep⟩
  case exclusive => rintro ⟨hdone, hfailed⟩; cases hdone.symm.trans hfailed
  case failFalls =>
    intro hs ht
    rcases onlyClrAndResetLeaveFailed s t hs hstep ht with ⟨rest, hin, -⟩ | ⟨rest, hin, -⟩
    · exact ⟨rest, .inl hin⟩
    · exact ⟨rest, .inr hin⟩
  case failRises =>
    intro hs
    exact ((failedOk_iff t).mp hinv.r38.failed).trans (and_iff_right (h.err_eq_none hs)).symm

end Sys2Proof.Machine
end

section
/-! FREQ (41_tree_builder.md R110, R111, R117): one symbol, a text, and why the arena a text leads to depends on nothing else. -/

namespace Sys2Proof.Machine

/-! ### One symbol (R110) -/

/-- The word of FREQ (30_encoding.md R82). -/
theorem encode_freq (y : Byte) : encode (.freq y) = 0x10000000 ||| y.zeroExtend 32 := cmd32_byte 0x10 y

/-- Where no symbol has two leaves, the leaf FREQ counts in is the one that was asked for. -/
theorem countSym_eq_set {y : Byte} {w : Word} {nodes : List Node} (hn : (leafSyms nodes).Nodup) {i : Nat}
    (hi : nodes[i]? = some (.leaf y w)) : countSym y nodes = nodes.set i (.leaf y (w + 1)) := by
  induction nodes generalizing i with
  | nil => simp at hi
  | cons n ns ih =>
    cases n with
    | leaf t v =>
      obtain ⟨hnew, hns⟩ := List.nodup_cons.mp hn
      cases i with
      | zero =>
        cases hi
        simp [countSym]
      | succ i =>
        have hne : t ≠ y := by
          rintro rfl
          exact hnew (mem_leafSyms.mpr ⟨w, List.mem_of_getElem? hi⟩)
        simp [countSym, hne, ih hns hi]
    | internal v l r =>
      cases i with
      | zero => cases hi
      | succ i => simp [countSym, ih hn hi]

section freq
variable {s : State} (y : Byte)

/-- FREQ is legal in IDLE and COUNT. -/
theorem exec_freq (hp : s.phase = .idle ∨ s.phase = .count) : exec (.freq y) s = .next (freqOwn y s) :=
  exec_of_mem (i := .freq y) (by rcases hp with hp | hp <;> simp [legalPhases, hp])

theorem freqOwn_of_full (h : s.total = 0xFFFFFFFF) : freqOwn y s = raise .capacity (encode (.freq y)) s := if_pos h

theorem freqOwn_of_room (h : s.total ≠ 0xFFFFFFFF) :
    freqOwn y s = { s with nodes := countSym y s.nodes, total := s.total + 1, phase := .count } := if_neg h

end freq

/-- Settles O23: before BUILD every slot is a leaf and no symbol has two, so `countSym` adds to the leaf in slot `i` or appends one. -/
theorem freqCountsOneSymbol : Obligations.FreqCountsOneSymbol := by
  intro s y h hp
  have herr : s.err = none := h.err_eq_none (by rcases hp with hp | hp <;> simp [hp])
  have hall : s.ndist = s.nodes.length := leafCount_eq_length_iff.mpr (h.all_leaves (h.root_none hp))
  rw [exec_freq y hp]
  refine ⟨fun hfull => ?full, fun hroom i w _ hi => ?counted, fun hroom hnone => ?new⟩
  case full => rw [freqOwn_of_full y hfull, raise_of_err_none _ _ _ herr, encode_freq]
  case counted => rw [freqOwn_of_room y hroom, countSym_eq_set h.r38.leaves hi]
  case new =>
    have hnew : y ∉ leafSyms s.nodes := by
      rw [mem_leafSyms]
      rintro ⟨w, hw⟩
      obtain ⟨i, hi⟩ := List.mem_iff_getElem?.mp hw
      exact hnone i w (hall ▸ (List.getElem?_eq_some_iff.mp hi).1) hi
    rw [freqOwn_of_room y hroom, countSym_of_not_mem hnew]

/-! ### A text (R111) -/

theorem after_clr (s : State) : after .clr s = clearState s := after_of_legal rfl

/-- A run of commands from CLR. -/
theorem runCommands_clr (s : State) (is : List Instr) :
    runCommands s (.clr :: is) = .next { afterAll is (clearState s) with input := [] } := by
  rw [runCommands_eq decodeOfEncode, afterAll_cons, after_clr]

/-- Settles O24: the run is `freq_run`. -/
theorem freqRunCountsTheText : Obligations.FreqRunCountsTheText := by
  intro s text hlen
  refine ⟨_, runCommands_clr s _, ?_⟩
  rw [freq_run s text hlen]
  exact ⟨rfl, rfl, rfl⟩

/-! ### FREQ and BUILD look at no output list (R117) -/

/-- The state with the output lists, and what the host has yet to present, of another. -/
def State.withOutputsOf (s o : State) : State :=
  { s with mapOut := o.mapOut, dataOut := o.dataOut, textOut := o.textOut, rsp := o.rsp, input := o.input }

/-- CLR makes of every state the reset state with its own output lists (40_control.md R101). -/
theorem clearState_eq_withOutputsOf (s : State) : clearState s = State.reset.withOutputsOf s := rfl

theorem raise_withOutputsOf (e : ErrCode) (w : Word) (s o : State) :
    raise e w (s.withOutputsOf o) = (raise e w s).withOutputsOf o := by
  by_cases h : s.err = none
  · rw [raise_of_err_none e w s h]
    exact raise_of_err_none e w (s.withOutputsOf o) h
  · rw [raise_of_err_some e w s h]
    exact raise_of_err_some e w (s.withOutputsOf o) h

theorem freqOwn_withOutputsOf (y : Byte) (s o : State) : freqOwn y (s.withOutputsOf o) = (freqOwn y s).withOutputsOf o := by
  by_cases h : s.total = 0xFFFFFFFF
  · rw [freqOwn_of_full y h, freqOwn_of_full y (s := s.withOutputsOf o) h, raise_withOutputsOf]
  · rw [freqOwn_of_room y h, freqOwn_of_room y (s := s.withOutputsOf o) h]; rfl

/-- FREQ and BUILD do the same whatever the output lists hold. -/
theorem after_withOutputsOf {i : Instr} (hi : (∃ y, i = .freq y) ∨ i = .build) (s o : State) :
    after i (s.withOutputsOf o) = (after i s).withOutputsOf o := by
  have hown : own i (s.withOutputsOf o) = (own i s).withOutputsOf o := by
    rcases hi with ⟨y, rfl⟩ | rfl
    · exact freqOwn_withOutputsOf y s o
    · rfl
  unfold after
  rw [hown, raise_withOutputsOf]
  exact (apply_ite (State.withOutputsOf · o) ..).symm

theorem afterAll_withOutputsOf {is : List Instr} (his : ∀ i ∈ is, (∃ y, i = .freq y) ∨ i = .build) (s o : State) :
    afterAll is (s.withOutputsOf o) = (afterAll is s).withOutputsOf o := by
  induction is generalizing s with
  | nil => rfl
  | cons i is ih =>
    rw [afterAll_cons, after_withOutputsOf (his i (by simp)), ih (fun j hj => his j (List.mem_cons_of_mem _ hj)), afterAll_cons]

/-- Settles O28: from whatever state, CLR, the FREQs and BUILD end where they end from reset, but for the output lists. -/
theorem buildIsDeterminedByTheText : Obligations.BuildIsDeterminedByTheText := by
  intro s s' t t' text ht ht'
  have his : ∀ i ∈ text.map Instr.freq ++ [.build], (∃ y, i = .freq y) ∨ i = .build := by
    intro i hi
    rcases List.mem_append.mp hi with hi | hi
    · obtain ⟨y, -, rfl⟩ := List.mem_map.mp hi
      exact .inl ⟨y, rfl⟩
    · exact .inr (List.mem_singleton.mp hi)
  rw [List.cons_append, runCommands_clr, clearState_eq_withOutputsOf, afterAll_withOutputsOf his] at ht ht'
  cases ht
  cases ht'
  exact ⟨rfl, rfl, rfl, rfl, rfl⟩

end Sys2Proof.Machine
end

section
/-! The tree BUILD makes and the table ASSIGN reads off it (41_tree_builder.md R112 to R116; 42_code_table_generator.md R134). -/

namespace Sys2Proof.Machine

/-! ### The live slots at the end of the loop (41_tree_builder.md R112) -/

/-- The slots that are no node's child are those of the live set. -/
theorem Forest.liveBefore_perm {leaves : List Node} {q : List Nat} {nodes : List Node} (h : Forest leaves q nodes) :
    (liveBefore nodes nodes.length).Perm q := by
  have hmem := h.mem_liveBefore []
  rw [List.append_nil] at hmem
  exact (List.perm_ext_iff_of_nodup (List.nodup_range.filter _) h.nodup).mpr hmem

/-- Settles O25: the loop's invariant, whose live set is the slots without a parent. -/
theorem buildMergesTheTwoLeast : Obligations.BuildMergesTheTwoLeast := by
  intro s h hp
  obtain ⟨q, nodes, hloop, hforest, hndist, -, hq⟩ := build_spec h hp
  obtain ⟨inner, hnodes, -⟩ := hforest.shape
  have hlive := hforest.liveBefore_perm
  refine ⟨inner, rootOf q, ?_, fun k n hk hn => ?_, ?_⟩
  · rw [exec_build hp, buildOwn_eq, hloop, ← hnodes]
  · rw [← hnodes] at hn ⊢
    exact hforest.greedy k n (hndist ▸ hk) hn
  · rw [← hnodes]
    rcases hq with ⟨-, rfl⟩ | ⟨-, rfl⟩
    · exact .inl ⟨hlive.eq_nil, rfl⟩
    · exact .inr ⟨_, List.perm_singleton.mp hlive, rfl⟩

/-! ### One path to every leaf (R116) -/

/-- The walk writes at every leaf it is led to, with the branches taken. -/
theorem mem_walk_of_follow {nodes : List Node} (h : ChildrenOk nodes) {k : Nat} {y : Byte} {w : Word}
    (hk : nodes[k]? = some (.leaf y w)) :
    ∀ (d r : Nat) (p c : Code), r < d → follow nodes r c = some k → (k, ⟨y, p ++ c⟩) ∈ walk d nodes r p := by
  intro d
  induction d with
  | zero => intro r p c hr; omega
  | succ d ih =>
    intro r p c hr hfollow
    unfold walk
    cases c with
    | nil =>
      obtain rfl := Option.some.inj hfollow
      simp [hk]
    | cons b c =>
      unfold follow at hfollow
      split at hfollow
      case h_2 => cases hfollow
      case h_1 wt left right hr' =>
        obtain ⟨hleft, hright, -⟩ := childrenOk_internal.mp (h r _ hr')
        simp only [hr', List.mem_append]
        cases b with
        | false => exact .inl (by simpa using ih left.toNat (p ++ [false]) c (by omega) (by simpa using hfollow))
        | true => exact .inr (by simpa using ih right.toNat (p ++ [true]) c (by omega) (by simpa using hfollow))

/-- In a tree with each leaf under the root once, each leaf is reached by one sequence of branches. -/
theorem Rooted.existsUnique_path {nodes : List Node} {n r : Nat} (h : Rooted nodes n r) {k : Nat} (hk : k < n) {y : Byte} {w : Word}
    (hleaf : nodes[k]? = some (.leaf y w)) : ∃! c : Code, follow nodes r c = some k := by
  have hslots : (walk nodes.length nodes r []).map Prod.fst = leavesUnder nodes.length nodes r := walk_slots ..
  have hmem : k ∈ (walk nodes.length nodes r []).map Prod.fst := hslots ▸ h.covers.mem_iff.mpr (List.mem_range.mpr hk)
  have hnodup : ((walk nodes.length nodes r []).map Prod.fst).Nodup := hslots ▸ h.covers.nodup_iff.mpr List.nodup_range
  obtain ⟨v, hv, rfl⟩ := List.mem_map.mp hmem
  obtain ⟨c, -, -, hfollow⟩ := walk_mem nodes _ _ _ v hv
  refine ⟨c, hfollow, fun c' hfollow' => ?_⟩
  have hwrite := mem_walk_of_follow h.children hleaf nodes.length r [] c h.valid hfollow
  have hwrite' := mem_walk_of_follow h.children hleaf nodes.length r [] c' h.valid hfollow'
  simpa using congrArg (fun v : Nat × Entry => v.2.code) (List.inj_on_of_nodup_map hnodup hwrite' hwrite rfl)

/-- The first `NDIST` slots are leaves (10_state.md R38 item 1). -/
theorem State.Inv.leaf_of_lt {s : State} (h : s.Inv) {k : Nat} (hk : k < s.ndist) : ∃ y w, s.nodes[k]? = some (.leaf y w) := by
  obtain ⟨hle, -, -, hleaf⟩ := h.r38.counts
  have hkl : k < s.nodes.length := hk.trans_le hle
  have := hleaf k hkl
  rw [List.getElem?_eq_getElem hkl] at this ⊢
  cases hn : s.nodes[k] with
  | leaf y w => exact ⟨y, w, rfl⟩
  | internal w l r => simp [hn, Node.isLeaf, hk] at this

/-- The children of an internal node are two slots below it (10_state.md R38 item 6). -/
theorem State.Inv.childrenOk {s : State} (h : s.Inv) : ChildrenOk s.nodes := by
  intro k n hn
  have hk : k < s.nodes.length := (List.getElem?_eq_some_iff.mp hn).1
  simpa [hn] using h.r38.tree.1 k hk

/-- The root of a tree over all the leaves weighs what they weigh together, which is TOTAL (10_state.md R38 item 3). -/
theorem weightAt_root_buildOwn {s : State} (h : s.Inv) (hp : s.phase = .idle ∨ s.phase = .count) (h1 : 1 ≤ s.ndist) :
    weightAt (buildOwn s).nodes (2 * s.ndist - 2) = s.total := by
  obtain ⟨q, nodes, hloop, hforest, hndist, -, hq⟩ := build_spec h hp
  have hsum := hforest.weights
  rcases hq with ⟨hnil, -⟩ | ⟨-, rfl⟩
  · simp [hndist, hnil] at h1
  · rw [h.r38.weights.1] at hsum
    rw [buildOwn_eq, hloop, hndist]
    exact BitVec.eq_of_toNat_eq (by simpa using hsum)

/-- Settles O27: the arena BUILD leaves is a tree over its leaves, by the invariant of the state it leaves. -/
theorem rootWeightIsTotal : Obligations.RootWeightIsTotal := by
  intro s h hp h1
  have hbuilt := build_inv h hp
  obtain ⟨-, hroot⟩ := buildOwn_of_leaf h hp h1
  have hslot : (BitVec.ofNat 9 (2 * s.ndist - 2)).toNat = 2 * s.ndist - 2 := by
    have := h.ndist_le
    exact Nat.mod_eq_of_lt (by omega)
  refine ⟨buildOwn s, _, exec_build hp, hroot, ?weight, fun k hk => ?path, fun k w left right hk => ?children⟩
  case weight => rw [hslot]; exact weightAt_root_buildOwn h hp h1
  case path =>
    obtain ⟨y, w, hleaf⟩ := hbuilt.leaf_of_lt hk
    exact (hbuilt.rooted hroot).existsUnique_path hk hleaf
  case children =>
    obtain ⟨hleft, hright, hne, -⟩ := childrenOk_internal.mp (hbuilt.childrenOk k _ hk)
    have hlt : k < (buildOwn s).nodes.length := (List.getElem?_eq_some_iff.mp hk).1
    exact ⟨hleft.trans hlt, hright.trans hlt, hne⟩

/-! ### What ASSIGN's table guarantees (42_code_table_generator.md R134) -/

/-- Settles O32: with a root, by what the walk writes; without one there is no leaf and no entry. -/
theorem assignGuarantees : Obligations.AssignGuarantees := by
  intro s h hp
  cases hr : s.root with
  | none =>
    have hndist : s.ndist = 0 := by simpa [hr] using h.root_isSome_of_built hp
    obtain ⟨-, hlut⟩ := h.lut
    have hnil : s.lut = [] := hlut (.inr (.inr hp))
    exact ⟨_, exec_assign_of_no_root hp hr, by simp [State.nent, hnil, hndist]⟩
  | some r =>
    obtain ⟨hlen, hentry, hfree⟩ := assign_spec h hr
    obtain ⟨⟨hsyms, hcodes⟩, -⟩ := assign_tableOk h hr
    refine ⟨_, exec_assign_of_root hp hr, hlen, fun i hi => ?symbol, hsyms, fun e he => ?code, fun _ i j e f hi hj hij => ?free⟩
    case symbol =>
      obtain ⟨c, hc, -⟩ := hentry i (hlen ▸ hi)
      exact congrArg (Option.map Entry.sym) hc
    case code =>
      obtain ⟨i, hi⟩ := List.mem_iff_getElem?.mp he
      obtain ⟨c, hc, hmin, hmax, -⟩ := hentry i (hlen ▸ (List.getElem?_eq_some_iff.mp hi).1)
      obtain rfl := Option.some.inj (hi.symm.trans hc)
      exact ⟨hmin, hmax, (hcodes _ he).2⟩
    case free => exact hfree.not_prefix hij hi hj

end Sys2Proof.Machine
end

section
/-! The strings of a map (30_encoding.md R91 to R93; 42_code_table_generator.md R135): the spelling of a symbol, of an entry and of a
table, and how long they are. -/

namespace Sys2Proof.Machine

/-! ### Symbols (R92) -/

theorem esc_of_special {y : Byte} (h : isSpecial y = true) : esc y = [0x5C, y] := if_pos h

theorem esc_of_plain {y : Byte} (h : isSpecial y = false) : esc y = [y] := if_neg (by simp [h])

/-- The spelling of a symbol ends in the symbol. -/
theorem esc_getLast? (y : Byte) : (esc y).getLast? = some y := by
  unfold esc; split <;> rfl

theorem symbolText_esc (y : Byte) : SymbolText y (esc y) := by
  by_cases h : isSpecial y = true
  · rw [esc_of_special h]
    exact .special y (isSpecial_iff.mp h)
  · have hplain := mt isSpecial_iff.mpr h
    push Not at hplain
    obtain ⟨h2C, h3A, h5C⟩ := hplain
    rw [esc_of_plain (Bool.eq_false_iff.mpr h)]
    exact .plain y h2C h3A h5C

/-- A symbol has one spelling. -/
theorem SymbolText.eq_esc {y : Byte} {t : List Byte} (h : SymbolText y t) : t = esc y := by
  cases h with
  | plain h2C h3A h5C => rw [esc_of_plain (isSpecial_eq_false h2C h3A h5C)]
  | special hspecial => rw [esc_of_special (isSpecial_iff.mpr hspecial)]

/-- Settles O35: `esc` by its two cases; it is injective since a spelling ends in its symbol. -/
theorem escapeIsABijection : Obligations.EscapeIsABijection :=
  ⟨symbolText_esc, fun _ _ h => h.eq_esc, fun y z h => Option.some.inj (by rw [← esc_getLast? y, h, esc_getLast?])⟩

/-! ### Entries and tables (R91) -/

theorem entryText_serEntry {e : Entry} (h1 : 1 ≤ e.code.length) (h255 : e.code.length ≤ 255) : EntryText e (serEntry e) := by
  have := EntryText.mk e (esc e.sym) (symbolText_esc e.sym) h1 h255
  rwa [List.append_assoc] at this

/-- The string of a table of good codes is a map of the grammar. -/
theorem mapText_serialize {lut : List Entry} (h : ∀ e ∈ lut, 1 ≤ e.code.length ∧ e.code.length ≤ 255) :
    MapText lut (serialize lut) := by
  induction lut with
  | nil => exact .empty
  | cons e es ih =>
    obtain ⟨h1, h255⟩ := h e (by simp)
    have he := entryText_serEntry h1 h255
    cases es with
    | nil => exact .single e _ he
    | cons f es =>
      have := MapText.cons e f es _ _ he (ih fun g hg => h g (List.mem_cons_of_mem _ hg))
      rwa [List.append_assoc] at this

/-- The string of a table is the entries' strings, joined by the delimiter. -/
theorem serialize_eq_intercalate (lut : List Entry) : serialize lut = List.intercalate [chComma] (lut.map serEntry) := by
  induction lut with
  | nil => rfl
  | cons e es ih =>
    cases es with
    | nil => simp [serialize, List.intercalate]
    | cons f es => rw [serialize, ih]; simp [List.intercalate]

/-- SERMAP is legal in READY. -/
theorem exec_sermap {s : State} (hp : s.phase = .ready) : exec .sermap s = .next { s with mapOut := s.mapOut ++ serialize s.lut } :=
  exec_of_mem (i := .sermap) (by simp [legalPhases, hp])

/-- Settles O33: the string is the entries' strings joined, and in the invariant the codes are those of the grammar. -/
theorem sermapAppendsTheMap : Obligations.SermapAppendsTheMap := by
  intro s hp entryText
  have htext : serEntry = entryText := by
    funext e
    simp only [serEntry, esc, isSpecial_iff, entryText, List.append_assoc]
    rfl
  refine ⟨?_, fun h => ⟨serialize s.lut, exec_sermap hp, ?_⟩⟩
  · rw [exec_sermap hp, serialize_eq_intercalate, htext]
    rfl
  · obtain ⟨⟨-, hcodes⟩, -⟩ := h.lut
    exact mapText_serialize hcodes

/-! ### Lengths (R93) -/

/-- The string of a table has the characters of its entries, each with a delimiter, but for the last delimiter. -/
theorem serialize_length_succ {lut : List Entry} (h : lut ≠ []) : (serialize lut).length + 1 = committedChars lut := by
  induction lut with
  | nil => exact absurd rfl h
  | cons e es ih =>
    cases es with
    | nil => simp [serialize, committedChars]
    | cons f es =>
      have := ih (by simp)
      simp only [serialize, committedChars, List.length_append, List.length_cons, List.map_cons, List.sum_cons] at this ⊢
      omega

/-- An entry with its delimiter is three characters, one more where the symbol is escaped, and the code. -/
theorem committedChars_eq (lut : List Entry) :
    committedChars lut = 3 * lut.length + lut.countP (fun e => isSpecial e.sym) + (lut.map (fun e => e.code.length)).sum := by
  induction lut with
  | nil => rfl
  | cons e es ih =>
    rw [← List.singleton_append, committedChars_append, ih, committedChars_singleton, esc_length]
    simp only [List.countP_append, List.countP_singleton, List.map_append, List.sum_append, List.length_append,
      List.length_singleton, List.map_cons, List.map_nil, List.sum_cons, List.sum_nil]
    split_ifs <;> omega

/-- Settles O34: the characters of the entries without the last delimiter. -/
theorem serializedLength : Obligations.SerializedLength := by
  intro s t hp hn hexec
  rw [exec_sermap hp] at hexec
  cases hexec
  have hlen := serialize_length_succ (List.ne_nil_of_length_pos hn)
  rw [committedChars_eq] at hlen
  have hn : 1 ≤ s.lut.length := hn
  show (s.mapOut ++ serialize s.lut).length =
    s.mapOut.length + (3 * s.lut.length - 1) + s.lut.countP (fun e => isSpecial e.sym) + _
  rw [List.length_append]
  omega

end Sys2Proof.Machine
end

section
/-! PACK, ENDDATA and ENDMAP in their phases (44_bit_packer.md R170; 45_bit_stream_decoder.md R186, R193). -/

namespace Sys2Proof.Machine

/-! ### PACK and ENDDATA -/

/-- The word of PACK (30_encoding.md R82). -/
theorem encode_pack (y : Byte) : encode (.pack y) = 0x14000000 ||| y.zeroExtend 32 := cmd32_byte 0x14 y

/-- PACK of a symbol with an entry, in a table with no symbol twice. -/
theorem packOwn_of_mem {s : State} (h : (s.lut.map Entry.sym).Nodup) {e : Entry} (he : e ∈ s.lut) :
    packOwn e.sym s = { s with dataOut := s.dataOut ++ str e.code } := by
  rw [packOwn, lookupSym_of_mem h he]

/-- PACK of a symbol without an entry. -/
theorem packOwn_of_not_mem {s : State} {y : Byte} (h : ∀ e ∈ s.lut, e.sym ≠ y) :
    packOwn y s = raise .nosym (encode (.pack y)) s := by
  rw [packOwn, lookupSym_eq_none.mpr h]

/-- Settles O36: PACK by whether the symbol has an entry, which in READY is the only one. -/
theorem packAppendsTheCode : Obligations.PackAppendsTheCode := by
  intro s y h hp
  have hexec : exec (.pack y) s = .next (packOwn y s) := exec_of_mem (i := .pack y) (by simp [legalPhases, hp])
  obtain ⟨⟨hsyms, -⟩, -⟩ := h.lut
  rw [hexec]
  refine ⟨fun c hc => ?_, fun hnone => ?_⟩
  · rw [packOwn_of_mem hsyms hc]
    rfl
  · have hne : ∀ e ∈ s.lut, e.sym ≠ y := by
      rintro e he rfl
      exact hnone e.code he
    rw [packOwn_of_not_mem hne, raise_of_err_none _ _ _ (h.err_eq_none (by simp [hp])), encode_pack]

/-- Settles O43: ENDDATA by whether BUF is empty. -/
theorem enddataEndsTheDecode : Obligations.EnddataEndsTheDecode := by
  intro s hs hp
  rw [exec_of_mem (i := .enddata) (by simp [legalPhases, hp])]
  refine ⟨fun hbuf => congrArg _ (if_pos hbuf), fun hbuf => ?_⟩
  rw [show own .enddata s = raise .bitseq (encode .enddata) s from if_neg hbuf, raise_of_err_none _ _ _ hs]
  rfl

/-! ### ENDMAP -/

/-- COLLIDE for a pair whose indices fit its fields is the number `65536 j + i` (10_state.md R25). -/
theorem collideWord_eq_ofNat {i j : Nat} (hi : i < 512) (hj : j < 512) : collideWord i j = BitVec.ofNat 32 (j * 65536 + i) := by
  refine BitVec.eq_of_toNat_eq ?_
  have hor : (j * 128) <<< 9 + i = (j * 128) <<< 9 ||| i := Nat.shiftLeft_add_eq_or_of_lt hi _
  simp only [Nat.shiftLeft_eq, Nat.reducePow] at hor
  have hword : (collideWord i j).toNat = (0#7 ++ BitVec.ofNat 9 j ++ 0#7 ++ BitVec.ofNat 9 i).toNat := rfl
  rw [hword, BitVec.toNat_append, BitVec.toNat_append, BitVec.toNat_append]
  simp [Nat.mod_eq_of_lt hi, Nat.mod_eq_of_lt hj, Nat.shiftLeft_eq]
  omega

section finish
variable {s : State}

/-- Where no two codes collide, the second half of ENDMAP moves to READY. -/
theorem finishMap_of_no_collision (h : ∀ i j, ¬ FirstCollision s.lut i j) :
    finishMap s = { s with pstate := .start, buf := [], phase := .ready } := by
  rcases prefixCheck_spec s.lut with ⟨-, hfree⟩ | ⟨i, j, -, hij⟩
  · exact finishMap_of_prefixFree hfree
  · exact absurd hij (h i j)

/-- Where two codes collide, the second half of ENDMAP raises E_CODETBL with the first pair in COLLIDE. -/
theorem finishMap_of_firstCollision (hs : s.err = none) (hlen : s.lut.length ≤ 256) {i j : Nat} (h : FirstCollision s.lut i j) :
    finishMap s = { s with pstate := .start, collide := BitVec.ofNat 32 (j * 65536 + i), err := some .codetbl, errinfo := 0x21000000,
                           phase := .failed } := by
  obtain ⟨hij, hj⟩ := h.lt
  rw [finishMap, prefixCheck_eq_some_iff.mpr h, ← collideWord_eq_ofNat (by omega) (by omega)]
  exact raise_of_err_none _ _ _ hs

end finish

/-- The table with the entry in progress committed is a good one (43_code_lut.md R156). -/
theorem State.Inv.tableOk_commit {s : State} (h : s.Inv) (hps : s.pstate = .code) : TableOk (s.lut ++ [⟨s.cursym, s.curcode⟩]) := by
  obtain ⟨hok, -⟩ := h.lut
  obtain ⟨-, -, -, hnew, -, hcode, -⟩ := h.parse
  exact ldmap_inv.commit_tableOk hok (hnew (by simp [hps, PState.inEntry])) (hcode hps)

section endmap
variable {s : State}

theorem endmapOwn_of_start (hps : s.pstate = .start) : endmapOwn s = finishMap s := by rw [endmapOwn, hps]

/-- At the end of a code the entry in progress is committed first (R184). -/
theorem endmapOwn_of_code (hps : s.pstate = .code) :
    endmapOwn s = finishMap { s with lut := s.lut ++ [⟨s.cursym, s.curcode⟩], cursym := 0, curcode := [] } := by
  rcases endmapOwn_cases s with ⟨hstart, -⟩ | ⟨-, h⟩ | ⟨-, hcode, -⟩
  · cases hps.symm.trans hstart
  · exact h
  · exact absurd hps hcode

/-- Inside an entry ENDMAP is refused. -/
theorem endmapOwn_of_inside (hstart : s.pstate ≠ .start) (hcode : s.pstate ≠ .code) :
    endmapOwn s = raise .mapfmt (encode .endmap) s := by
  rcases endmapOwn_cases s with ⟨h, -⟩ | ⟨h, -⟩ | ⟨-, -, h⟩
  · exact absurd h hstart
  · exact absurd h hcode
  · exact h

end endmap

/-- Settles O39: inside an entry ENDMAP raises; else it checks the table, with the entry in progress committed in PS_CODE. -/
theorem endmapChecksTheTable : Obligations.EndmapChecksTheTable := by
  intro s h hp
  have herr : s.err = none := h.err_eq_none (by rcases hp with hp | hp <;> simp [hp])
  have hexec : exec .endmap s = .next (endmapOwn s) := by rw [exec_eq_next, after_endmap hp]
  rw [hexec]
  refine ⟨fun hps => ?inside, fun hps => ?between⟩
  case inside =>
    have hne : s.pstate ≠ .start ∧ s.pstate ≠ .code := by rcases hps with hps | hps | hps | hps <;> simp [hps]
    rw [endmapOwn_of_inside hne.1 hne.2, raise_of_err_none _ _ _ herr]
    rfl
  case between =>
    rcases hps with hps | hps
    · rw [if_neg (by simp [hps]), endmapOwn_of_start hps]
      refine ⟨fun hfree => ?_, fun i j hij => ?_⟩
      · rw [finishMap_of_no_collision hfree, ← hps]
      · rw [finishMap_of_firstCollision herr h.nent_le hij, ← hps]
    · rw [if_pos hps, endmapOwn_of_code hps]
      have hlen := (h.tableOk_commit hps).length_le
      exact ⟨fun hfree => congrArg _ (finishMap_of_no_collision hfree),
        fun i j hij => congrArg _ (finishMap_of_firstCollision (by exact herr) (by exact hlen) hij)⟩

end Sys2Proof.Machine
end

section
/-! Maps read back (42_code_table_generator.md R136; 60_exceptions.md R215): the LDMAPs and the ENDMAP of a DECODE, on a string SERMAP made,
on one they accept, and on one they refuse. -/

namespace Sys2Proof.Machine

/-- Settles O57: the string SERMAP appends for a table of READY is read back by `map_run`. -/
theorem mapRoundTrip : Obligations.MapRoundTrip := by
  intro s u h hp
  obtain ⟨hok, -⟩ := h.lut
  obtain ⟨m, hrun⟩ := map_run u hok (h.prefixFree (.inl hp))
  refine ⟨serialize s.lut, exec_sermap hp, ?_⟩
  rw [List.cons_append, runCommands_clr, hrun]
  exact ⟨_, rfl, rfl, rfl, rfl⟩

/-! ### Accepted strings -/

theorem finishMap_lut (s : State) : (finishMap s).lut = s.lut := by rw [finishMap_frame_eq]

/-- Where ENDMAP moves to READY, the string read is the string of the table it leaves: the parser is between entries, with no string
read, or at the end of the last entry, which ENDMAP commits. -/
theorem Reads.serialize_endmap {m : List Byte} {s : State} (h : Reads m s) (hready : (after .endmap s).phase = .ready) :
    serialize (after .endmap s).lut = m := by
  rcases h with ⟨hp, hps, hlut, rfl⟩ | ⟨hp, hstart, rfl⟩
  · rw [after_endmap (.inl hp), endmapOwn_of_start hps, finishMap_lut, hlut]
    rfl
  · rw [after_endmap (.inr hp)] at hready ⊢
    by_cases hps : s.pstate = .code
    · rw [endmapOwn_of_code hps, finishMap_lut, serialize_append, hps]
      rfl
    · rw [endmapOwn_of_inside hstart hps, raise_phase] at hready
      cases hready

/-- Settles O58: the parser has read the whole string when ENDMAP comes, or has failed and stays so. -/
theorem acceptedMapsAreSerialized : Obligations.AcceptedMapsAreSerialized := by
  intro u t m hrun hready
  rw [List.cons_append, runCommands_clr, afterAll_append, afterAll_cons, afterAll_nil] at hrun
  cases hrun
  rw [exec_sermap hready]
  rcases Reads.run m [] (clearState u) (.inl ⟨rfl, rfl, rfl, rfl⟩) with hreads | hfailed
  · simp only [hreads.serialize_endmap hready, List.nil_append]
  · have hstays := afterAll_stays_failed hfailed [.endmap] (by simp [legalPhases])
    cases hstays.symm.trans hready

/-! ### Refused strings -/

/-- The errors of a map. -/
def IsMapError (e : Option ErrCode) : Prop := e = some .mapfmt ∨ e = some .codetbl ∨ e = some .capacity

/-- The machine while it is given a map: reading, or failed by an error of the map's. -/
def InMap (s : State) : Prop :=
  (s.err = none ∧ (s.phase = .idle ∨ s.phase = .mapload)) ∨ (s.phase = .failed ∧ IsMapError s.err)

/-- A command other than CLR that comes in one of its phases before any error raises none and moves on, or raises one of its own. -/
theorem own_of_err_none {i : Instr} {s : State} (hs : s.err = none) (hi : s.phase ∈ legalPhases i) (hclr : i ≠ .clr) :
    ((own i s).err = none ∧ (own i s).phase = phaseAfter i s.phase) ∨
    (∃ e ∈ ownErrors i, (own i s).err = some e ∧ (own i s).phase = .failed) := by
  rcases own_outcome i s with ⟨herr, hphase⟩ | ⟨h, -⟩ | ⟨e, u, hraise, hu, he, -⟩ | ⟨-, hill⟩
  · exact .inl ⟨herr.trans hs, hphase⟩
  · exact absurd h hclr
  · rw [hraise, raise_of_err_none _ _ _ (hu.trans hs)]
    exact .inr ⟨e, he, rfl, rfl⟩
  · exact absurd hi hill

/-- LDMAP and ENDMAP raise the errors of a map only, and nothing after the first. -/
theorem InMap.after {i : Instr} (hi : (∃ ch, i = .ldmap ch) ∨ i = .endmap) {s : State} (h : InMap s) :
    ((after i s).err = none ∧ (after i s).phase = phaseAfter i s.phase) ∨
    ((after i s).phase = .failed ∧ IsMapError (after i s).err) := by
  have hclr : i ≠ .clr := by rintro rfl; simp at hi
  have hphases : legalPhases i = [.idle, .mapload] := by rcases hi with ⟨ch, rfl⟩ | rfl <;> rfl
  have herrors : ∀ e ∈ ownErrors i, IsMapError (some e) := by
    rcases hi with ⟨ch, rfl⟩ | rfl <;> simp [ownErrors, IsMapError]
  rcases h with ⟨hs, hp⟩ | ⟨hp, he⟩
  · have hi : s.phase ∈ legalPhases i := by simpa [hphases] using hp
    rw [after_of_mem hi]
    rcases own_of_err_none hs hi hclr with hok | ⟨e, he, herr, hphase⟩
    · exact .inl hok
    · exact .inr ⟨hphase, herr ▸ herrors e he⟩
  · have hs : s.err ≠ none := by rcases he with he | he | he <;> simp [he]
    rw [after_of_not_mem (by simp [hphases, hp]), raise_of_failed hs hp]
    exact .inr ⟨hp, he⟩

theorem InMap.afterAll_ldmap (m : List Byte) {s : State} (h : InMap s) : InMap (afterAll (m.map .ldmap) s) := by
  induction m generalizing s with
  | nil => exact h
  | cons c m ih =>
    refine ih ?_
    rcases InMap.after (.inl ⟨c, rfl⟩) h with ⟨herr, hphase⟩ | hfailed
    · exact .inl ⟨herr, .inr hphase⟩
    · exact .inr hfailed

/-- A run that ends in FAILED ends in the same state when commands follow that are illegal there. -/
theorem runCommands_append_of_failed {s t : State} {is js : List Instr} (h : runCommands s is = .next t) (he : t.err ≠ none)
    (hp : t.phase = .failed) (hjs : ∀ j ∈ js, Phase.failed ∉ legalPhases j) : runCommands s (is ++ js) = .next t := by
  rw [runCommands_eq decodeOfEncode] at h ⊢
  cases h
  rw [afterAll_append, afterAll_of_failed (s := afterAll is s) he hp js hjs]

/-- A DECODE is its map part and its data part (30_encoding.md R96). -/
theorem decodeCommands_eq (data map : List Byte) :
    decodeCommands data map = (.clr :: (map.map .ldmap ++ [.endmap])) ++ (data.map .bit ++ [.enddata]) := by
  simp [decodeCommands]

/-- Settles O52: the map part can fail by the errors of a map only, and BIT and ENDDATA are illegal in FAILED. -/
theorem mapErrorsComeFirst : Obligations.MapErrorsComeFirst := by
  intro s t data map hrun hfailed
  rw [List.cons_append] at hrun
  have herr : IsMapError t.err := by
    rw [runCommands_clr, afterAll_append, afterAll_cons, afterAll_nil] at hrun
    cases hrun
    have hmap : InMap (clearState s) := .inl ⟨rfl, .inl rfl⟩
    rcases InMap.after (.inr rfl) (hmap.afterAll_ldmap map) with ⟨-, hready⟩ | ⟨-, he⟩
    · cases hready.symm.trans hfailed
    · exact he
  refine ⟨herr, ?_⟩
  rw [decodeCommands_eq]
  refine runCommands_append_of_failed hrun (by rcases herr with he | he | he <;> simp [he]) hfailed fun j hj => ?_
  rcases List.mem_append.mp hj with hj | hj
  · obtain ⟨c, -, rfl⟩ := List.mem_map.mp hj
    simp [legalPhases]
  · obtain rfl := List.mem_singleton.mp hj
    simp [legalPhases]

end Sys2Proof.Machine
end

section
/-! ENCODE and DECODE (30_encoding.md R95, R96): the table and the strings an ENCODE makes of a text, how long the payload is
(44_bit_packer.md R172), and that a DECODE of the strings gives the text (45_bit_stream_decoder.md R195). -/

namespace Sys2Proof.Machine

/-! ### The bits of codes (45_bit_stream_decoder.md R189) -/

/-- Settles O44: the run is `bit_run`, and `codes_injective` has the uniqueness. -/
theorem codesDecodeUniquely : Obligations.CodesDecodeUniquely := by
  intro s es h hp hbuf hes
  obtain ⟨hok, -⟩ := h.lut
  have hfree := h.prefixFree (.inl hp)
  refine ⟨?_, fun fs hfs hbits => codes_injective hok hfree es fs hes hfs hbits⟩
  rw [runCommands_eq decodeOfEncode]
  exact congrArg (fun t : State => Host.Outcome.next { t with input := [] }) (bit_run hok hfree es hes s rfl hp hbuf)

/-! ### The table of a text -/

theorem leafSyms_of_internal {nodes : List Node} (h : ∀ n ∈ nodes, n.isLeaf = false) : leafSyms nodes = [] := by
  refine List.eq_nil_iff_forall_not_mem.mpr fun y hy => ?_
  obtain ⟨w, hw⟩ := mem_leafSyms.mp hy
  cases h _ hw

/-- The entries of ASSIGN's table have the leaves' symbols, in their order; without a leaf there is no entry. -/
theorem assignOwn_syms {s : State} (h : s.Inv) (hp : s.phase = .built) : (assignOwn s).lut.map Entry.sym = leafSyms s.nodes := by
  rcases assignOwn_cases s with ⟨hr, hown⟩ | ⟨r, hr, hown⟩ <;> rw [hown]
  · have hndist : s.ndist = 0 := by simpa [hr] using h.root_isSome_of_built hp
    obtain ⟨-, hlut⟩ := h.lut
    rw [List.eq_nil_of_length_eq_zero ((leafSyms_length s.nodes).trans hndist), show s.lut = [] from hlut (.inr (.inr hp))]
    rfl
  · exact (assign_tableOk h hr).2

/-- The state of an ENCODE when its text has been counted. -/
def countedState (s : State) (text : List Byte) : State := afterAll (text.map .freq) (clearState s)

/-- The state of an ENCODE when its table has been made. -/
def tableState (s : State) (text : List Byte) : State := assignOwn (buildOwn (countedState s text))

section encode
variable (s : State) {text : List Byte} (hlen : text.length < 2 ^ 32)

theorem countedState_inv (text : List Byte) : (countedState s text).Inv := (clearState_inv s).afterAll _

include hlen

theorem countedState_phase : (countedState s text).phase = .idle ∨ (countedState s text).phase = .count := by
  rw [countedState, freq_run s text hlen]
  by_cases h : text = [] <;> simp [h]

theorem countedState_nodes : (countedState s text).nodes = (firstOccurrences text).map (countedLeaf text) := by
  rw [countedState, freq_run s text hlen]

/-- Counting, building and assigning write no output. -/
theorem tableState_outputs :
    (tableState s text).mapOut = s.mapOut ∧ (tableState s text).dataOut = s.dataOut ∧ (tableState s text).err = none := by
  rw [tableState, assignOwn_frame_eq, buildOwn_eq, countedState, freq_run s text hlen]
  exact ⟨rfl, rfl, rfl⟩

theorem tableState_inv : (tableState s text).Inv :=
  assign_inv (build_inv (countedState_inv s text) (countedState_phase s hlen)) rfl

omit hlen in
theorem tableState_phase : (tableState s text).phase = .ready := congrArg State.phase (assignOwn_frame_eq _)

/-- The slots of the counted leaves, then internal nodes. -/
theorem tableState_nodes : ∃ inner, (tableState s text).nodes = (firstOccurrences text).map (countedLeaf text) ++ inner ∧
    ∀ n ∈ inner, n.isLeaf = false := by
  obtain ⟨inner, hnodes, hinner⟩ := buildOwn_nodes_append (countedState_inv s text) (countedState_phase s hlen)
  refine ⟨inner, ?_, hinner⟩
  rw [tableState, assignOwn_frame_eq, ← countedState_nodes s hlen]
  exact hnodes

/-- The table of a text has its distinct symbols, in order of first occurrence. -/
theorem tableState_syms : (tableState s text).lut.map Entry.sym = firstOccurrences text := by
  have hinv := build_inv (countedState_inv s text) (countedState_phase s hlen)
  obtain ⟨inner, hnodes, hinner⟩ := buildOwn_nodes_append (countedState_inv s text) (countedState_phase s hlen)
  rw [tableState, assignOwn_syms hinv rfl, hnodes, leafSyms_append, leafSyms_of_internal hinner, countedState_nodes s hlen,
    leafSyms_countedLeaf, List.append_nil]

/-- What an ENCODE appends: the string of the table, and the codes of the text's symbols (R95). -/
theorem encode_run : ∃ es : List Entry, (∀ e ∈ es, e ∈ (tableState s text).lut) ∧ es.map Entry.sym = text ∧
    afterAll (encodeCommands text) s = { tableState s text with
      mapOut := s.mapOut ++ serialize (tableState s text).lut, dataOut := s.dataOut ++ str (es.flatMap (fun e => e.code)) } := by
  obtain ⟨hmap, hdata, -⟩ := tableState_outputs s hlen
  obtain ⟨hok, -⟩ := (tableState_inv s hlen).lut
  have hphase := tableState_phase s (text := text)
  obtain ⟨es, hes, hsyms, hpack⟩ := pack_run hok text fun c hc => by rwa [tableState_syms s hlen, mem_firstOccurrences]
  refine ⟨es, hes, hsyms, ?_⟩
  have hcommands : encodeCommands text = .clr :: (text.map .freq ++ (.build :: .assign :: .sermap :: text.map .pack)) := by
    simp [encodeCommands]
  have hbuild : after .build (countedState s text) = buildOwn (countedState s text) :=
    after_of_mem (by simpa [legalPhases] using countedState_phase s hlen)
  have hassign : after .assign (buildOwn (countedState s text)) = tableState s text := after_of_mem (by exact .head _)
  have hsermap : after .sermap (tableState s text) =
      { tableState s text with mapOut := s.mapOut ++ serialize (tableState s text).lut } := by
    rw [← hmap]
    exact after_of_mem (by simp [legalPhases, hphase])
  calc afterAll (encodeCommands text) s
      = afterAll (.build :: .assign :: .sermap :: text.map .pack) (countedState s text) := by
        rw [hcommands, afterAll_cons, after_clr, afterAll_append]; rfl
    _ = afterAll (text.map .pack) { tableState s text with mapOut := s.mapOut ++ serialize (tableState s text).lut } := by
        rw [afterAll_cons, hbuild, afterAll_cons, hassign, afterAll_cons, hsermap]
    _ = _ := by
        rw [hpack { tableState s text with mapOut := s.mapOut ++ serialize (tableState s text).lut } rfl hphase, ← hdata]

end encode

/-! ### The payload (44_bit_packer.md R172) -/

/-- A sum over a text is a sum over its distinct symbols, each as often as it occurs. -/
theorem sum_map_eq_sum_count (text : List Byte) (f : Byte → Nat) :
    (text.map f).sum = ((firstOccurrences text).map (fun c => text.count c * f c)).sum := by
  have hsyms : text.toFinset = (firstOccurrences text).toFinset := by
    ext c
    simp [mem_firstOccurrences]
  rw [Finset.sum_list_map_count, hsyms, List.sum_toFinset _ (firstOccurrences_nodup text)]
  rfl

/-- The number of bits of a symbol's code, 0 without an entry. -/
def codeLength (lut : List Entry) (y : Byte) : Nat := ((lookupSym lut y).map (fun e => e.code.length)).getD 0

theorem codeLength_of_mem {lut : List Entry} (h : (lut.map Entry.sym).Nodup) {e : Entry} (he : e ∈ lut) :
    codeLength lut e.sym = e.code.length := by
  rw [codeLength, lookupSym_of_mem h he]
  rfl

/-- The characters of a sequence of codes, by the entries' symbols. -/
theorem str_flatMap_length {lut : List Entry} (h : (lut.map Entry.sym).Nodup) {es : List Entry} (hes : ∀ e ∈ es, e ∈ lut) :
    (str (es.flatMap (fun e => e.code))).length = ((es.map Entry.sym).map (codeLength lut)).sum := by
  rw [str_length, List.length_flatMap, List.map_map]
  exact congrArg List.sum (List.map_congr_left fun e he => (codeLength_of_mem h (hes e he)).symm)

/-- Where the leaves are the counted symbols and the entries have their symbols, in one order, the sum over the leaves of weight times
code length is the sum over the symbols. -/
theorem sum_leaves_eq_sum_symbols {text : List Byte} (hlen : text.length < 2 ^ 32) {inner : List Node} {lut : List Entry}
    (hsyms : lut.map Entry.sym = firstOccurrences text) :
    (List.range lut.length).map (fun i => (weightAt ((firstOccurrences text).map (countedLeaf text) ++ inner) i).toNat *
      ((lut[i]?.map (fun e => e.code.length)).getD 0)) =
    (firstOccurrences text).map (fun c => text.count c * codeLength lut c) := by
  have hnodup : (lut.map Entry.sym).Nodup := hsyms ▸ firstOccurrences_nodup text
  have hlength : lut.length = (firstOccurrences text).length := by rw [← hsyms, List.length_map]
  refine List.ext_getElem (by simp [hlength]) fun i hi hi' => ?_
  have hlut : i < lut.length := by simpa using hi
  have hfirst : i < (firstOccurrences text).length := hlength ▸ hlut
  have hsym : (firstOccurrences text)[i] = lut[i].sym := by simp [← hsyms]
  have hcount : text.count (firstOccurrences text)[i] < 2 ^ 32 := List.count_le_length.trans_lt hlen
  have hweight : (weightAt ((firstOccurrences text).map (countedLeaf text) ++ inner) i).toNat = text.count (firstOccurrences text)[i] := by
    rw [weightAt_append _ (by simpa using hfirst)]
    simpa [weightAt, hfirst, countedLeaf, Node.weight] using Nat.mod_eq_of_lt hcount
  simp only [List.getElem_map, List.getElem_range, hweight, List.getElem?_eq_getElem hlut, Option.map_some, Option.getD_some, hsym,
    codeLength_of_mem hnodup (List.getElem_mem hlut)]

/-- Settles O37: the payload is the codes of the text's symbols, summed up symbol by symbol and then leaf by leaf. -/
theorem payloadLength : Obligations.PayloadLength := by
  intro s text hlen
  obtain ⟨es, hes, hsyms, hrun⟩ := encode_run s hlen
  obtain ⟨-, -, herr⟩ := tableState_outputs s hlen
  obtain ⟨inner, hnodes, hinner⟩ := tableState_nodes s hlen
  have htable := tableState_syms s hlen
  obtain ⟨⟨hnodup, -⟩, -⟩ := (tableState_inv s hlen).lut
  have hndist : (tableState s text).ndist = (tableState s text).lut.length := by
    rw [ndist_eq, ← leafSyms_length, hnodes, leafSyms_append, leafSyms_of_internal hinner, leafSyms_countedLeaf, List.append_nil,
      ← htable, List.length_map]
  refine ⟨_, runCommands_eq decodeOfEncode s _, ?_⟩
  rw [hrun]
  refine ⟨herr, hndist.symm, ?_⟩
  calc (s.dataOut ++ str (es.flatMap (fun e => e.code))).length
      = s.dataOut.length + (text.map (codeLength (tableState s text).lut)).sum := by
        rw [List.length_append, str_flatMap_length hnodup hes, hsyms]
    _ = s.dataOut.length + ((firstOccurrences text).map (fun c => text.count c * codeLength (tableState s text).lut c)).sum := by
        rw [sum_map_eq_sum_count]
    _ = _ := by
        rw [← sum_leaves_eq_sum_symbols hlen (inner := inner) htable, ← hnodes, ← hndist]
        rfl

/-! ### DECODE (45_bit_stream_decoder.md R195) -/

/-- A DECODE of the string of a good table and of the codes of a sequence of its entries ends in DONE with their symbols (R96). -/
theorem decode_run (u : State) {lut : List Entry} (hok : TableOk lut) (hfree : PrefixFree lut) {es : List Entry}
    (hes : ∀ e ∈ es, e ∈ lut) : ∃ m,
    afterAll (decodeCommands (str (es.flatMap (fun e => e.code))) (serialize lut)) u =
      { clearState u with lut := lut, mappos := m, textOut := u.textOut ++ es.map Entry.sym, phase := .done } := by
  obtain ⟨m, hmap⟩ := map_run u hok hfree
  have hdata := bit_run hok hfree es hes { clearState u with lut := lut, mappos := m, phase := .ready } rfl rfl rfl
  refine ⟨m, ?_⟩
  rw [decodeCommands_eq, afterAll_append, afterAll_cons, after_clr, hmap, afterAll_append, str, List.map_map]
  refine (congrArg (afterAll [.enddata]) hdata).trans ?_
  rw [afterAll_cons, afterAll_nil, after_of_mem (by exact .head _)]
  rfl

/-- Settles O59: ENCODE appends the string of a good table and the codes of the text's symbols, and DECODE reads both back. -/
theorem encodeThenDecodeGivesTheText : Obligations.EncodeThenDecodeGivesTheText := by
  intro s u text hlen
  obtain ⟨es, hes, hsyms, hrun⟩ := encode_run s hlen
  obtain ⟨-, -, herr⟩ := tableState_outputs s hlen
  have hinv := tableState_inv s hlen
  have hphase := tableState_phase s (text := text)
  obtain ⟨hok, -⟩ := hinv.lut
  obtain ⟨m, hdecode⟩ := decode_run u hok (hinv.prefixFree (.inl hphase)) hes
  refine ⟨_, serialize (tableState s text).lut, str (es.flatMap (fun e => e.code)), runCommands_eq decodeOfEncode s _, ?_⟩
  rw [hrun]
  refine ⟨hphase, herr, rfl, rfl, _, runCommands_eq decodeOfEncode u _, ?_⟩
  rw [hdecode, hsyms]
  exact ⟨rfl, rfl, rfl⟩

end Sys2Proof.Machine
end

section
/-! The frames of the commands through RDREG's read of one word (20_memory.md R61 to R64): what a command that raises no error can change
in the read space, window by window. -/

namespace Sys2Proof.Machine

/-! ### Two states that agree on what an address shows -/

/-- Two states read the same at an address when they agree on the register, the count, the slot or the entry it shows. What the two
states have in common by definition is left to `rfl`. -/
theorem memRead_congr_words {s t : State} {a : Addr}
    (status : a = 0x0001 → t.statusWord = s.statusWord := by intro _; rfl)
    (err : a = 0x0002 → t.err = s.err := by intro _; rfl)
    (errinfo : a = 0x0003 → t.errinfo = s.errinfo := by intro _; rfl)
    (total : a = 0x0004 → t.total = s.total := by intro _; rfl)
    (ndist : a = 0x0005 → t.ndist = s.ndist := by intro _; rfl)
    (nnodes : a = 0x0006 → t.nnodes = s.nnodes := by intro _; rfl)
    (root : a = 0x0007 → t.root = s.root := by intro _; rfl)
    (nent : a = 0x0008 → t.nent = s.nent := by intro _; rfl)
    (buflen : a = 0x0009 → t.buf.length = s.buf.length := by intro _; rfl)
    (mappos : a = 0x000B → t.mappos = s.mappos := by intro _; rfl)
    (collide : a = 0x000C → t.collide = s.collide := by intro _; rfl)
    (curent : a = 0x000D → t.curent = s.curent := by intro _; rfl)
    (freq : ∀ y : Byte, a = 0x0100 + y.zeroExtend 16 → freqOf y t.nodes = freqOf y s.nodes := by intro _ _; rfl)
    (node : ∀ off, a.toNat = 0x0400 + off → off < 1022 → t.nodes[off / 2]? = s.nodes[off / 2]? := by intro _ _ _; rfl)
    (entry : ∀ off, a.toNat = 0x1000 + off → off < 4096 → t.lut[off / 16]? = s.lut[off / 16]? := by intro _ _ _; rfl) :
    memRead t a = memRead s a := by
  have addr {b : Addr} (h : a.toNat = b.toNat) : a = b := BitVec.eq_of_toNat_eq h
  refine memRead_congr a (fun hcsr => ?csr) (fun hlo hhi => freq _ (addr ?count)) (fun hlo hhi => ?node) (fun hlo hhi => ?entry)
  case csr =>
    exact readCsr_congr hcsr (fun h => status (addr h)) (fun h => err (addr h)) (fun h => errinfo (addr h)) (fun h => total (addr h))
      (fun h => ndist (addr h)) (fun h => nnodes (addr h)) (fun h => root (addr h)) (fun h => nent (addr h))
      (fun h => buflen (addr h)) (fun h => mappos (addr h)) (fun h => collide (addr h)) (fun h => curent (addr h))
  case count => rw [freqAddr_toNat, BitVec.toNat_ofNat]; omega
  case node => unfold readNode; rw [node (a.toNat - 0x400) (by omega) (by omega)]
  case entry => unfold readLut; rw [entry (a.toNat - 0x1000) (by omega) (by omega)]

/-- Appending one element changes the slot behind the last one only. -/
theorem getElem?_append_singleton_of_ne {α : Type} {l : List α} {n : Nat} (h : n ≠ l.length) (x : α) : (l ++ [x])[n]? = l[n]? := by
  rcases Nat.lt_or_gt_of_ne h with hlt | hgt
  · exact List.getElem?_append_left hlt
  · rw [List.getElem?_eq_none hgt.le, List.getElem?_eq_none (by simpa using hgt)]

/-! ### The commands that write no arena -/

/-- A command that raises no error came in one of its phases. -/
theorem mem_legalPhases_of_err_none {i : Instr} {s : State} (h : (after i s).err = none) : s.phase ∈ legalPhases i := by
  by_contra hi
  rw [after_of_not_mem hi] at h
  exact raise_err_ne_none _ _ _ h

section words
variable {s : State} {a : Addr}

theorem memRead_packOwn {y : Byte} (hs : (packOwn y s).err = none) : memRead (packOwn y s) a = memRead s a := by
  rcases packOwn_cases y s with ⟨-, h⟩ | ⟨e, -, h⟩ <;> rw [h] at hs ⊢
  · exact absurd hs (raise_err_ne_none _ _ _)
  · rfl

theorem memRead_bitOwn {c : Byte} (hs : (bitOwn c s).err = none) (h9 : a ≠ 0x0009) : memRead (bitOwn c s) a = memRead s a := by
  rcases bitOwn_cases c s with ⟨-, h⟩ | ⟨b, -, -, ⟨e, -, h⟩ | ⟨-, h⟩⟩ <;> rw [h] at hs ⊢
  · exact absurd hs (raise_err_ne_none _ _ _)
  · exact memRead_congr_words (buflen := fun ha => absurd ha h9)
  · exact memRead_congr_words (buflen := fun ha => absurd ha h9)

theorem memRead_enddataOwn (hs : (enddataOwn s).err = none) (h1 : a ≠ 0x0001) : memRead (enddataOwn s) a = memRead s a := by
  rcases enddataOwn_cases s with ⟨-, h⟩ | ⟨-, h⟩ <;> rw [h] at hs ⊢
  · exact memRead_congr_words (status := fun ha => absurd ha h1)
  · exact absurd hs (raise_err_ne_none _ _ _)

theorem memRead_assignOwn (h1 : a ≠ 0x0001) (h8 : a ≠ 0x0008) (hlow : a.toNat < 0x1000) : memRead (assignOwn s) a = memRead s a := by
  rw [assignOwn_frame_eq]
  exact memRead_congr_words (status := fun ha => absurd ha h1) (nent := fun ha => absurd ha h8)
    (entry := fun off ha _ => by omega)

/-- The parser's registers and one more entry: STATUS, NENT, MAPPOS, CURENT and the words of entry NENT. -/
theorem memRead_with_map {p : PState} {lut : List Entry} {y : Byte} {c : Code} {m : Word} {ph : Phase}
    (hlut : lut = s.lut ∨ ∃ e, lut = s.lut ++ [e]) (h1 : a ≠ 0x0001) (h8 : a ≠ 0x0008) (hB : a ≠ 0x000B) (hD : a ≠ 0x000D)
    (hentry : ¬ (0x1000 + 16 * s.nent ≤ a.toNat ∧ a.toNat < 0x1000 + 16 * s.nent + 16)) :
    memRead { s with pstate := p, lut := lut, cursym := y, curcode := c, mappos := m, phase := ph } a = memRead s a := by
  refine memRead_congr_words (status := fun ha => absurd ha h1) (nent := fun ha => absurd ha h8) (mappos := fun ha => absurd ha hB)
    (curent := fun ha => absurd ha hD) (entry := fun off ha _ => ?_)
  rcases hlut with rfl | ⟨e, rfl⟩
  · rfl
  · have hne : off / 16 ≠ s.lut.length := fun heq => hentry (by rw [State.nent, ← heq]; omega)
    exact getElem?_append_singleton_of_ne hne _

/-- LDMAP that raises no error changes the parser's registers, MAPPOS and PHASE. -/
theorem ldmapOwn_of_err_none {c : Byte} (hs : (ldmapOwn c s).err = none) : ldmapOwn c s =
    { s with pstate := (ldmapOwn c s).pstate, lut := (ldmapOwn c s).lut, cursym := (ldmapOwn c s).cursym,
             curcode := (ldmapOwn c s).curcode, mappos := (ldmapOwn c s).mappos, phase := .mapload } := by
  rcases ldmapOwn_cases c s with ⟨e, -, h⟩ | ⟨t, ht, h⟩ <;> rw [h] at hs ⊢
  · exact absurd hs (raise_err_ne_none _ _ _)
  · rcases parseStep_ok ht with ⟨-, -, rfl⟩ | ⟨-, -, rfl⟩ | ⟨-, -, rfl⟩ | ⟨b, -, ⟨-, rfl⟩ | ⟨-, -, rfl⟩⟩ | ⟨-, -, rfl⟩ <;> rfl

theorem finishMap_of_err_none (hs : (finishMap s).err = none) : finishMap s = { s with pstate := .start, buf := [], phase := .ready } := by
  rcases finishMap_cases s with ⟨-, h⟩ | ⟨i, j, -, h⟩
  · exact h
  · rw [h] at hs
    exact absurd hs (raise_err_ne_none _ _ _)

/-- ENDMAP that raises no error changes the parser's registers and PHASE, and empties BUF. -/
theorem endmapOwn_of_err_none (hs : (endmapOwn s).err = none) : endmapOwn s =
    { s with pstate := (endmapOwn s).pstate, lut := (endmapOwn s).lut, cursym := (endmapOwn s).cursym,
             curcode := (endmapOwn s).curcode, buf := [], phase := .ready } := by
  rcases endmapOwn_cases s with ⟨-, h⟩ | ⟨-, h⟩ | ⟨-, -, h⟩ <;> rw [h] at hs ⊢
  · rw [finishMap_of_err_none hs]
  · rw [finishMap_of_err_none hs]
  · exact absurd hs (raise_err_ne_none _ _ _)

/-- A command of the map that raises no error appends at most one entry. -/
theorem memRead_ldmapOwn {c : Byte} (hs : (ldmapOwn c s).err = none) (h1 : a ≠ 0x0001) (h8 : a ≠ 0x0008) (hB : a ≠ 0x000B)
    (hD : a ≠ 0x000D) (hentry : ¬ (0x1000 + 16 * s.nent ≤ a.toNat ∧ a.toNat < 0x1000 + 16 * s.nent + 16)) :
    memRead (ldmapOwn c s) a = memRead s a := by
  rw [ldmapOwn_of_err_none hs]
  exact memRead_with_map ((ldmapOwn_lut c s).imp_right fun ⟨_, h⟩ => ⟨_, h⟩) h1 h8 hB hD hentry

theorem memRead_endmapOwn (hbuf : s.buf = []) (hs : (endmapOwn s).err = none) (h1 : a ≠ 0x0001) (h8 : a ≠ 0x0008) (hB : a ≠ 0x000B)
    (hD : a ≠ 0x000D) (hentry : ¬ (0x1000 + 16 * s.nent ≤ a.toNat ∧ a.toNat < 0x1000 + 16 * s.nent + 16)) :
    memRead (endmapOwn s) a = memRead s a := by
  rw [endmapOwn_of_err_none hs, ← hbuf]
  exact memRead_with_map ((endmapOwn_lut s).imp_right fun ⟨_, h⟩ => ⟨_, h⟩) h1 h8 hB hD hentry

end words

/-! ### BUILD and FREQ -/

/-- BUILD appends internal nodes, which are no leaves and count nothing: STATUS, NNODES, ROOT and the words of slots from NDIST on. -/
theorem memRead_buildOwn {s : State} (h : s.Inv) (hp : s.phase = .idle ∨ s.phase = .count) {a : Addr} (h1 : a ≠ 0x0001)
    (h6 : a ≠ 0x0006) (h7 : a ≠ 0x0007) (hslots : ¬ (0x0400 + 2 * s.ndist ≤ a.toNat ∧ a.toNat < 0x07FE)) :
    memRead (buildOwn s) a = memRead s a := by
  obtain ⟨inner, hnodes, hinner⟩ := buildOwn_nodes_append h hp
  have hall : s.ndist = s.nodes.length := leafCount_eq_length_iff.mpr (h.all_leaves (h.root_none hp))
  refine memRead_congr_words (status := fun ha => absurd ha h1) (ndist := fun _ => buildOwn_ndist h hp)
    (nnodes := fun ha => absurd ha h6) (root := fun ha => absurd ha h7) (freq := fun y _ => ?freq) (node := fun off ha hoff => ?node)
  case freq => rw [hnodes, freqOf_append_internal y s.nodes inner hinner]
  case node => rw [hnodes, List.getElem?_append_left (by omega)]

/-- Where no symbol has two leaves, two slots with a leaf of one symbol are one: counting in either counts in the same. -/
theorem leaf_slot_unique {nodes : List Node} (hn : (leafSyms nodes).Nodup) {i k : Nat} {y : Byte} {v w : Word}
    (hi : nodes[i]? = some (.leaf y v)) (hk : nodes[k]? = some (.leaf y w)) : i = k := by
  by_contra hne
  have hset : nodes.set i (.leaf y (v + 1)) = nodes.set k (.leaf y (w + 1)) :=
    (countSym_eq_set hn hi).symm.trans (countSym_eq_set hn hk)
  have hslot := congrArg (fun ns : List Node => ns[i]?) hset
  simp only [List.getElem?_set_ne (Ne.symm hne), List.getElem?_set_self (List.getElem?_eq_some_iff.mp hi).1, hi] at hslot
  simp at hslot

theorem leafSyms_nodup_countSym {y : Byte} {nodes : List Node} (hn : (leafSyms nodes).Nodup) : (leafSyms (countSym y nodes)).Nodup := by
  rw [leafSyms_countSym]
  split_ifs with hmem
  · exact hn
  · exact List.nodup_append.mpr ⟨hn, by simp, fun c hc d hd hcd => hmem (by simp_all)⟩

/-- Counting a symbol changes the slot of its leaf only. -/
theorem countSym_getElem?_of_ne {y : Byte} {nodes : List Node} (hn : (leafSyms nodes).Nodup) {k j : Nat} {w : Word}
    (hk : (countSym y nodes)[k]? = some (.leaf y w)) (hj : j ≠ k) : (countSym y nodes)[j]? = nodes[j]? := by
  have hn' := leafSyms_nodup_countSym (y := y) hn
  by_cases hy : y ∈ leafSyms nodes
  · obtain ⟨v, hv⟩ := mem_leafSyms.mp hy
    obtain ⟨i, hi⟩ := List.mem_iff_getElem?.mp hv
    have hset := countSym_eq_set hn hi
    have hslot : (countSym y nodes)[i]? = some (.leaf y (v + 1)) := by
      rw [hset, List.getElem?_set_self (List.getElem?_eq_some_iff.mp hi).1]
    obtain rfl := leaf_slot_unique hn' hslot hk
    rw [hset, List.getElem?_set_ne hj.symm]
  · have happend := countSym_of_not_mem hy
    have hslot : (countSym y nodes)[nodes.length]? = some (.leaf y 1) := by rw [happend]; simp
    obtain rfl := leaf_slot_unique hn' hslot hk
    rw [happend, getElem?_append_singleton_of_ne hj]

/-- FREQ of a symbol: STATUS, TOTAL, NDIST, NNODES, its count and the words of its leaf's slot. -/
theorem memRead_freqOwn {s : State} (h : s.Inv) {y : Byte} (hs : (freqOwn y s).err = none) {k : Nat} {w : Word}
    (hk : (freqOwn y s).nodes[k]? = some (.leaf y w)) {a : Addr} (h1 : a ≠ 0x0001) (h4 : a ≠ 0x0004) (h5 : a ≠ 0x0005)
    (h6 : a ≠ 0x0006) (hcount : a ≠ 0x0100 + y.zeroExtend 16) (hslot : a.toNat ≠ 0x0400 + 2 * k)
    (hslot' : a.toNat ≠ 0x0400 + 2 * k + 1) : memRead (freqOwn y s) a = memRead s a := by
  rcases freqOwn_cases y s with ⟨-, hown⟩ | ⟨-, hown⟩ <;> rw [hown] at hs hk ⊢
  · exact absurd hs (raise_err_ne_none _ _ _)
  · refine memRead_congr_words (status := fun ha => absurd ha h1) (total := fun ha => absurd ha h4) (ndist := fun ha => absurd ha h5)
      (nnodes := fun ha => absurd ha h6) (freq := fun z ha => ?freq) (node := fun off ha _ => ?node)
    case freq => exact freqOf_countSym y z (by rintro rfl; exact hcount ha) s.nodes
    case node => exact countSym_getElem?_of_ne h.r38.leaves hk (by omega)

/-! ### The obligation -/

/-- Settles O22: a command that raises no error follows its own rule, and each rule has its frame. -/
theorem readSpaceFrames : Obligations.ReadSpaceFrames := by
  intro i s t h _ hexec ht a
  obtain rfl := exec_next_iff.mp hexec
  have hi := mem_legalPhases_of_err_none ht
  rw [after_of_mem hi] at ht ⊢
  refine ⟨?outputs, ?bit, ?enddata, ?assign, ?build, ?freq, ?map⟩
  case outputs =>
    rintro (rfl | rfl | ⟨y, rfl⟩ | ⟨b, rfl⟩)
    · rfl
    · rfl
    · exact memRead_packOwn ht
    · rfl
  case bit => rintro ⟨c, rfl⟩; exact memRead_bitOwn ht
  case enddata => rintro rfl; exact memRead_enddataOwn ht
  case assign => rintro rfl; exact memRead_assignOwn
  case build => rintro rfl; exact memRead_buildOwn h (by simpa [legalPhases] using hi)
  case freq => rintro y k w rfl hk; exact memRead_freqOwn h ht hk
  case map =>
    rintro (⟨c, rfl⟩ | rfl)
    · exact memRead_ldmapOwn ht
    · have hp : s.phase = .idle ∨ s.phase = .mapload := by simpa [legalPhases] using hi
      have hbuf : s.buf = [] := h.r38.buf.1 (by rcases hp with hp | hp <;> simp [hp])
      exact memRead_endmapOwn hbuf ht

end Sys2Proof.Machine
end
